-- ==== Sys2Proof/Word.lean ====
section
/-! DEFINITION. The bit widths the spec works in (00_scope.md R8, R10): bytes, 32-bit words, 64-bit
absolute stream positions. Everything is unsigned. -/

namespace Sys2Proof

/-- A byte of IN or OUT. -/
abbrev Byte := BitVec 8

/-- A 32-bit quantity: a command word (CMD_W), ILEN, OCAP, the bit queue (QUEUE_W), a checksum. -/
abbrev Word := BitVec 32

/-- An absolute stream position or a stream length (POS_W = 64 bits, R8, R20, R23). -/
abbrev Position := BitVec 64

end Sys2Proof
end

