-- ==== Sys2Proof/Syntax.lean ====
section
/-! DEFINITION. The command set CORE-CMD v1 (30_encoding.md R52 to R58) and what the host hands the core with
a command (R56). -/

namespace Sys2Proof

/-- The container formats (10_state.md R18). The code 3 is no format. -/
inductive Format
  | gzip
  | zlib
  | deflate
  deriving DecidableEq, Repr

/-- The three commands (R3, R58), one constructor per row of opcode_table.json. A field holds exactly the bits its
command word carries: LEVEL 2 .. 15 and FORMAT 3 are words of INIT, which faults on them (R53, R59). -/
inductive Instr
  /-- `INIT LEVEL, FORMAT` (R53, R131): LEVEL is bits 7:4, FORMAT bits 9:8. -/
  | init (level : BitVec 4) (format : BitVec 2)
  /-- `ENCODE MORE` (R54, R132): MORE is bit 4; IN, ILEN, OCAP and OUT come with the word. -/
  | encode (more : Bool)
  /-- `FINISH` (R55, R133): OCAP and OUT come with the word. -/
  | finish
  deriving DecidableEq, Repr

/-- A duty of R153 (70_reset_and_hazards.md) that the host breaks during an ENCODE. That a host changes OUT while an ENCODE
or FINISH runs (20_memory.md R46 lets it do so only afterwards, and no rule gives the outcome) is not represented: DESIGN
CHOICE, unsafe, log 10. -/
inductive HostBreach
  /-- IN and OUT overlap (20_memory.md R51). -/
  | overlap
  /-- The host changes IN while the ENCODE runs (R51). -/
  | inputChanged
  /-- A byte of IN below ILEN cannot be read (R153). -/
  | inputUnreadable
  /-- A byte of OUT below OCAP cannot be written (R153). -/
  | outputUnwritable
  deriving DecidableEq, Repr

/-- The operands the host hands over with a command word (R54, R55, R56). `input` lists the bytes of IN by offset;
an offset below ILEN that it does not list holds the byte 0 (a way of writing the host's chunk down: every chunk can be
written so; log 9). OUT has no content to hand over: the core never reads it (20_memory.md R34). `breach` is nothing the
core is handed or can detect (92 D30): it says which duty, if any, the host breaks with these windows. -/
structure Operands where
  input : List Host.Cell
  ilen : Word
  ocap : Word
  breach : Option HostBreach
  deriving DecidableEq, Repr

/-- One command as the host delivers it: the word and its operands, one transaction (R52, R56). -/
structure HostCommand where
  word : Word
  operands : Operands
  deriving DecidableEq, Repr

/-- What the host can do to the core: issue a command, or apply hardware reset between commands (R149, R152). -/
inductive HostEvent
  | command (c : HostCommand)
  | hardwareReset
  deriving DecidableEq, Repr

end Sys2Proof
end

