-- ==== Sys2Proof/Decode.lean ====
section
/-! DEFINITION. The command word: decoding by the opcode map of 30_encoding.md R58, and the encoder written from the
formats R53 to R55. There is one length and one format family, and no mode changes decoding (R52, R60). -/

namespace Sys2Proof

/-- A row of the opcode map (R58): a word `w` is of the row when `w &&& mask = pattern`. -/
structure OpcodeRow where
  mnemonic : String
  pattern : Word
  mask : Word
  deriving DecidableEq, Repr

/-- R58, INIT. -/
def rowInit : OpcodeRow := ⟨"INIT", 0x00000001#32, 0xFFFFFC0F#32⟩

/-- R58, ENCODE. -/
def rowEncode : OpcodeRow := ⟨"ENCODE", 0x00000002#32, 0xFFFFFFEF#32⟩

/-- R58, FINISH. -/
def rowFinish : OpcodeRow := ⟨"FINISH", 0x00000003#32, 0xFFFFFFFF#32⟩

/-- The opcode map (R58). -/
def opcodeMap : List OpcodeRow := [rowInit, rowEncode, rowFinish]

/-- A word is of a row (R58). -/
def OpcodeRow.covers (r : OpcodeRow) (w : Word) : Bool :=
  decide (w &&& r.mask = r.pattern)

/-- Why a word spells no command (R59). Both raise IllegalCommand. -/
inductive Reject
  /-- OP is 0b0000 or 0b0100 .. 0b1111. -/
  | noSuchOpcode
  /-- OP is 1, 2 or 3 and a reserved bit is set. -/
  | reservedBitSet
  deriving DecidableEq, Repr

/-- What a command word spells: a command, or none. -/
inductive Decoded
  | command (i : Instr)
  | illegal (why : Reject)
  deriving DecidableEq, Repr

/-- The opcode field OP, bits 3:0 (R52). -/
def opField (w : Word) : BitVec 4 := w.extractLsb' 0 4

/-- The name of the illegality of a word that no row matches (R59). -/
def rejectReason (w : Word) : Reject :=
  if opField w = 1#4 ∨ opField w = 2#4 ∨ opField w = 3#4 then .reservedBitSet else .noSuchOpcode

/-- R58: exactly one row matches a word or none does; the fields are LEVEL = w[7:4], FORMAT = w[9:8], MORE = w[4]. -/
def decode (w : Word) : Decoded :=
  if rowInit.covers w then .command (.init (w.extractLsb' 4 4) (w.extractLsb' 8 2))
  else if rowEncode.covers w then .command (.encode (w.getLsbD 4))
  else if rowFinish.covers w then .command .finish
  else .illegal (rejectReason w)

/-- R61: `INIT l, f` is `0x1 | l << 4 | f << 8`, `ENCODE m` is `0x2 | m << 4`, `FINISH` is `0x3`. -/
def encode : Instr → Word
  | .init level format => 1#32 ||| (level.setWidth 32 <<< 4) ||| (format.setWidth 32 <<< 8)
  | .encode more => 2#32 ||| ((BitVec.ofBool more).setWidth 32 <<< 4)
  | .finish => 3#32

/-- The row of the opcode map a command belongs to (R58). -/
def rowOf : Instr → OpcodeRow
  | .init _ _ => rowInit
  | .encode _ => rowEncode
  | .finish => rowFinish

/-- The decoder on a word given as a number: its low `nbits` bits, every bit above them 0. -/
def decodeTableWord (nbits w : Nat) : Option Instr :=
  match decode (BitVec.ofNat 32 (w % 2 ^ nbits)) with
  | .command i => some i
  | .illegal _ => none

end Sys2Proof
end

