-- ==== Sys2Proof/Config.lean ====
section
/-! DEFINITION. The free values: every value the spec calls unspecified, meaningless or any value, and that a register or
a response must still hold, is one of these constants applied to the number of the draw. None has a body, so nothing can
be proved of what it is. (The parameters of 00_scope.md R8, all fixed by the spec, are in Machine/Params.lean.) -/

namespace Sys2Proof.Config

/-- BYTES_WRITTEN of a response whose STATUS is not OK (30_encoding.md R57; 93 U15; log 4). -/
opaque freeBytesWritten : Nat → Word

/-- The transient registers after their command has ended, by draw and register (10_state.md R26; log 3). -/
opaque freeTransient : Nat → Nat → BitVec 64

/-- `state` after an OutputOverflow or a breach: one of the seven values it may hold (60_exceptions.md R139, 20_memory.md
R51, 10_state.md R16; 93 U11, U16, U17; logs 5 and 20). -/
opaque freePhase : Nat → Fin 7

/-- `level` after an OutputOverflow or a breach (R139, R51; logs 5 and 20). -/
opaque freeLevel : Nat → BitVec 1

/-- `format` after an OutputOverflow or a breach: one of the three values it may hold (R139, R51, R18; logs 5 and 20). -/
opaque freeFormat : Nat → Fin 3

/-- `crc` after an OutputOverflow or a breach (R139, R51; logs 5 and 20). -/
opaque freeCrc : Nat → Word

/-- `input_len` after an OutputOverflow or a breach (R139, R51; logs 5 and 20). -/
opaque freeInputLen : Nat → Position

/-- `bit_queue` after an OutputOverflow or a breach (R139, R51; logs 5 and 20). -/
opaque freeBitQueue : Nat → Word

/-- `bit_count` after an OutputOverflow or a breach (R139, R51; logs 5 and 20). -/
opaque freeBitCount : Nat → BitVec 5

/-- One slot of `match_table` after an OutputOverflow or a breach, by draw and slot index: empty, or any position and
value (R139, R51; logs 5 and 20). -/
opaque freeSlot : Nat → Nat → Option (Position × Word)

/-- Whether an ENCODE whose host breaks a duty ends in OutputOverflow (20_memory.md R51; 93 U11; log 20). -/
opaque freeOverflows : Nat → Bool

/-- How many bytes such an ENCODE emits, before it is cut to what OCAP has room for (R51; log 20). -/
opaque freeLength : Nat → Nat

/-- The bytes such an ENCODE emits, by draw and offset (R51; log 20). -/
opaque freeByte : Nat → Nat → Byte

end Sys2Proof.Config
end

