-- ==== Sys2Proof/WellFormed.lean ====
section
/-! DEFINITION. What makes a command legal and its operands well formed. The fields of `Instr` have the widths of the
command word (30_encoding.md R53 to R55), so every term of `Instr` has an encoding; what is left to check is that INIT
names a legal configuration (R53, 70_reset_and_hazards.md R151), and that the host's chunk is written in its one
canonical form (log 9). -/

namespace Sys2Proof

/-- R53, R151: INIT needs LEVEL 0 or 1 and FORMAT 0, 1 or 2; every ENCODE and FINISH word is legal. -/
def Instr.legal : Instr → Bool
  | .init level format => decide (level.toNat ≤ 1) && decide (format.toNat ≤ 2)
  | .encode _ => true
  | .finish => true

/-- A list of keyed entries in its canonical order: keys strictly rising, so no key stands twice. -/
abbrev Rising {α : Type} (m : List (Nat × α)) : Prop :=
  (m.map Prod.fst).Pairwise (· < ·)

/-- The chunk of an ENCODE in its canonical form: offsets strictly rising, none at or past ILEN (R34: IN has ILEN
bytes), no listed byte equal to the 0 that an unlisted offset holds. -/
abbrev Operands.wellFormed (o : Operands) : Prop :=
  Rising o.input ∧ (∀ c ∈ o.input, c.1 < o.ilen.toNat) ∧ (∀ c ∈ o.input, c.2 ≠ 0#8)

end Sys2Proof
end

