-- ==== Sys2Proof/Machine/State.lean ====
section
/-! DEFINITION. The state of the core (10_state.md), its command port (30_encoding.md R56, R57), and what the host does
next. Plain data throughout. -/

namespace Sys2Proof.Machine

/-- The values of the register `state` (R16). The code 7 is never held and has no constructor (93 U17). -/
inductive Phase
  /-- UNINIT, code 0: no stream configured. -/
  | uninit
  /-- INIT, code 1: nothing emitted. -/
  | init
  /-- EOB, code 2: header or previous block's end-of-block sent, ready for a new block. -/
  | eob
  /-- FIXED, code 3: inside an open fixed-Huffman block. -/
  | fixed
  /-- LAST, code 4: final block opened, awaiting close. -/
  | last
  /-- DONE, code 5: deflate stream closed, BFINAL sent. -/
  | done
  /-- END, code 6: format trailer appended. -/
  | ended
  deriving DecidableEq, Repr

/-- What a non-empty slot of the match table holds (R23). -/
structure Slot where
  position : Position
  value : Word
  deriving DecidableEq, Repr

/-- The match table (R23): the non-empty slots by slot index. An index it does not list is an empty slot. -/
abbrev Table := List (Nat × Slot)

/-- The canonical form of the match table: indexes strictly rising, all among the 8192 slots. -/
abbrev Table.wf (t : Table) : Prop :=
  Rising t ∧ ∀ e ∈ t, e.1 < 8192

/-- A byte space of the core as the bytes it lists by offset. An offset that OUT does not list has no value. -/
abbrev Memory := List Host.Cell

/-- The canonical form of a byte space: offsets strictly rising. For OUT an unlisted offset has no value, so no entry can
equal what it reads as; for IN see `Operands.wellFormed`. -/
abbrev Memory.wf (m : Memory) : Prop := Rising m

/-- The persistent registers of the one context (R15 to R23). -/
structure Context where
  /-- `state`, R16. -/
  phase : Phase
  /-- R17: 0 store, 1 match and Huffman. -/
  level : BitVec 1
  /-- R18. -/
  format : Format
  /-- R19. -/
  crc : Word
  /-- `input_len`, R20. -/
  inputLen : Position
  /-- `bit_queue`, R21. -/
  bitQueue : Word
  /-- `bit_count`, R21, R22. -/
  bitCount : BitVec 5
  /-- `match_table`, R23. -/
  table : Table
  deriving DecidableEq, Repr

/-- The transient registers of the command in progress (R26). -/
structure Transient where
  cursor : Word
  ocap : Word
  more : Bool
  ilen : Word
  base : Position
  pos : Word
  plit : Word
  bit9 : Word
  deriving DecidableEq, Repr

/-- The response of a command (30_encoding.md R57). -/
structure Response where
  status : BitVec 4
  bytesWritten : Word
  deriving DecidableEq, Repr

/-- The state of the machine. `host` and `draws` are the model's own (logs 6 and 7). -/
structure State where
  /-- The context registers of R16 to R23. -/
  ctx : Context
  /-- `faulted`, R25. -/
  faulted : Bool
  /-- `fault_cause`, R25: a code of 60_exceptions.md R135. -/
  faultCause : BitVec 4
  /-- The transient registers, R26. -/
  work : Transient
  /-- The operands of the command at the port: IN, ILEN, OCAP (30_encoding.md R56), and whether the host breaks a duty with
  them (20_memory.md R51). -/
  operands : Operands
  /-- The OUT window of the command at the port: the bytes written to it (20_memory.md R34, R39). -/
  out : Memory
  /-- The response of the last command; none when no command has run since hardware reset (R57, R130). -/
  response : Option Response
  /-- What the host does next, first first (70_reset_and_hazards.md R151, R152). -/
  host : List HostEvent
  /-- How many free values have been drawn. -/
  draws : Nat
  deriving DecidableEq, Repr

/-- Why the model stops where the spec gives no behaviour. The spec's own faults (60_exceptions.md R135) are no stop: they
are taken as next states (Machine/Ops.lean, `takeFault`). -/
inductive Fault
  /-- Raised by a read of IN outside [0, ILEN) (`writeRaw`, `huffLits`, `scanStep`,
  `literalStep`): 20_memory.md R36 says that the core performs none. Safe: the model stops. -/
  | readOutsideInput
  deriving DecidableEq, Repr

/-- Calls that no rule makes (93 U19 to U21); "a model that represents it must reject it". All are safe: the model stops. -/
inductive Refusal
  /-- Raised by an arm of `exec` whose instruction has no meaning yet. Safe. No arm of this model raises it. -/
  | notModelled (mnemonic : String)
  /-- Raised by `enqueue` for more than 24 bits or a value with a bit at or above its width (41_bit_queue.md R65). Safe. -/
  | enqueueOutOfRange
  /-- Raised by `enqueue` when more than 7 bits are pending, which R22 (10_state.md) excludes between two bit-queue
  operations. Safe. -/
  | bitQueueNotDrained
  /-- Raised by the raw writers when bits are pending (41_bit_queue.md R67). Safe. -/
  | rawWriterUnaligned
  /-- Raised by `emitMatch` and the cost check for a length that 43_fixed_huffman.md R89 has no field for. Safe. -/
  | noLengthCode
  /-- Raised by `emitMatch` and the cost check for a distance that R91 has no field for. Safe. -/
  | noDistanceCode
  /-- Raised by the candidate test for a slot that is not earlier in the stream (44_match_finder.md R99). Safe. -/
  | slotNotInThePast
  deriving DecidableEq, Repr

/-- The context right after hardware reset (10_state.md R32): `state` is UNINIT. The other values are the model's
(DESIGN CHOICE, unsafe, log 1). -/
def Context.reset : Context where
  phase := .uninit
  level := 0#1
  format := .gzip
  crc := 0#32
  inputLen := 0#64
  bitQueue := 0#32
  bitCount := 0#5
  table := []

/-- The transient registers when no command has run (DESIGN CHOICE, unsafe, log 2). -/
def Transient.reset : Transient where
  cursor := 0#32
  ocap := 0#32
  more := false
  ilen := 0#32
  base := 0#64
  pos := 0#32
  plit := 0#32
  bit9 := 0#32

/-- The operands of the port when no command has been issued (DESIGN CHOICE, log 9). -/
def Operands.reset : Operands where
  input := []
  ilen := 0#32
  ocap := 0#32
  breach := none

/-- The machine right after hardware reset at power-on (R32, R149): UNINIT, `faulted` 0, `fault_cause` 0; the rest at the
values that logs 1, 2, 6, 7, 8, 9 and 16 name. -/
def State.reset : State where
  ctx := Context.reset
  faulted := false
  faultCause := 0#4
  work := Transient.reset
  operands := Operands.reset
  out := []
  response := none
  host := []
  draws := 0

end Sys2Proof.Machine
end

