-- ==== Sys2Proof/Machine/Flags.lean ====
section
/-! DEFINITION. The core has no flags or condition codes (10_state.md R29). The only status is the response's STATUS and
the sticky fault bit with its cause; this file gives their codes, and the codes of the registers `state` and `format`. -/

namespace Sys2Proof.Machine

/-- The fault causes of 60_exceptions.md R135. -/
inductive Cause
  | illegalCommand
  | badLevel
  | badFormat
  | notInitialized
  | encodeAfterClose
  | finishAfterEnd
  | outputOverflow
  | streamTooLong
  deriving DecidableEq, Repr

/-- STATUS of a command that raised no fault (R135, 30_encoding.md R57). -/
def statusOk : BitVec 4 := 0#4

/-- The cause codes of R135: the STATUS value and the value recorded in `fault_cause`. Codes 9 .. 15 are never raised. -/
def Cause.code : Cause → BitVec 4
  | .illegalCommand => 1#4
  | .badLevel => 2#4
  | .badFormat => 3#4
  | .notInitialized => 4#4
  | .encodeAfterClose => 5#4
  | .finishAfterEnd => 6#4
  | .outputOverflow => 7#4
  | .streamTooLong => 8#4

/-- The codes of `state` (10_state.md R16). -/
def Phase.code : Phase → BitVec 3
  | .uninit => 0#3
  | .init => 1#3
  | .eob => 2#3
  | .fixed => 3#3
  | .last => 4#3
  | .done => 5#3
  | .ended => 6#3

/-- The phase a number below 7 encodes (R16). -/
def phaseOfCode (c : Fin 7) : Phase :=
  match c with
  | 0 => .uninit
  | 1 => .init
  | 2 => .eob
  | 3 => .fixed
  | 4 => .last
  | 5 => .done
  | 6 => .ended

/-- The phases in which no deflate block is open, so that no bit is pending (10_state.md R22, R120). -/
def Phase.blockClosed : Phase → Bool
  | .uninit => true
  | .init => true
  | .eob => true
  | .fixed => false
  | .last => false
  | .done => true
  | .ended => true

/-- The codes of `format` (R18). -/
def formatCode : Format → BitVec 2
  | .gzip => 0#2
  | .zlib => 1#2
  | .deflate => 2#2

/-- The format a FORMAT field selects; 3 selects none (R18, 30_encoding.md R53). -/
def formatOfField (f : BitVec 2) : Option Format :=
  if f = 0#2 then some .gzip
  else if f = 1#2 then some .zlib
  else if f = 2#2 then some .deflate
  else none

/-- The format a number below 3 encodes (R18). -/
def formatOfCode (c : Fin 3) : Format :=
  match c with
  | 0 => .gzip
  | 1 => .zlib
  | 2 => .deflate

end Sys2Proof.Machine
end

