-- ==== Sys2Proof/Machine/Params.lean ====
section
/-! DEFINITION. The implementation parameters of 00_scope.md R8, under the spec's names. All are fixed by the spec (R9). -/

namespace Sys2Proof.Machine

/-- TABLE_SLOTS = 2^HASH_BITS, HASH_BITS = 13. -/
def tableSlots : Nat := 8192

/-- MIN_WORD: the width in bytes of the hashed word, and the shortest match. -/
def minWord : Nat := 4

/-- WINDOW: the largest distance. -/
def window : Nat := 32768

/-- MAX_MATCH: the longest match. -/
def maxMatch : Nat := 258

/-- MAX_ENQ: the widest single enqueue, in bits. -/
def maxEnqueue : Nat := 24

/-- STORED_MAX: the most bytes of one stored block. -/
def storedMax : Nat := 65535

/-- BIT9_THRESHOLD (92 D12). UNVERIFIED, log 18 (K13). -/
def bit9Threshold : Nat := 52

/-- SHORT_MATCH (92 D11). UNVERIFIED, log 18 (K11). -/
def shortMatch : Nat := 6

/-- COST_SLACK, in bits (92 D11). UNVERIFIED, log 18 (K12). -/
def costSlack : Nat := 8

/-- ADLER_MOD. -/
def adlerMod : Nat := 65521

/-- ADLER_BLOCK: the block length of the informative deferred-modulus datapath (42_checksums.md R82). -/
def adlerBlock : Nat := 4096

/-- The reflected CRC-32 polynomial (42_checksums.md R74). UNVERIFIED, log 18 (K3). -/
def crcPolynomial : Word := 0xEDB88320#32

/-- The first byte value that costs 9 bits as a fixed-Huffman literal (43_fixed_huffman.md R87, 44_match_finder.md R103). -/
def nineBitLiteral : Nat := 144

end Sys2Proof.Machine
end

