-- ==== Sys2Proof/Machine/Ops.lean ====
section
/-! DEFINITION. The named operations over the spaces and registers of the core, the outcome of an internal operation,
taking a fault (60_exceptions.md R138 to R140), completing a command (47_commands.md R130), and hardware reset
(70_reset_and_hazards.md R149). -/

namespace Sys2Proof.Machine

/-! ### Keyed lists: the one form of OUT, IN and the match table -/

/-- The entry of a key, none where the list has none. -/
def entryAt {α : Type} : List (Nat × α) → Nat → Option α
  | [], _ => none
  | (a, x) :: rest, k => if a = k then some x else entryAt rest k

/-- The list with the entry of one key replaced or put in, in key order. -/
def setEntry {α : Type} : List (Nat × α) → Nat → α → List (Nat × α)
  | [], k, x => [(k, x)]
  | (a, y) :: rest, k, x =>
    if k < a then (k, x) :: (a, y) :: rest
    else if k = a then (k, x) :: rest
    else (a, y) :: setEntry rest k x

/-- A byte of OUT: none where this command has written none (20_memory.md R40; log 8). -/
def Memory.read (m : Memory) (a : Nat) : Option Byte := entryAt m a

/-- One byte written at an offset (20_memory.md R39). -/
def Memory.write (m : Memory) (a : Nat) (b : Byte) : Memory := setEntry m a b

/-- `Tab[h]` read (00_scope.md R13, 10_state.md R23): none is the empty slot. -/
def Table.slot (t : Table) (h : BitVec 13) : Option Slot := entryAt t h.toNat

/-- `Tab[h] <- slot` (00_scope.md R13, 10_state.md R23). -/
def Table.put (t : Table) (h : BitVec 13) (x : Slot) : Table := setEntry t h.toNat x

/-! ### Register writes -/

/-- `state <- p` (10_state.md R16). -/
def State.withPhase (s : State) (p : Phase) : State := { s with ctx := { s.ctx with phase := p } }

/-- `crc <- c` (R19). -/
def State.withCrc (s : State) (c : Word) : State := { s with ctx := { s.ctx with crc := c } }

/-- `input_len <- n` (R20). -/
def State.withInputLen (s : State) (n : Position) : State := { s with ctx := { s.ctx with inputLen := n } }

/-- `bit_queue <- q; bit_count <- n` (R21). -/
def State.withQueue (s : State) (q : Word) (n : BitVec 5) : State :=
  { s with ctx := { s.ctx with bitQueue := q, bitCount := n } }

/-- `Tab[h] <- x` (R23). -/
def State.withSlot (s : State) (h : BitVec 13) (x : Slot) : State :=
  { s with ctx := { s.ctx with table := Table.put s.ctx.table h x } }

/-- The scan registers `pos`, `plit` and `bit9` (R26). -/
def State.withScan (s : State) (pos plit bit9 : Word) : State :=
  { s with work := { s.work with pos := pos, plit := plit, bit9 := bit9 } }

/-- `out[cursor] <- b; cursor <- cursor + 1` (20_memory.md R39, 41_bit_queue.md R63). -/
def State.writeOut (s : State) (b : Byte) : State :=
  { s with
    out := Memory.write s.out s.work.cursor.toNat b
    work := { s.work with cursor := s.work.cursor + 1#32 } }

/-! ### The outcome of an internal operation -/

/-- How an internal operation of 41 .. 47 ends. -/
inductive Flow
  /-- It ran to its end. -/
  | run (s : State)
  /-- It raised Fault(OutputOverflow), the only fault inside a command (60_exceptions.md R137); `s` is the state it was
  raised in, and the rest of the command is abandoned (R138). -/
  | overflow (s : State)
  /-- It read IN out of range, which no rule does (20_memory.md R36). -/
  | stopped (f : Fault)
  /-- It made a call that no rule makes (93 U19 to U21). -/
  | refused (r : Refusal)
  deriving DecidableEq, Repr

/-- Statements in a pseudocode block run in order; a raised fault abandons the rest (00_scope.md R13, 60_exceptions.md
R138). -/
def Flow.bind (x : Flow) (f : State → Flow) : Flow :=
  match x with
  | .run s => f s
  | .overflow s => .overflow s
  | .stopped e => .stopped e
  | .refused r => .refused r

/-! ### Faults, completion, reset -/

/-- `Fault(cause)` (60_exceptions.md R138, R139): `faulted` and `fault_cause` are written and the response is the cause
code, with BYTES_WRITTEN unspecified (30_encoding.md R57; log 4). Nothing else of the context changes: a pre-check fault is
precise. -/
def takeFault (cause : Cause) (s : State) : State :=
  { s with
    faulted := true
    faultCause := cause.code
    response := some ⟨cause.code, Config.freeBytesWritten s.draws⟩
    draws := s.draws + 1 }

/-- The match table with every slot free (R139; log 5): any of the 8192 slots may be empty or hold anything. -/
def freeTable (n : Nat) : Table :=
  (List.range tableSlots).filterMap fun h => (Config.freeSlot n h).map fun x => (h, ⟨x.1, x.2⟩)

/-- A context with every register free (R139; log 5). -/
def freeContext (n : Nat) : Context where
  phase := phaseOfCode (Config.freePhase n)
  level := Config.freeLevel n
  format := formatOfCode (Config.freeFormat n)
  crc := Config.freeCrc n
  inputLen := Config.freeInputLen n
  bitQueue := Config.freeBitQueue n
  bitCount := Config.freeBitCount n
  table := freeTable n

/-- The transient registers when their command has ended: each a free value (10_state.md R26, "meaningless"; log 3). -/
def freeTransient (n : Nat) : Transient where
  cursor := (Config.freeTransient n 0).setWidth 32
  ocap := (Config.freeTransient n 1).setWidth 32
  more := (Config.freeTransient n 2).getLsbD 0
  ilen := (Config.freeTransient n 3).setWidth 32
  base := Config.freeTransient n 4
  pos := (Config.freeTransient n 5).setWidth 32
  plit := (Config.freeTransient n 6).setWidth 32
  bit9 := (Config.freeTransient n 7).setWidth 32

/-- OutputOverflow (41_bit_queue.md R63, 60_exceptions.md R139): imprecise. The bytes of OUT written before it stay; every
register of the context but `faulted` and `fault_cause` is unspecified. -/
def takeOverflow (s : State) : State :=
  takeFault .outputOverflow { s with ctx := freeContext s.draws, work := freeTransient s.draws }

/-- A faulted core refuses every command (60_exceptions.md R140): nothing changes, and the response is `fault_cause` with
BYTES_WRITTEN unspecified. -/
def refuseFaulted (s : State) : State :=
  { s with
    response := some ⟨s.faultCause, Config.freeBytesWritten s.draws⟩
    draws := s.draws + 1 }

/-- `return (OK, cursor)` of ENCODE and FINISH (47_commands.md R130, R132, R133); the transient registers are meaningless
from here on (10_state.md R26). -/
def complete (s : State) : State :=
  { s with
    response := some ⟨statusOk, s.work.cursor⟩
    work := freeTransient s.draws
    draws := s.draws + 1 }

/-- `return (OK, 0)` of INIT (47_commands.md R131). -/
def completeInit (s : State) : State :=
  { s with response := some ⟨statusOk, 0#32⟩ }

/-- The end of an ENCODE or FINISH as an outcome of the command: it completes, it has faulted OutputOverflow, or the model
stopped. -/
def Flow.outcome : Flow → Host.Outcome State Fault Refusal
  | .run s => .next (complete s)
  | .overflow s => .next (takeOverflow s)
  | .stopped f => .fault f
  | .refused r => .refused r

/-- Hardware reset (70_reset_and_hazards.md R149, 10_state.md R32): UNINIT, `faulted` 0, `fault_cause` 0. R32 leaves the
other context registers unspecified; they take the values they have at power-on (DESIGN CHOICE, unsafe,
logs 1 and 15). The port's operands and
window are the host's and stay; no response of an earlier command stands any more (log 16). -/
def hardwareReset (s : State) : State :=
  { s with
    ctx := Context.reset
    faulted := false
    faultCause := 0#4
    work := Transient.reset
    response := none }

end Sys2Proof.Machine
end

