-- ==== Sys2Proof/Machine/Operands.lean ====
section
/-! DEFINITION. The operands of a command: the chunk in IN (20_memory.md R34, R36, R37), and what ENCODE and FINISH copy
into the transient registers when they start (30_encoding.md R56, 10_state.md R26). -/

namespace Sys2Proof.Machine

/-- `in[i]` for an offset below ILEN: the byte listed there, 0 where none is (log 9). -/
def inByte (o : Operands) (i : Nat) : Byte := (entryAt o.input i).getD 0#8

/-- The chunk `in[0 .. ILEN-1]`, first byte first (00_scope.md R12). -/
def chunkOf (o : Operands) : List Byte := (List.range o.ilen.toNat).map (inByte o)

/-- `in[i .. i+n-1]`; none where it would leave [0, ILEN) (20_memory.md R36). -/
def inBytes (inp : List Byte) (i n : Nat) : Option (List Byte) :=
  if i + n ≤ inp.length then some ((inp.drop i).take n) else none

/-- Bytes combined little-endian: the sum of `b[k] << (8k)` (20_memory.md R36). -/
def littleEndian : List Byte → Nat
  | [] => 0
  | b :: rest => b.toNat + 256 * littleEndian rest

/-- `MemRead(IN, i, n)` (00_scope.md R13, 20_memory.md R36). -/
def memRead (inp : List Byte) (i n : Nat) : Option Nat := (inBytes inp i n).map littleEndian

/-- The match finder's word: the 4-byte little-endian word at an offset (20_memory.md R37). No alignment is needed (R44). -/
def readWord (inp : List Byte) (pos : Nat) : Option Word := (memRead inp pos 4).map (BitVec.ofNat 32)

/-- The host breaks a duty with these windows (20_memory.md R51, 70_reset_and_hazards.md R153). A window of no bytes can
neither be changed, nor be out of reach, nor overlap another. -/
def breached (o : Operands) : Bool :=
  match o.breach with
  | none => false
  | some .overlap => decide (o.ilen ≠ 0#32) && decide (o.ocap ≠ 0#32)
  | some .inputChanged => decide (o.ilen ≠ 0#32)
  | some .inputUnreadable => decide (o.ilen ≠ 0#32)
  | some .outputUnwritable => decide (o.ocap ≠ 0#32)

/-- The start of an ENCODE: `cursor <- 0; ocap <- OCAP; more <- MORE; ilen <- ILEN; base <- input_len; pos <- 0;
plit <- 0; bit9 <- 0` (47_commands.md R132), on a fresh OUT window, of whose old content nothing is assumed
(20_memory.md R40). -/
def beginEncode (more : Bool) (s : State) : State :=
  { s with
    out := []
    work :=
      { cursor := 0#32
        ocap := s.operands.ocap
        more := more
        ilen := s.operands.ilen
        base := s.ctx.inputLen
        pos := 0#32
        plit := 0#32
        bit9 := 0#32 } }

/-- The start of a FINISH: `cursor <- 0; ocap <- OCAP` (47_commands.md R133), on a fresh OUT window. -/
def beginFinish (s : State) : State :=
  { s with
    out := []
    work := { s.work with cursor := 0#32, ocap := s.operands.ocap } }

end Sys2Proof.Machine
end

