-- ==== Sys2Proof/Machine/Checksum.lean ====
section
/-! DEFINITION. The checksum engines (42_checksums.md R74 to R84): pure functions of the accumulator and the bytes. -/

namespace Sys2Proof.Machine

/-- One of the eight steps of the generator of the CRC table (R74). -/
def crcShift (c : Word) : Word :=
  if c.getLsbD 0 then crcPolynomial ^^^ (c >>> 1) else c >>> 1

/-- Entry `T[n]` of the CRC table, by its generator (R74): the table is the ROM of 20_memory.md R34. -/
def crcTable (n : Byte) : Word :=
  crcShift (crcShift (crcShift (crcShift (crcShift (crcShift (crcShift (crcShift (n.setWidth 32))))))))

/-- `CRC_BYTE(R, b)` (R75): the register is the conventional CRC-32 shift register inverted. -/
def crcByte (r : Word) (b : Byte) : Word :=
  let s := r ^^^ 0xFFFFFFFF#32
  (crcTable (s.setWidth 8 ^^^ b) ^^^ (s >>> 8)) ^^^ 0xFFFFFFFF#32

/-- `CRC_UPDATE(R, in)` (R77): byte-serial (R78). -/
def crcUpdate (r : Word) (bs : List Byte) : Word := bs.foldl crcByte r

/-- The folded table `T2[n] = T[n ^ 0xFF] ^ 0xFF000000` (R76). -/
def crcTableFolded (n : Byte) : Word := crcTable (n ^^^ 0xFF#8) ^^^ 0xFF000000#32

/-- CRC_BYTE on the held register directly (R76); R76 says that it agrees with `crcByte`. -/
def crcByteFolded (r : Word) (b : Byte) : Word := crcTableFolded (r.setWidth 8 ^^^ b) ^^^ (r >>> 8)

/-- The half `s1 = R[15:0]` of an Adler-32 accumulator (R80). -/
def adlerLow (r : Word) : Nat := (r.extractLsb' 0 16).toNat

/-- The half `s2 = R[31:16]` of an Adler-32 accumulator (R80). -/
def adlerHigh (r : Word) : Nat := (r.extractLsb' 16 16).toNat

/-- `s2 << 16 | s1` (R80). -/
def adlerPack (s1 s2 : Nat) : Word := (BitVec.ofNat 32 s2 <<< 16) ||| BitVec.ofNat 32 s1

/-- `ADLER_BYTE(R, b)` (R80): s1 first, then s2 with the new s1. -/
def adlerByte (r : Word) (b : Byte) : Word :=
  let s1 := (adlerLow r + b.toNat) % adlerMod
  let s2 := (adlerHigh r + s1) % adlerMod
  adlerPack s1 s2

/-- `ADLER_UPDATE(R, in)` (R81): byte-serial (R82). -/
def adlerUpdate (r : Word) (bs : List Byte) : Word := bs.foldl adlerByte r

/-- The exact sums of the informative deferred-modulus datapath over one block (R82): `s1 <- s1 + b; s2 <- s2 + s1`. -/
def adlerSums (s1 s2 : Nat) : List Byte → Nat × Nat
  | [] => (s1, s2)
  | b :: rest => adlerSums (s1 + b.toNat) (s2 + (s1 + b.toNat)) rest

/-- One correction round `(x & 0xFFFF) + 15 * (x >> 16)` (R82). -/
def adlerRound (x : Nat) : Nat := x % 65536 + 15 * (x / 65536)

/-- The final conditional subtraction, at 65521 or more (R83). -/
def adlerFinal (x : Nat) : Nat := if adlerMod ≤ x then x - adlerMod else x

/-- The deferred-modulus datapath on one block of at most 4096 bytes (R82). Informative: ENCODE uses `adlerUpdate`. -/
def adlerBlockUpdate (r : Word) (bs : List Byte) : Word :=
  let sums := adlerSums (adlerLow r) (adlerHigh r) bs
  adlerPack (adlerFinal (adlerRound sums.1)) (adlerFinal (adlerRound (adlerRound sums.2)))

/-- The seed INIT writes (10_state.md R19, R33): 1 for ZLIB, else 0. -/
def crcSeed : Format → Word
  | .gzip => 0#32
  | .zlib => 1#32
  | .deflate => 0#32

/-- Which engine runs over a chunk (R84): CRC-32 for GZIP, Adler-32 for ZLIB, none for DEFLATE. -/
def checksum (f : Format) (r : Word) (bs : List Byte) : Word :=
  match f with
  | .gzip => crcUpdate r bs
  | .zlib => adlerUpdate r bs
  | .deflate => r

end Sys2Proof.Machine
end

