-- ==== Sys2Proof/Machine/BitQueue.lean ====
section
/-! DEFINITION. The bit output queue (41_bit_queue.md R63 to R73). -/

namespace Sys2Proof.Machine

/-- A field to enqueue: the low `width` bits of `value` (R64). -/
structure Field where
  value : Word
  width : Nat
  deriving DecidableEq, Repr

/-- `OutByte(b)` (R63). -/
def outByte (b : Byte) (s : State) : Flow :=
  if s.work.cursor = s.work.ocap then .overflow s else .run (s.writeOut b)

/-- `OutByte` of each byte of a list, in order (the loop of R71 and R72). -/
def outBytes : List Byte → State → Flow
  | [], s => .run s
  | b :: rest, s => (outByte b s).bind (outBytes rest)

/-- The loop of ENQUEUE (R64): complete bytes leave the queue. At most 31 bits are held (10_state.md R22), so three turns
empty it of complete bytes (log 19). -/
def drain : Nat → State → Flow
  | 0, s => .run s
  | k + 1, s =>
    if s.ctx.bitCount.toNat < 8 then .run s
    else (outByte (s.ctx.bitQueue.setWidth 8) s).bind fun s =>
      drain k (s.withQueue (s.ctx.bitQueue >>> 8) (s.ctx.bitCount - 8#5))

/-- `ENQUEUE(v, n)` (R64). A call that breaks the precondition of R65, or that finds more than the 7 pending bits of
10_state.md R22, is refused (log 12). -/
def enqueue (f : Field) (s : State) : Flow :=
  if maxEnqueue < f.width ∨ 2 ^ f.width ≤ f.value.toNat then .refused .enqueueOutOfRange
  else if 7 < s.ctx.bitCount.toNat then .refused .bitQueueNotDrained
  else drain 3 (s.withQueue (s.ctx.bitQueue ||| (f.value <<< s.ctx.bitCount.toNat))
    (s.ctx.bitCount + BitVec.ofNat 5 f.width))

/-- `FLUSH_TO_BYTE()` (R66): pad to a byte boundary. -/
def flushToByte (s : State) : Flow :=
  ((if 0 < s.ctx.bitCount.toNat then outByte (s.ctx.bitQueue.setWidth 8) s else .run s)).bind fun s =>
    .run (s.withQueue 0#32 0#5)

/-- The raw writers write whole bytes to OUT, and are called with an empty queue only; another call is refused (R67,
log 12). -/
def writeRawBytes (bs : List Byte) (s : State) : Flow :=
  if s.ctx.bitCount = 0#5 then outBytes bs s else .refused .rawWriterUnaligned

/-- The bytes of a 16-bit value, least significant first (R68). -/
def bytes16LE (v : BitVec 16) : List Byte := [v.extractLsb' 0 8, v.extractLsb' 8 8]

/-- The bytes of a 32-bit value, least significant first (R69). -/
def bytes32LE (v : Word) : List Byte :=
  [v.extractLsb' 0 8, v.extractLsb' 8 8, v.extractLsb' 16 8, v.extractLsb' 24 8]

/-- The bytes of a 32-bit value, most significant first (R70). -/
def bytes32BE (v : Word) : List Byte :=
  [v.extractLsb' 24 8, v.extractLsb' 16 8, v.extractLsb' 8 8, v.extractLsb' 0 8]

/-- `WRITE_U16_LE(v)` (R68). -/
def writeU16LE (v : BitVec 16) (s : State) : Flow := writeRawBytes (bytes16LE v) s

/-- `WRITE_U32_LE(v)` (R69). -/
def writeU32LE (v : Word) (s : State) : Flow := writeRawBytes (bytes32LE v) s

/-- `WRITE_U32_BE(v)` (R70). -/
def writeU32BE (v : Word) (s : State) : Flow := writeRawBytes (bytes32BE v) s

/-- `WRITE_RAW(i, n)` (R71): n bytes of the chunk unchanged; `i + n <= ILEN`. -/
def writeRaw (inp : List Byte) (i n : Nat) (s : State) : Flow :=
  match inBytes inp i n with
  | none => .stopped .readOutsideInput
  | some bs => writeRawBytes bs s

/-- `WRITE_BYTES(s)` (R72): a constant byte sequence. -/
def writeBytes (bs : List Byte) (s : State) : Flow := writeRawBytes bs s

end Sys2Proof.Machine
end

