-- ==== Sys2Proof/Machine/Huffman.lean ====
section
/-! DEFINITION. The fixed Huffman tables and the emission of codes (43_fixed_huffman.md R85 to R94). -/

namespace Sys2Proof.Machine

/-- `rev_n(c)`: bit i of the result is bit n-1-i of c (00_scope.md R11). -/
def revBits : Nat → Nat → Nat
  | 0, _ => 0
  | n + 1, c => (c % 2) * 2 ^ n + revBits n (c / 2)

/-- The fixed literal/length code of a symbol 0 .. 287 (R86): the code and its number of bits. UNVERIFIED, log 18 (K7). -/
def symbolCode (v : Nat) : Nat × Nat :=
  if v ≤ 143 then (0x30 + v, 8)
  else if v ≤ 255 then (0x190 + (v - 144), 9)
  else if v ≤ 279 then (v - 256, 7)
  else (0xC0 + (v - 280), 8)

/-- R85: `rev_n(c) | (extra << n)`, of width n plus the number of extra bits. -/
def codeField (c n extra ebits : Nat) : Field :=
  ⟨BitVec.ofNat 32 (revBits n c ||| (extra <<< n)), n + ebits⟩

/-- `LIT_FIELD(b)` (R87). -/
def litField (b : Byte) : Field :=
  let code := symbolCode b.toNat
  codeField code.1 code.2 0 0

/-- A row of the length table (R88) or of the distance table (R90): the symbol or code, the number of extra bits, and the
first and last length or distance it stands for. -/
structure CodeRow where
  symbol : Nat
  ebits : Nat
  base : Nat
  last : Nat
  deriving DecidableEq, Repr

/-- The length table (R88). UNVERIFIED, log 18 (K9). -/
def lengthRows : List CodeRow :=
  [⟨257, 0, 3, 3⟩, ⟨258, 0, 4, 4⟩, ⟨259, 0, 5, 5⟩, ⟨260, 0, 6, 6⟩, ⟨261, 0, 7, 7⟩, ⟨262, 0, 8, 8⟩,
   ⟨263, 0, 9, 9⟩, ⟨264, 0, 10, 10⟩, ⟨265, 1, 11, 12⟩, ⟨266, 1, 13, 14⟩, ⟨267, 1, 15, 16⟩,
   ⟨268, 1, 17, 18⟩, ⟨269, 2, 19, 22⟩, ⟨270, 2, 23, 26⟩, ⟨271, 2, 27, 30⟩, ⟨272, 2, 31, 34⟩] ++
  [⟨273, 3, 35, 42⟩, ⟨274, 3, 43, 50⟩, ⟨275, 3, 51, 58⟩, ⟨276, 3, 59, 66⟩, ⟨277, 4, 67, 82⟩,
   ⟨278, 4, 83, 98⟩, ⟨279, 4, 99, 114⟩, ⟨280, 4, 115, 130⟩, ⟨281, 5, 131, 162⟩, ⟨282, 5, 163, 194⟩,
   ⟨283, 5, 195, 226⟩, ⟨284, 5, 227, 257⟩, ⟨285, 0, 258, 258⟩]

/-- The distance table (R90). UNVERIFIED, log 18 (K10). -/
def distanceRows : List CodeRow :=
  [⟨0, 0, 1, 1⟩, ⟨1, 0, 2, 2⟩, ⟨2, 0, 3, 3⟩, ⟨3, 0, 4, 4⟩, ⟨4, 1, 5, 6⟩, ⟨5, 1, 7, 8⟩, ⟨6, 2, 9, 12⟩,
   ⟨7, 2, 13, 16⟩, ⟨8, 3, 17, 24⟩, ⟨9, 3, 25, 32⟩, ⟨10, 4, 33, 48⟩, ⟨11, 4, 49, 64⟩,
   ⟨12, 5, 65, 96⟩, ⟨13, 5, 97, 128⟩, ⟨14, 6, 129, 192⟩, ⟨15, 6, 193, 256⟩] ++
  [⟨16, 7, 257, 384⟩, ⟨17, 7, 385, 512⟩, ⟨18, 8, 513, 768⟩, ⟨19, 8, 769, 1024⟩,
   ⟨20, 9, 1025, 1536⟩, ⟨21, 9, 1537, 2048⟩, ⟨22, 10, 2049, 3072⟩, ⟨23, 10, 3073, 4096⟩,
   ⟨24, 11, 4097, 6144⟩, ⟨25, 11, 6145, 8192⟩, ⟨26, 12, 8193, 12288⟩, ⟨27, 12, 12289, 16384⟩,
   ⟨28, 13, 16385, 24576⟩, ⟨29, 13, 24577, 32768⟩]

/-- The row of a table whose lengths or distances hold a value. -/
def rowFor (rows : List CodeRow) (x : Nat) : Option CodeRow :=
  rows.find? fun r => decide (r.base ≤ x) && decide (x ≤ r.last)

/-- `LEN_FIELD(L)` (R89), for the lengths the table holds (3 .. 258; 3 is defined and never asked for). -/
def lenField (len : Nat) : Option Field :=
  (rowFor lengthRows len).map fun r =>
    let code := symbolCode r.symbol
    codeField code.1 code.2 (len - r.base) r.ebits

/-- `DIST_FIELD(D)` (R91), for D in 1 .. 32768: the fixed distance code of d is d itself, 5 bits (R90). -/
def distField (dist : Nat) : Option Field :=
  (rowFor distanceRows dist).map fun r => codeField r.symbol 5 (dist - r.base) r.ebits

/-- `EMIT_LIT(b)` (R92). -/
def emitLit (b : Byte) (s : State) : Flow := enqueue (litField b) s

/-- `EMIT_EOB()` (R93): symbol 256, code 0b0000000. -/
def emitEob (s : State) : Flow := enqueue ⟨0#32, 7⟩ s

/-- `EMIT_MATCH(L, D)` (R94): the length field, then the distance field. A length or distance without a field is refused
(93 U21, log 12). -/
def emitMatch (len dist : Nat) (s : State) : Flow :=
  match lenField len, distField dist with
  | none, _ => .refused .noLengthCode
  | _, none => .refused .noDistanceCode
  | some lf, some df => (enqueue lf s).bind (enqueue df)

end Sys2Proof.Machine
end

