-- ==== Sys2Proof/Machine/Blocks.lean ====
section
/-! DEFINITION. The block and stream state machine (45_block_state_machine.md R111 to R121). `more` is the spec's `m`:
true is 1. -/

namespace Sys2Proof.Machine

/-- The 3-bit prefix `BFINAL | BTYPE << 1` of a deflate block (R111): BTYPE 0 is stored, 1 is fixed Huffman. -/
def blockHeader (final : Bool) (btype : Nat) : Field :=
  ⟨BitVec.ofNat 32 (final.toNat ||| (btype <<< 1)), 3⟩

/-- BTYPE of a stored block (R111). -/
def btypeStored : Nat := 0

/-- BTYPE of a fixed-Huffman block (R111). -/
def btypeFixed : Nat := 1

/-- `OPEN_FIXED(m)` (R112). -/
def openFixed (more : Bool) (s : State) : Flow :=
  if more then enqueue (blockHeader false btypeFixed) (s.withPhase .fixed)
  else enqueue (blockHeader true btypeFixed) (s.withPhase .last)

/-- `MATCH_OPEN()` (R113). -/
def matchOpen (s : State) : Flow :=
  if s.ctx.phase = .eob then openFixed true s else .run s

/-- One turn of the loop of STORED (R115): the stored block of `in[i .. i+c-1]`. -/
def storedPiece (inp : List Byte) (i c : Nat) (final : Bool) (s : State) : Flow :=
  ((if s.ctx.phase = .eob then .run s else emitEob s)).bind fun s =>
    (enqueue (blockHeader final btypeStored) (s.withPhase (if final then .done else .eob))).bind fun s =>
      (flushToByte s).bind fun s =>
        (writeU16LE (BitVec.ofNat 16 c) s).bind fun s =>
          (writeU16LE (~~~ (BitVec.ofNat 16 c)) s).bind fun s =>
            writeRaw inp i c s

/-- The loop of STORED (R115) with `rem` bytes left from offset `i`; each turn takes at least one of them, so `rem + 1`
turns are enough (log 19). -/
def storedLoop (inp : List Byte) (more : Bool) : Nat → Nat → Nat → State → Flow
  | 0, _, _, s => .run s
  | k + 1, i, rem, s =>
    let c := min rem storedMax
    let left := rem - c
    (storedPiece inp i c (!more && decide (left = 0)) s).bind fun s =>
      if left = 0 then .run s else storedLoop inp more k (i + c) left s

/-- `STORED(i, n, m)` (R115). -/
def stored (inp : List Byte) (i n : Nat) (more : Bool) (s : State) : Flow :=
  storedLoop inp more (n + 1) i n s

/-- EMIT_LIT of each byte in order (the loop of R116). -/
def emitLits : List Byte → State → Flow
  | [], s => .run s
  | b :: rest, s => (emitLit b s).bind (emitLits rest)

/-- The block HUFF_LITS sends its literals in (R116): the open one, a new one, or, for the last run of the stream, a new
final one after the open one is closed. -/
def huffOpen (more : Bool) (s : State) : Flow :=
  if s.ctx.phase = .eob then openFixed more s
  else if more then .run s
  else (emitEob s).bind fun s => openFixed false (s.withPhase .eob)

/-- `HUFF_LITS(i, n, m)` (R116). -/
def huffLits (inp : List Byte) (i n : Nat) (more : Bool) (s : State) : Flow :=
  match inBytes inp i n with
  | none => .stopped .readOutsideInput
  | some bs => (huffOpen more s).bind (emitLits bs)

/-- `FLUSH_LITS(i, n, b9, m)` (R117). -/
def flushLits (inp : List Byte) (i n b9 : Nat) (more : Bool) (s : State) : Flow :=
  if bit9Threshold ≤ b9 then stored inp i n more s else huffLits inp i n more s

end Sys2Proof.Machine
end

