-- ==== Sys2Proof/Machine/MatchFinder.lean ====
section
/-! DEFINITION. The LZ77 match finder (44_match_finder.md R95 to R110). It runs inside ENCODE at level 1 only (R95); `inp`
is the chunk. -/

namespace Sys2Proof.Machine

/-- `HASH(w)` (R96): `(((w << 19) + (w << 6) - w) mod 2^32) >> (32 - 13)`. -/
def hashWord (w : Word) : BitVec 13 := ((((w <<< 19) + (w <<< 6) - w) >>> 19)).setWidth 13

/-- The candidate a slot names (R98). -/
inductive Candidate
  | reject
  /-- The distance D and the chunk offset c of the candidate. -/
  | found (dist offset : Nat)
  /-- The slot is not earlier in the stream, which R99 excludes. -/
  | notInThePast
  deriving DecidableEq, Repr

/-- `CANDIDATE(word, old)` (R98) at absolute position `abs` and chunk offset `pos`. The first test, the value and the window
and chunk bounds are in the spec's order; a slot not before `abs` (excluded by R99) has no distance (log 13). -/
def candidate (word : Word) (old : Option Slot) (abs pos : Nat) : Candidate :=
  match old with
  | none => .reject
  | some slot =>
    if slot.value ≠ word then .reject
    else if abs ≤ slot.position.toNat then .notInThePast
    else
      let d := abs - slot.position.toNat - 1
      if window ≤ d then .reject
      else if pos ≤ d then .reject
      else .found (d + 1) (pos - 1 - d)

/-- The loop of EXTEND (R100): how many of the first k bytes of two suffixes of the chunk agree before the first that does
not. -/
def agreeing : Nat → List Byte → List Byte → Nat
  | 0, _, _ => 0
  | k + 1, a :: as, b :: bs => if a = b then agreeing k as bs + 1 else 0
  | _ + 1, _, _ => 0

/-- `EXTEND(c)` (R100): the match length, 4 .. 258. -/
def extend (inp : List Byte) (pos c : Nat) : Nat :=
  minWord + agreeing (min maxMatch (inp.length - pos) - minWord)
    (inp.drop (pos + minWord)) (inp.drop (c + minWord))

/-- The short-match refusal (R101). -/
def shortRefused (bit9 mlen : Nat) : Bool := decide (bit9Threshold ≤ bit9) && decide (mlen < shortMatch)

/-- The cost check (R102): reject when `DIST_BITS(D) + LEN_BITS(mlen) + 8 >= 8 * mlen + bit9`. -/
def costRefused (distBits lenBits mlen bit9 : Nat) : Bool :=
  decide (8 * mlen + bit9 ≤ distBits + lenBits + costSlack)

/-- `LITERAL_STEP()` (R103). -/
def literalStep (inp : List Byte) (s : State) : Flow :=
  match inp[s.work.pos.toNat]? with
  | none => .stopped .readOutsideInput
  | some b =>
    .run (s.withScan (s.work.pos + 1#32) (s.work.plit + 1#32)
      (if nineBitLiteral ≤ b.toNat then s.work.bit9 + 1#32 else s.work.bit9))

/-- The flush of the pending literal run, if any (R104, R106): FLUSH_LITS of the `plit` bytes before `pos`. -/
def flushPending (inp : List Byte) (more : Bool) (s : State) : Flow :=
  if s.work.plit = 0#32 then .run s
  else flushLits inp (s.work.pos.toNat - s.work.plit.toNat) s.work.plit.toNat s.work.bit9.toNat more s

/-- `ACCEPT_MATCH(D, mlen)` (R104). -/
def acceptMatch (inp : List Byte) (dist mlen : Nat) (s : State) : Flow :=
  (flushPending inp true s).bind fun s =>
    (matchOpen (s.withScan s.work.pos 0#32 s.work.bit9)).bind fun s =>
      (emitMatch mlen dist s).bind fun s =>
        .run (s.withScan (s.work.pos + BitVec.ofNat 32 mlen) s.work.plit 0#32)

/-- What the scan does with a candidate (R106): the short-match refusal, the cost check, acceptance. -/
def judge (inp : List Byte) (dist offset : Nat) (s : State) : Flow :=
  let mlen := extend inp s.work.pos.toNat offset
  if shortRefused s.work.bit9.toNat mlen then literalStep inp s
  else
    match distField dist, lenField mlen with
    | none, _ => .refused .noDistanceCode
    | _, none => .refused .noLengthCode
    | some df, some lf =>
      if costRefused df.width lf.width mlen s.work.bit9.toNat then literalStep inp s
      else acceptMatch inp dist mlen s

/-- `PROBE(pos)` on the table (R97): the slot of the word's hash is read, then overwritten with the absolute position and
the word, whatever is decided afterwards. -/
def probe (word : Word) (s : State) : Option Slot × State :=
  (Table.slot s.ctx.table (hashWord word),
    s.withSlot (hashWord word) ⟨s.work.base + s.work.pos.setWidth 64, word⟩)

/-- One turn of the main loop of SCAN (R106). -/
def scanStep (inp : List Byte) (s : State) : Flow :=
  match readWord inp s.work.pos.toNat with
  | none => .stopped .readOutsideInput
  | some word =>
    let old := (probe word s).1
    let s' := (probe word s).2
    match candidate word old (s.work.base.toNat + s.work.pos.toNat) s.work.pos.toNat with
    | .reject => literalStep inp s'
    | .notInThePast => .refused .slotNotInThePast
    | .found dist offset => judge inp dist offset s'

/-- The main loop of SCAN (R106): while at least 4 bytes are left. Each turn advances `pos`, so ILEN turns are enough
(log 19). -/
def scanLoop (inp : List Byte) : Nat → State → Flow
  | 0, s => .run s
  | k + 1, s =>
    if minWord ≤ inp.length - s.work.pos.toNat then (scanStep inp s).bind (scanLoop inp k) else .run s

/-- The tail of SCAN (R106, R107): the last bytes are literals, without a probe. -/
def tailLoop (inp : List Byte) : Nat → State → Flow
  | 0, s => .run s
  | k + 1, s =>
    if s.work.pos.toNat < inp.length then (literalStep inp s).bind (tailLoop inp k) else .run s

/-- `SCAN()` (R106), with the final flush of R108 under the command's MORE. -/
def scan (inp : List Byte) (s : State) : Flow :=
  (scanLoop inp inp.length s).bind fun s =>
    (tailLoop inp inp.length s).bind fun s => flushPending inp s.work.more s

end Sys2Proof.Machine
end

