-- ==== Sys2Proof/Machine/Breach.lean ====
section
/-! DEFINITION. An ENCODE whose host breaks its duties (20_memory.md R51, 70_reset_and_hazards.md R153; 93 U11): the bytes
it emits and the context after it are unspecified (log 20). -/

namespace Sys2Proof.Machine

/-- A window of n bytes of OUT, each a free value (R51, 93 U11; log 20). -/
def freeWindow (draw n : Nat) : Memory := (List.range n).map fun i => (i, Config.freeByte draw i)

/-- How many bytes an ENCODE under a breach emits when it does not overflow: any number that OCAP has room for (R51;
20_memory.md R39; log 20). -/
def freeCount (draw : Nat) (ocap : Word) : Word :=
  BitVec.ofNat 32 (Config.freeLength draw % (ocap.toNat + 1))

/-- The level of a context: an open block is fixed-Huffman, which level 0 never opens (45_block_state_machine.md R121). -/
def legalLevel (c : Context) : BitVec 1 := if c.phase.blockClosed then c.level else 1#1

/-- The checksum register of a context: 0 for DEFLATE (10_state.md R19, 42_checksums.md R84), both halves below 65521 for
ZLIB (42_checksums.md R80). -/
def legalCrc (c : Context) : Word :=
  match c.format with
  | .gzip => c.crc
  | .zlib => adlerPack (adlerLow c.crc % adlerMod) (adlerHigh c.crc % adlerMod)
  | .deflate => 0#32

/-- The length so far of a context: 0 before the first ENCODE (10_state.md R33). -/
def legalInputLen (c : Context) : Position := if c.phase = .init then 0#64 else c.inputLen

/-- The number of pending bits of a context: at most 7, and 0 while no block is open (10_state.md R22,
45_block_state_machine.md R120). -/
def legalBitCount (c : Context) : BitVec 5 := if c.phase.blockClosed then 0#5 else c.bitCount &&& 7#5

/-- A slot of a context: it stands at the hash of its value, four bytes of the stream so far (10_state.md R24,
44_match_finder.md R99). -/
def legalSlot (inputLen : Position) (e : Nat × Slot) : Bool :=
  decide (e.1 = (hashWord e.2.value).toNat) && decide (e.2.position.toNat + 4 ≤ inputLen.toNat)

/-- The table of a context: empty at level 0 (44_match_finder.md R95, 92 D38), only slots of the stream so far. -/
def legalTable (c : Context) : Table :=
  if legalLevel c = 0#1 then [] else c.table.filter (legalSlot (legalInputLen c))

/-- A context with every register brought to a value that the rules let it hold between commands of a core that is not
faulted. A context in which every register holds such a value is left as it is. -/
def legalContext (c : Context) : Context where
  phase := c.phase
  level := legalLevel c
  format := c.format
  crc := legalCrc c
  inputLen := legalInputLen c
  bitQueue := BitVec.ofNat 32 (c.bitQueue.toNat % 2 ^ (legalBitCount c).toNat)
  bitCount := legalBitCount c
  table := legalTable c

/-- An ENCODE under a breach that ends in OutputOverflow: OCAP bytes stand in OUT (41_bit_queue.md R63), each a free value,
and the context is unspecified (60_exceptions.md R139). -/
def breachOverflows (s : State) : State :=
  takeOverflow { s with out := freeWindow s.draws s.operands.ocap.toNat }

/-- An ENCODE under a breach that ends in OK: a free number of free bytes, and a free context (R51; log 20). -/
def breachCompletes (s : State) : State :=
  complete
    { s with
      ctx := legalContext (freeContext s.draws)
      out := freeWindow s.draws (freeCount s.draws s.operands.ocap).toNat
      work := { s.work with cursor := freeCount s.draws s.operands.ocap } }

/-- An ENCODE that passes its pre-checks while the host breaks a duty (R51). Past the pre-checks a command ends in OK or in
OutputOverflow (60_exceptions.md R137): which of the two is a free value. Nothing of IN and nothing of the context before
goes into what it leaves. -/
def breachedEncode (s : State) : State :=
  if Config.freeOverflows s.draws then breachOverflows s else breachCompletes s

end Sys2Proof.Machine
end

