-- ==== Sys2Proof/Machine/Framing.lean ====
section
/-! DEFINITION. Container framing (46_framing.md R122 to R129). -/

namespace Sys2Proof.Machine

/-- The container header of a format (R122, R123, R124). -/
def headerBytes : Format → List Byte
  | .gzip => [0x1F#8, 0x8B#8, 0x08#8, 0x00#8, 0x00#8, 0x00#8, 0x00#8, 0x00#8, 0x04#8, 0x03#8]
  | .zlib => [0x78#8, 0x01#8]
  | .deflate => []

/-- The container trailer of a format (R126), of the checksum and the input length. -/
def trailerBytes (f : Format) (crc : Word) (inputLen : Position) : List Byte :=
  match f with
  | .gzip => bytes32LE crc ++ bytes32LE (inputLen.setWidth 32)
  | .zlib => bytes32BE crc
  | .deflate => []

/-- `HEADER_PHASE()` (R125). -/
def headerPhase (s : State) : Flow :=
  if s.ctx.phase = .init then
    (match s.ctx.format with
      | .gzip => writeBytes (headerBytes .gzip) s
      | .zlib => writeBytes (headerBytes .zlib) s
      | .deflate => .run s).bind fun s => .run (s.withPhase .eob)
  else .run s

/-- `TRAILER()` (R126). -/
def trailer (s : State) : Flow :=
  (match s.ctx.format with
    | .gzip => (writeU32LE s.ctx.crc s).bind fun s => writeU32LE (s.ctx.inputLen.setWidth 32) s
    | .zlib => writeU32BE s.ctx.crc s
    | .deflate => .run s).bind fun s => .run (s.withPhase .ended)

end Sys2Proof.Machine
end

