-- ==== Sys2Proof/Machine/Commands.lean ====
section
/-! DEFINITION. The meanings of the three commands (47_commands.md R130 to R133), each with its pre-checks in the order of
60_exceptions.md R137. A fault of the spec is a next state (R138). -/

namespace Sys2Proof.Machine

/-- The context after a successful INIT (10_state.md R33, 47_commands.md R131): every slot of the table empty, `state`
INIT. -/
def initContext (level : BitVec 1) (format : Format) : Context where
  phase := .init
  level := level
  format := format
  crc := crcSeed format
  inputLen := 0#64
  bitQueue := 0#32
  bitCount := 0#5
  table := []

/-- `INIT LEVEL, FORMAT` (R131). -/
def execInit (level : BitVec 4) (format : BitVec 2) (s : State) : Host.Outcome State Fault Refusal :=
  if s.faulted then .next (refuseFaulted s)
  else if 1 < level.toNat then .next (takeFault .badLevel s)
  else
    match formatOfField format with
    | none => .next (takeFault .badFormat s)
    | some f => .next (completeInit { s with ctx := initContext (level.setWidth 1) f })

/-- The checksum of the whole chunk (R132, 42_checksums.md R84). -/
def checksumPhase (inp : List Byte) (s : State) : State :=
  s.withCrc (checksum s.ctx.format s.ctx.crc inp)

/-- The deflate data of an ENCODE (R132): stored blocks at level 0, the scan at level 1. -/
def dataPhase (inp : List Byte) (s : State) : Flow :=
  if s.ctx.level = 0#1 then
    if 0 < inp.length then stored inp 0 inp.length s.work.more s else .run s
  else scan inp s

/-- The body of ENCODE after its pre-checks (R132). -/
def encodeBody (more : Bool) (s : State) : Flow :=
  let inp := chunkOf s.operands
  (headerPhase (beginEncode more s)).bind fun s =>
    (dataPhase inp (checksumPhase inp s)).bind fun s =>
      .run (s.withInputLen (s.ctx.inputLen + s.work.ilen.setWidth 64))

/-- `ENCODE MORE, IN` (R132). Past the pre-checks, what it does is unspecified when the host breaks a duty
(20_memory.md R51). -/
def execEncode (more : Bool) (s : State) : Host.Outcome State Fault Refusal :=
  if s.faulted then .next (refuseFaulted s)
  else if s.ctx.phase = .uninit then .next (takeFault .notInitialized s)
  else if s.ctx.phase = .last ∨ s.ctx.phase = .done ∨ s.ctx.phase = .ended then
    .next (takeFault .encodeAfterClose s)
  else if 2 ^ 64 ≤ s.ctx.inputLen.toNat + s.operands.ilen.toNat then .next (takeFault .streamTooLong s)
  else if breached s.operands then .next (breachedEncode s)
  else (encodeBody more s).outcome

/-- FINISH closes the open block, if any (R133). -/
def closeBlock (s : State) : Flow :=
  if s.ctx.phase = .fixed then (emitEob s).bind fun s => .run (s.withPhase .eob)
  else if s.ctx.phase = .last then (emitEob s).bind fun s => .run (s.withPhase .done)
  else .run s

/-- FINISH sends the final empty stored block when no final block was sent (R133). -/
def finalEmptyBlock (s : State) : Flow :=
  if s.ctx.phase = .eob then
    (enqueue (blockHeader true btypeStored) s).bind fun s =>
      (flushToByte s).bind fun s =>
        (writeU16LE 0x0000#16 s).bind fun s =>
          (writeU16LE 0xFFFF#16 s).bind fun s => .run (s.withPhase .done)
  else .run s

/-- The body of FINISH after its pre-checks (R133). -/
def finishBody (s : State) : Flow :=
  (headerPhase (beginFinish s)).bind fun s =>
    (closeBlock s).bind fun s =>
      (finalEmptyBlock s).bind fun s =>
        (flushToByte s).bind trailer

/-- `FINISH` (R133). -/
def execFinish (s : State) : Host.Outcome State Fault Refusal :=
  if s.faulted then .next (refuseFaulted s)
  else if s.ctx.phase = .uninit then .next (takeFault .notInitialized s)
  else if s.ctx.phase = .ended then .next (takeFault .finishAfterEnd s)
  else (finishBody s).outcome

end Sys2Proof.Machine
end

