-- ==== Sys2Proof/Machine/Dispatch.lean ====
section
/-! DEFINITION. One arm per command (opcode_table.json), each the direct call of its meaning. -/

namespace Sys2Proof.Machine

def exec (i : Instr) (s : State) : Host.Outcome State Fault Refusal :=
  match i with
  | .init level format => Sys2Proof.Machine.execInit level format s
  | .encode more => Sys2Proof.Machine.execEncode more s
  | .finish => Sys2Proof.Machine.execFinish s

end Sys2Proof.Machine
end

