-- ==== Sys2Proof/Machine/Port.lean ====
section
/-! DEFINITION. The command port: how a command the host issues is delivered, decoded and run (30_encoding.md R52, R56;
60_exceptions.md R137), and how the host's turn is taken (70_reset_and_hazards.md R149, R152). -/

namespace Sys2Proof.Machine

/-- The command's operands are handed over with the word (R56): IN, ILEN, OCAP, and a fresh OUT window, in which the core
has written nothing (20_memory.md R34, "supplied fresh per call"). -/
def acceptOperands (o : Operands) (s : State) : State := { s with operands := o, out := [] }

/-- The first two pre-checks, for every word (60_exceptions.md R137): a faulted core refuses it, and a word that spells no
command faults IllegalCommand; any other word runs its command. -/
def runWord (w : Word) (s : State) : Host.Outcome State Fault Refusal :=
  match decode w with
  | .command i => exec i s
  | .illegal _ => .next (if s.faulted then refuseFaulted s else takeFault .illegalCommand s)

/-- One command, from its delivery to its response (R130). -/
def runCommand (c : HostCommand) (s : State) : Host.Outcome State Fault Refusal :=
  runWord c.word (acceptOperands c.operands s)

/-- The host's next turn: nothing (the core is idle and keeps its state, 60_exceptions.md R148), hardware reset (R149), or
one command run to completion (R130). -/
def serveHost (s : State) : Host.Outcome State Fault Refusal :=
  match s.host with
  | [] => .next s
  | .hardwareReset :: rest => .next (hardwareReset { s with host := rest })
  | .command c :: rest => runCommand c { s with host := rest }

/-- The operands a command has when none are given: an empty chunk, and the OCAP that 30_encoding.md R61 gives a command
written without one (DESIGN CHOICE, log 7). -/
def defaultOperands : Operands where
  input := []
  ilen := 0#32
  ocap := 0xFFFFFFFF#32
  breach := none

/-- The state in which the host issues one command next, before what it had to do. -/
def State.issue (s : State) (c : HostCommand) : State := { s with host := .command c :: s.host }

end Sys2Proof.Machine
end

