-- ==== Sys2Proof/Machine/Step.lean ====
section
/-! DEFINITION. One step of the machine, and where it takes its next instruction from. -/

namespace Sys2Proof.Machine

/-- One step: the host's next turn is served; a command is one atomic step (92 D1, 47_commands.md R130). -/
def step (s : State) : Host.Outcome State Fault Refusal := Sys2Proof.Machine.serveHost s

/-- The state in which the next step runs the command word whose low `nbits` bits are those of `w`: the host issues it next,
with the operands of `defaultOperands` (log 7). -/
def State.withFetchWord (s : State) (nbits w : Nat) : State :=
  s.issue ⟨BitVec.ofNat 32 (w % 2 ^ nbits), defaultOperands⟩

end Sys2Proof.Machine
end

