-- ==== Sys2Proof/Safety.lean ====
section
/-! DEFINITION. What counts as a good state of the core (10_state.md, 45_block_state_machine.md R120), the pre-checks as a
table (60_exceptions.md R137), the bits a core has sent (20_memory.md R41), and what those bits stand for (46_framing.md
R128). The statements use these words; no step does. -/

namespace Sys2Proof.Machine

/-! ### The invariant between commands -/

/-- What holds of the context registers between commands of a core that is not faulted. -/
structure ContextOk (c : Context) : Prop where
  /-- R22: at most 7 bits are pending. -/
  queueShort : c.bitCount.toNat ≤ 7
  /-- R21: the bits of `bit_queue` at `bit_count` and above are 0. -/
  queueClean : c.bitQueue.toNat < 2 ^ c.bitCount.toNat
  /-- R22, R120: no bit is pending while no block is open. -/
  noPending : c.phase.blockClosed = true → c.bitCount = 0#5
  /-- R23: the table is in its canonical form. -/
  tableWf : Table.wf c.table
  /-- R24: a slot stands at the hash of its value. -/
  slotHash : ∀ e ∈ c.table, e.1 = (hashWord e.2.value).toNat
  /-- R24, R99: a slot was written for four bytes of the stream so far. -/
  slotPast : ∀ e ∈ c.table, e.2.position.toNat + 4 ≤ c.inputLen.toNat
  /-- 92 D38, R95: the table is written by level-1 streams only. -/
  levelZeroTable : c.level = 0#1 → c.table = []
  /-- R121: no fixed block is opened at level 0. -/
  levelZeroPhase : c.level = 0#1 → c.phase.blockClosed = true
  /-- R19, R84: `crc` keeps its seed 0 for DEFLATE. -/
  crcUnused : c.format = .deflate → c.crc = 0#32
  /-- R80: both halves of an Adler-32 accumulator are below 65521. -/
  adlerReduced : c.format = .zlib → adlerLow c.crc < 65521 ∧ adlerHigh c.crc < 65521
  /-- R33: no byte has been counted before the first ENCODE. -/
  initFresh : c.phase = .init → c.inputLen = 0#64

/-- The invariant of the machine: it holds at reset, and every step keeps it. -/
structure State.Inv (s : State) : Prop where
  /-- R120 is stated of a core that is not faulted; after an OutputOverflow the context is unspecified (R139). -/
  context : s.faulted = false → ContextOk s.ctx
  /-- R25, R135: the cause is 0 exactly when the core is not faulted. -/
  causeClear : s.faulted = false → s.faultCause = 0#4
  /-- R135: a recorded cause is one of the codes 1 .. 8. -/
  causeKnown : s.faulted = true → 1 ≤ s.faultCause.toNat ∧ s.faultCause.toNat ≤ 8
  /-- R23: the table is in its canonical form in every state. -/
  tableWf : Table.wf s.ctx.table
  /-- OUT is in its canonical form. -/
  outWf : Memory.wf s.out

/-! ### The pre-checks -/

/-- The pre-checks 3 to 8 of 60_exceptions.md R137, in their order: the first that fails, for a decoded command on a core
that is not faulted. -/
def firstFailure (i : Instr) (s : State) : Option Cause :=
  match i with
  | .init level format =>
    if 2 ≤ level.toNat then some .badLevel
    else if format = 3#2 then some .badFormat
    else none
  | .encode _ =>
    match s.ctx.phase with
    | .uninit => some .notInitialized
    | .last => some .encodeAfterClose
    | .done => some .encodeAfterClose
    | .ended => some .encodeAfterClose
    | .init => if 2 ^ 64 ≤ s.ctx.inputLen.toNat + s.operands.ilen.toNat then some .streamTooLong else none
    | .eob => if 2 ^ 64 ≤ s.ctx.inputLen.toNat + s.operands.ilen.toNat then some .streamTooLong else none
    | .fixed => if 2 ^ 64 ≤ s.ctx.inputLen.toNat + s.operands.ilen.toNat then some .streamTooLong else none
  | .finish =>
    match s.ctx.phase with
    | .uninit => some .notInitialized
    | .ended => some .finishAfterEnd
    | .init => none
    | .eob => none
    | .fixed => none
    | .last => none
    | .done => none

/-- The order of the phases of a stream (45_block_state_machine.md R119): EOB and FIXED toggle. -/
def Phase.rank : Phase → Nat
  | .uninit => 0
  | .init => 1
  | .eob => 2
  | .fixed => 2
  | .last => 3
  | .done => 4
  | .ended => 5

/-! ### Bytes and bits sent -/

/-- An OUT window in which exactly these bytes are written, from offset 0 (20_memory.md R39). -/
def windowOf (bs : List Byte) : Memory := (List.range bs.length).zip bs

/-- The bits of a byte in stream order, least significant first (20_memory.md R41). -/
def byteBits (b : Byte) : List Bool := (List.range 8).map b.getLsbD

/-- The bits of a list of bytes in stream order (20_memory.md R41). -/
def bitsOf (bs : List Byte) : List Bool := bs.flatMap byteBits

/-- The bits a field enqueues, first to be written first (41_bit_queue.md R64). -/
def fieldBits (f : Field) : List Bool := (List.range f.width).map f.value.getLsbD

/-- The pending bits, first to be written first (10_state.md R21). -/
def pendingBits (c : Context) : List Bool := (List.range c.bitCount.toNat).map c.bitQueue.getLsbD

/-- The bytes of OUT at offsets 0 .. cursor-1. -/
def sentBytes (s : State) : List Byte :=
  (List.range s.work.cursor.toNat).map fun i => (Memory.read s.out i).getD 0#8

/-- The bits this command has sent, and the bits still pending (20_memory.md R41). -/
def bitStream (s : State) : List Bool := bitsOf (sentBytes s) ++ pendingBits s.ctx

/-- The byte of up to 8 bits, the first bit lowest (20_memory.md R41). -/
def byteOfBits (bits : List Bool) : Byte :=
  BitVec.ofNat 8 (bits.foldr (fun b n => b.toNat + 2 * n) 0)

/-- Bits packed into bytes, the last byte padded with zero bits (41_bit_queue.md R66). -/
def packBits (bits : List Bool) : List Byte :=
  (List.range ((bits.length + 7) / 8)).map fun i => byteOfBits ((bits.drop (8 * i)).take 8)

/-! ### What the commands send -/

/-- The stored blocks of a chunk sent from a byte boundary (45_block_state_machine.md R115): prefix byte, LEN, NLEN, bytes;
at most 65535 bytes a block, and only the last block may be final. `fuel` bounds the number of blocks. -/
def storedBytes (more : Bool) : Nat → List Byte → List Byte
  | 0, _ => []
  | fuel + 1, bs =>
    if bs.length ≤ 65535 then
      (if more then 0x00#8 else 0x01#8) ::
        (bytes16LE (BitVec.ofNat 16 bs.length) ++ bytes16LE (~~~ (BitVec.ofNat 16 bs.length)) ++ bs)
    else
      0x00#8 :: (bytes16LE 0xFFFF#16 ++ bytes16LE 0x0000#16 ++ bs.take 65535 ++
        storedBytes more fuel (bs.drop 65535))

/-- The header an ENCODE or FINISH sends: the container's, when the stream has not started (46_framing.md R125). -/
def headerSent (c : Context) : List Byte := if c.phase = .init then headerBytes c.format else []

/-- The bytes FINISH closes the deflate data with, by the phase after the header (47_commands.md R133): the bits pending,
the end-of-block code of an open block, the final empty stored block when no final block was sent, and the padding. -/
def closingBytes (c : Context) : List Byte :=
  match c.phase with
  | .uninit => []
  | .init => packBits (pendingBits c ++ [true, false, false]) ++ [0x00#8, 0x00#8, 0xFF#8, 0xFF#8]
  | .eob => packBits (pendingBits c ++ [true, false, false]) ++ [0x00#8, 0x00#8, 0xFF#8, 0xFF#8]
  | .fixed =>
    packBits (pendingBits c ++ List.replicate 7 false ++ [true, false, false]) ++
      [0x00#8, 0x00#8, 0xFF#8, 0xFF#8]
  | .last => packBits (pendingBits c ++ List.replicate 7 false)
  | .done => packBits (pendingBits c)
  | .ended => []

/-- All that FINISH sends (47_commands.md R133). -/
def finishBytes (c : Context) : List Byte :=
  headerSent c ++ closingBytes c ++ trailerBytes c.format c.crc c.inputLen

/-- The length of a container's trailer (70_reset_and_hazards.md R157). -/
def trailerLength : Format → Nat
  | .gzip => 8
  | .zlib => 4
  | .deflate => 0

/-- The state a command that completes leaves, given the context it leaves and the bytes it has written (47_commands.md
R130, 10_state.md R26). -/
def completedState (s : State) (c : Context) (bs : List Byte) : State :=
  { s with
    ctx := c
    work := freeTransient s.draws
    out := windowOf bs
    response := some ⟨statusOk, BitVec.ofNat 32 bs.length⟩
    draws := s.draws + 1 }

/-- A state whose command has another output capacity. -/
def State.withOcap (s : State) (k : Word) : State :=
  { s with operands := { s.operands with ocap := k } }

/-! ### The match table and the chunk being scanned -/

/-- The match table agrees with the chunk up to offset `pos` (10_state.md R24, 44_match_finder.md R99, R100): a slot stands
at the hash of its value, was written earlier in the stream, and, where it was written in this chunk, holds the word
there. -/
def TableAgrees (inp : List Byte) (base pos : Nat) (t : Table) : Prop :=
  ∀ h x, Table.slot t h = some x →
    h = hashWord x.value ∧ x.position.toNat < base + pos ∧
      (base ≤ x.position.toNat → readWord inp (x.position.toNat - base) = some x.value)

/-- The scan takes a match of length `len` at distance `dist` at `pos`, where `word` stands (44_match_finder.md R98, R100 to
R102, R106): the slot of the word names a candidate, EXTEND gives `len` for it, it is not a match of fewer than 6 bytes
with the penalty counter at 52 or more, and its fields with 8 bits of slack cost fewer bits than its literals. -/
def MatchAccepted (inp : List Byte) (s : State) (word : Word) (dist len : Nat) : Prop :=
  ∃ offset df lf,
    candidate word (Table.slot s.ctx.table (hashWord word)) (s.work.base.toNat + s.work.pos.toNat) s.work.pos.toNat =
      .found dist offset ∧
    len = extend inp s.work.pos.toNat offset ∧ distField dist = some df ∧ lenField len = some lf ∧
    ¬ (52 ≤ s.work.bit9.toNat ∧ len < 6) ∧ df.width + lf.width + 8 < 8 * len + s.work.bit9.toNat

/-! ### What a deflate bit stream stands for -/

/-- The bytes a back-reference of length `len` at distance `dist` appends to `data` (43_fixed_huffman.md R94): one byte at a
time, so that it may overlap what it appends (44_match_finder.md R98). -/
def copyBack : Nat → Nat → List Byte → List Byte
  | 0, _, data => data
  | len + 1, dist, data => copyBack len dist (data ++ [(data[data.length - dist]?).getD 0#8])

/-- `DeflatePrefix bits phase data`: `bits` are the bits of deflate blocks, the first bit first, that leave the stream in
`phase` and stand for the bytes `data` (45_block_state_machine.md R111 to R118, 46_framing.md R128). -/
inductive DeflatePrefix : List Bool → Phase → List Byte → Prop
  /-- Nothing sent: ready for a block. -/
  | start : DeflatePrefix [] .eob []
  /-- R111, R112: prefix 010 opens a fixed-Huffman block that is not the last. -/
  | openFixed {bits : List Bool} {data : List Byte} (h : DeflatePrefix bits .eob data) :
      DeflatePrefix (bits ++ [false, true, false]) .fixed data
  /-- R111, R112: prefix 110 opens the last block, fixed-Huffman. -/
  | openLast {bits : List Bool} {data : List Byte} (h : DeflatePrefix bits .eob data) :
      DeflatePrefix (bits ++ [true, true, false]) .last data
  /-- R87, R92: a literal in the open block. -/
  | literal {bits : List Bool} {phase : Phase} {data : List Byte} (b : Byte) (h : DeflatePrefix bits phase data)
      (hopen : phase = .fixed ∨ phase = .last) :
      DeflatePrefix (bits ++ fieldBits (litField b)) phase (data ++ [b])
  /-- R94: a back-reference in the open block, at most as far back as the data goes. -/
  | backReference {bits : List Bool} {data : List Byte} {len dist : Nat} {lf df : Field}
      (h : DeflatePrefix bits .fixed data) (hl : lenField len = some lf) (hd : distField dist = some df)
      (hback : dist ≤ data.length) :
      DeflatePrefix (bits ++ fieldBits lf ++ fieldBits df) .fixed (copyBack len dist data)
  /-- R93, R114: symbol 256 closes a block that is not the last. -/
  | closeFixed {bits : List Bool} {data : List Byte} (h : DeflatePrefix bits .fixed data) :
      DeflatePrefix (bits ++ List.replicate 7 false) .eob data
  /-- R93, R114: symbol 256 closes the last block. -/
  | closeLast {bits : List Bool} {data : List Byte} (h : DeflatePrefix bits .last data) :
      DeflatePrefix (bits ++ List.replicate 7 false) .done data
  /-- R115: a stored block: prefix, zero bits up to a byte boundary, LEN, NLEN, the bytes. -/
  | stored {bits : List Bool} {data : List Byte} (final : Bool) (pad : Nat) (block : List Byte)
      (h : DeflatePrefix bits .eob data) (hlen : block.length ≤ 65535)
      (hpad : (bits.length + 3 + pad) % 8 = 0) (hshort : pad < 8) :
      DeflatePrefix
        (bits ++ [final, false, false] ++ List.replicate pad false ++
          bitsOf (bytes16LE (BitVec.ofNat 16 block.length) ++ bytes16LE (~~~ (BitVec.ofNat 16 block.length)) ++ block))
        (if final then .done else .eob) (data ++ block)

/-! ### A stream, command by command -/

/-- `Session f s sent data`: a stream of format `f` that INIT opened and ENCODE commands, each answered OK, have brought to
the state `s`; `sent` are the bytes of OUT of its commands in issue order (70_reset_and_hazards.md R154), and `data` the
bytes passed to ENCODE. -/
inductive Session (f : Format) : State → List Byte → List Byte → Prop
  /-- R131: INIT opens the stream. -/
  | opened {s t : State} {level : BitVec 4} (hs : s.faulted = false)
      (ht : exec (.init level (formatCode f)) s = .next t) (hok : t.response = some ⟨statusOk, 0#32⟩) :
      Session f t [] []
  /-- R132: one more chunk, the host keeping its duties (R153). -/
  | encoded {s t : State} {sent data : List Byte} {more : Bool} {o : Operands} {n : Word} (h : Session f s sent data)
      (hkept : breached o = false)
      (ht : exec (.encode more) (acceptOperands o s) = .next t) (hok : t.response = some ⟨statusOk, n⟩) :
      Session f t (sent ++ t.out.map Prod.snd) (data ++ chunkOf o)

end Sys2Proof.Machine
end

