-- ==== Sys2Proof/Certificates/Slice0/Obligations.lean ====
section
/-! DEFINITION. The statements for the provers, in the order of OBLIGATIONS.json. Each docstring names the rules of spec/ a
statement formalises. No statement rests on the value of `State.draws` or of a free value. A statement that rests on a
choice of the model names the log entry (notes/assumptions/). -/

open Sys2Proof Sys2Proof.Machine

/-! ### Encoding -/

/-- 95_test_vectors.md 2.1, V-DEC: a few command words and what they spell. -/
def Obligations.SampleWordsDecode : Prop :=
  decode 0x00000011#32 = .command (.init 1#4 0#2) ∧
  decode 0x00000101#32 = .command (.init 0#4 1#2) ∧
  decode 0x00000211#32 = .command (.init 1#4 2#2) ∧
  decode 0x000000F1#32 = .command (.init 15#4 0#2) ∧
  decode 0x00000301#32 = .command (.init 0#4 3#2) ∧
  decode 0x00000002#32 = .command (.encode false) ∧
  decode 0x00000012#32 = .command (.encode true) ∧
  decode 0x00000003#32 = .command .finish ∧
  decode 0x00000401#32 = .illegal .reservedBitSet ∧
  decode 0x00000022#32 = .illegal .reservedBitSet ∧
  decode 0x00000000#32 = .illegal .noSuchOpcode ∧
  decode 0xFFFFFFFF#32 = .illegal .noSuchOpcode

/-- R53 to R55, R58: every command, with every value of its fields, is the one command its word spells, and a word that
spells a command is that command's word. -/
def Obligations.DecodeAndEncodeAgree : Prop :=
  ∀ (i : Instr) (w : Word), decode w = .command i ↔ w = encode i

/-- R58: a word decodes by the row it matches; no word matches two rows; a word that matches none spells no command and
faults IllegalCommand. -/
def Obligations.DecodeFollowsOpcodeMap : Prop :=
  ∀ w : Word,
    (w &&& 0xFFFFFC0F#32 = 0x00000001#32 →
      decode w = .command (.init (w.extractLsb' 4 4) (w.extractLsb' 8 2))) ∧
    (w &&& 0xFFFFFFEF#32 = 0x00000002#32 → decode w = .command (.encode (w.getLsbD 4))) ∧
    (w &&& 0xFFFFFFFF#32 = 0x00000003#32 → decode w = .command .finish) ∧
    ¬ (w &&& 0xFFFFFC0F#32 = 0x00000001#32 ∧ w &&& 0xFFFFFFEF#32 = 0x00000002#32) ∧
    ¬ (w &&& 0xFFFFFC0F#32 = 0x00000001#32 ∧ w &&& 0xFFFFFFFF#32 = 0x00000003#32) ∧
    ¬ (w &&& 0xFFFFFFEF#32 = 0x00000002#32 ∧ w &&& 0xFFFFFFFF#32 = 0x00000003#32) ∧
    (w &&& 0xFFFFFC0F#32 ≠ 0x00000001#32 → w &&& 0xFFFFFFEF#32 ≠ 0x00000002#32 →
      w &&& 0xFFFFFFFF#32 ≠ 0x00000003#32 →
      (∀ i, decode w ≠ .command i) ∧
        ∀ s : State, s.faulted = false →
          ∃ t n, runWord w s = .next t ∧ t.faulted = true ∧ t.faultCause = 1#4 ∧ t.response = some ⟨1#4, n⟩)

/-! ### The step -/

/-- When the host's next turn is a command whose word decodes to `i`, the step is `exec i` on the state in which the turn is
taken, the command's operands are at the port and its OUT window is fresh. -/
def Obligations.StepRunsDecodedCommand : Prop :=
  ∀ (s : State) (c : HostCommand) (rest : List HostEvent) (i : Instr),
    s.host = .command c :: rest → decode c.word = .command i →
      step s = exec i { s with host := rest, operands := c.operands, out := [] }

/-- R148: a core with nothing to do keeps all its state. That an idle step exists is the model's choice (log 7). -/
def Obligations.IdleCoreKeepsState : Prop :=
  ∀ s : State, s.host = [] → step s = .next s

/-- R137: the pre-checks of a command, in their order. A faulted core refuses; a word that does not decode faults
IllegalCommand; a command whose first failing check 3 .. 8 is `c` faults with `c`; each before any state changes. A command
that passes them answers OK or faults OutputOverflow. -/
def Obligations.PreChecksFaultInOrder : Prop :=
  (∀ (w : Word) (s : State), s.faulted = true →
    ∃ t n, runWord w s = .next t ∧ t.response = some ⟨s.faultCause, n⟩ ∧ t.faulted = true ∧
      t.faultCause = s.faultCause ∧ t.ctx = s.ctx ∧ t.work = s.work ∧ t.out = s.out) ∧
  (∀ (w : Word) (s : State) (why : Reject), s.faulted = false → decode w = .illegal why →
    ∃ t n, runWord w s = .next t ∧ t.response = some ⟨1#4, n⟩ ∧ t.faulted = true ∧ t.faultCause = 1#4 ∧
      t.ctx = s.ctx ∧ t.work = s.work ∧ t.out = s.out) ∧
  (∀ (w : Word) (i : Instr) (s : State) (c : Cause), s.faulted = false → decode w = .command i →
    firstFailure i s = some c →
    ∃ t n, runWord w s = .next t ∧ t.response = some ⟨c.code, n⟩ ∧ t.faulted = true ∧ t.faultCause = c.code ∧
      t.ctx = s.ctx ∧ t.work = s.work ∧ t.out = s.out) ∧
  (∀ (w : Word) (i : Instr) (s t : State), s.faulted = false → decode w = .command i → firstFailure i s = none →
    runWord w s = .next t →
    (t.faulted = false ∧ ∃ n, t.response = some ⟨0#4, n⟩) ∨
      (t.faulted = true ∧ t.faultCause = 7#4 ∧ (∃ n, t.response = some ⟨7#4, n⟩) ∧
        ∀ level format, i ≠ .init level format))

/-- R140: a faulted core refuses every command, whatever its word: nothing changes, no byte of OUT is written, STATUS is
`fault_cause`; only hardware reset clears `faulted`. -/
def Obligations.FaultedCoreRefusesEveryWord : Prop :=
  (∀ (w : Word) (s : State), s.faulted = true →
    ∃ t n, runWord w s = .next t ∧ t.response = some ⟨s.faultCause, n⟩ ∧ t.faulted = true ∧
      t.faultCause = s.faultCause ∧ t.ctx = s.ctx ∧ t.work = s.work ∧ t.out = s.out ∧ t.operands = s.operands ∧
      t.host = s.host) ∧
  (∀ s t : State, s.faulted = true → step s = .next t → t.faulted = false →
    ∃ rest, s.host = .hardwareReset :: rest)

/-- R32: hardware reset leaves UNINIT, `faulted` 0 and `fault_cause` 0; whatever the other context registers hold then, no
command reads them: ENCODE and FINISH fault NotInitialized, and what INIT leaves does not depend on them.
The model's choices in it: hardware reset keeps the operands and OUT (log 15), and the BYTES_WRITTEN that two runs leave
unspecified is the same free value because their draws agree (logs 4 and 6). -/
def Obligations.UnspecifiedRegistersAreNeverRead : Prop :=
  (State.reset.ctx.phase = .uninit ∧ State.reset.faulted = false ∧ State.reset.faultCause = 0#4) ∧
  (∀ (s : State) (rest : List HostEvent), s.host = .hardwareReset :: rest →
    ∃ t, step s = .next t ∧ t.ctx.phase = .uninit ∧ t.faulted = false ∧ t.faultCause = 0#4 ∧ t.host = rest ∧
      t.operands = s.operands ∧ t.out = s.out) ∧
  (∀ (i : Instr) (s : State) (c : Context), s.faulted = false → s.ctx.phase = .uninit → c.phase = .uninit →
    ∃ t, exec i s = .next t ∧
      exec i { s with ctx := c } = .next (if t.faulted then { t with ctx := c } else t)) ∧
  (∀ (i : Instr) (s : State), s.faulted = false → s.ctx.phase = .uninit →
    (∀ level format, i ≠ .init level format) → ∃ t, exec i s = .next t ∧ t.faulted = true ∧ t.faultCause = 4#4)

/-! ### The invariant -/

/-- The invariant holds at reset: by R32 and R120 for the registers the spec gives, by the model's choice of log 1 for
`level`, `format`, `crc`, `input_len`, `bit_queue`, `bit_count` and the table. -/
def Obligations.ResetMeetsInvariant : Prop := State.reset.Inv

/-- R21, R22, R23, R24, R25, R80, R99, R120, R121, R135: every step from a state that meets the invariant gives a state that
meets it. For a step that is a hardware reset this rests on the values that logs 1 and 15 name, and for an
ENCODE whose host breaks a duty (R51) on the legal contexts of log 20. -/
def Obligations.StepKeepsInvariant : Prop :=
  ∀ s t : State, s.Inv → step s = .next t → t.Inv

/-- R36, R65, R67, R99; 93 U19 to U21: in a state that meets the invariant no rule makes a call that the model refuses or
reads IN out of range (logs 12 to 14): every step gives a next state. After an ENCODE whose host breaks a duty (R51) this
rests on the legal contexts of log 20. -/
def Obligations.GoodStatesNeverStop : Prop :=
  ∀ s : State, s.Inv → ∃ t, step s = .next t

/-! ### INIT -/

/-- R33: what a successful INIT leaves. Nothing else changes but the response. -/
def Obligations.InitConfiguresStream : Prop :=
  ∀ (level : BitVec 4) (format : BitVec 2) (f : Format) (s : State),
    s.faulted = false → level.toNat ≤ 1 → formatCode f = format →
      exec (.init level format) s = .next
        { s with
          ctx :=
            { phase := .init
              level := level.setWidth 1
              format := f
              crc := if f = .zlib then 1#32 else 0#32
              inputLen := 0#64
              bitQueue := 0#32
              bitCount := 0#5
              table := [] }
          response := some ⟨0#4, 0#32⟩ }

/-! ### ENCODE -/

/-- R132 at level 0: with room for its bytes, ENCODE answers OK; it has sent the header, if the stream had not started, and
the chunk as stored blocks (R115); the checksum and the length count the chunk; nothing else of the context changes.
The host keeps its duties (R153); where it breaks one, see BreachedEncodeIsUnspecified. -/
def Obligations.EncodeStoresAtLevelZero : Prop :=
  ∀ (more : Bool) (s : State), s.faulted = false → ContextOk s.ctx → breached s.operands = false →
    s.ctx.level = 0#1 →
    s.ctx.phase = .init ∨ s.ctx.phase = .eob →
    s.ctx.inputLen.toNat + s.operands.ilen.toNat < 2 ^ 64 →
    (headerSent s.ctx).length + s.operands.ilen.toNat + 5 * ((s.operands.ilen.toNat + 65534) / 65535)
      ≤ s.operands.ocap.toNat →
      exec (.encode more) s = .next (completedState s
        { s.ctx with
          phase := if s.operands.ilen = 0#32 ∨ more then .eob else .done
          crc := checksum s.ctx.format s.ctx.crc (chunkOf s.operands)
          inputLen := s.ctx.inputLen + s.operands.ilen.setWidth 64 }
        (headerSent s.ctx ++
          (if s.operands.ilen = 0#32 then []
            else storedBytes more s.operands.ilen.toNat (chunkOf s.operands))))

/-- R132, R156: at either level, ENCODE answers OK when OCAP is at least H + 2n + 16, in every phase that accepts it.
The host keeps its duties (R153); where it breaks one, see BreachedEncodeIsUnspecified. -/
def Obligations.EncodeCompletesWithRoom : Prop :=
  ∀ (more : Bool) (s : State), s.faulted = false → ContextOk s.ctx → breached s.operands = false →
    s.ctx.phase = .init ∨ s.ctx.phase = .eob ∨ s.ctx.phase = .fixed →
    s.ctx.inputLen.toNat + s.operands.ilen.toNat < 2 ^ 64 →
    (headerSent s.ctx).length + 2 * s.operands.ilen.toNat + 16 ≤ s.operands.ocap.toNat →
      ∃ t n, exec (.encode more) s = .next t ∧ t.response = some ⟨0#4, n⟩ ∧ t.faulted = false ∧
        t.ctx.crc = checksum s.ctx.format s.ctx.crc (chunkOf s.operands) ∧
        t.ctx.inputLen = s.ctx.inputLen + s.operands.ilen.setWidth 64

/-- R156: BYTES_WRITTEN of an ENCODE that answers OK, exactly at level 0 and at most at level 1.
The host keeps its duties (R153); where it breaks one, see BreachedEncodeIsUnspecified. -/
def Obligations.EncodeByteCount : Prop :=
  ∀ (more : Bool) (s t : State) (n : Word), s.faulted = false → ContextOk s.ctx → breached s.operands = false →
    exec (.encode more) s = .next t → t.response = some ⟨0#4, n⟩ →
      (s.ctx.level = 0#1 → n.toNat =
        (headerSent s.ctx).length + s.operands.ilen.toNat + 5 * ((s.operands.ilen.toNat + 65534) / 65535)) ∧
      (s.ctx.level = 1#1 → n.toNat ≤ (headerSent s.ctx).length + (9 * s.operands.ilen.toNat + 20) / 8)

/-- The frame of ENCODE (R132), in every state: when it answers OK, the fault registers, the operands (IN among them) and the
host are as before, and OUT holds exactly the BYTES_WRITTEN bytes from offset 0 (R39), every other offset no value (R40,
log 8). Where the host keeps its duties (R153), the level and the format are as before too, the checksum and the length
count the chunk (R19, R20, R84), and at level 0 the match table is as before (R95). Where the host breaks a duty, R51 leaves
the output and the context unspecified, and what the statement says of that case is the model's choice (log 20). -/
def Obligations.EncodeFrame : Prop :=
  ∀ (more : Bool) (s t : State) (n : Word), s.faulted = false →
    exec (.encode more) s = .next t → t.response = some ⟨0#4, n⟩ →
      t.faulted = s.faulted ∧ t.faultCause = s.faultCause ∧ t.operands = s.operands ∧ t.host = s.host ∧
      n.toNat ≤ s.operands.ocap.toNat ∧
      (∃ bs, t.out = windowOf bs ∧ bs.length = n.toNat) ∧
      (∀ a, (Memory.read t.out a).isSome ↔ a < n.toNat) ∧
      (breached s.operands = false →
        t.ctx.level = s.ctx.level ∧ t.ctx.format = s.ctx.format ∧
        t.ctx.crc = checksum s.ctx.format s.ctx.crc (chunkOf s.operands) ∧
        t.ctx.inputLen.toNat = s.ctx.inputLen.toNat + s.operands.ilen.toNat ∧
        (s.ctx.level = 0#1 → t.ctx.table = s.ctx.table))

/-- R132, corner case ILEN = 0 (92 D16): for either MORE, only the header phase runs.
The host keeps its duties (R153); where it breaks one, see BreachedEncodeIsUnspecified. -/
def Obligations.EmptyChunkSendsHeaderOnly : Prop :=
  ∀ (more : Bool) (s : State), s.faulted = false → ContextOk s.ctx → breached s.operands = false →
    s.ctx.phase = .init ∨ s.ctx.phase = .eob ∨ s.ctx.phase = .fixed →
    s.operands.ilen = 0#32 → (headerSent s.ctx).length ≤ s.operands.ocap.toNat →
      exec (.encode more) s = .next (completedState s
        { s.ctx with phase := if s.ctx.phase = .init then .eob else s.ctx.phase } (headerSent s.ctx))

/-- R107, R95: a chunk of fewer than 4 bytes starts no probe: the match table is as before.
The host keeps its duties (R153); where it breaks one, see BreachedEncodeIsUnspecified. -/
def Obligations.ShortChunkTouchesNoSlot : Prop :=
  ∀ (more : Bool) (s t : State) (n : Word), s.faulted = false → breached s.operands = false → s.operands.ilen.toNat < 4 →
    exec (.encode more) s = .next t → t.response = some ⟨0#4, n⟩ → t.ctx.table = s.ctx.table

/-! ### FINISH -/

/-- R133: with room for its bytes, FINISH answers OK in every phase that accepts it; what it has sent is the header, if the
stream had not started, the end of the open block or the final empty stored block, the padding and the trailer; `state` is
END, the queue is empty, and nothing else of the context changes. -/
def Obligations.FinishClosesStream : Prop :=
  ∀ s : State, s.faulted = false → ContextOk s.ctx → s.ctx.phase ≠ .uninit → s.ctx.phase ≠ .ended →
    (finishBytes s.ctx).length ≤ s.operands.ocap.toNat →
      exec .finish s = .next (completedState s
        { s.ctx with phase := .ended, bitQueue := 0#32, bitCount := 0#5 } (finishBytes s.ctx))

/-- R157: FINISH writes at most max(H + 5, 7) + T bytes, and by entry state: INIT, H + 5 + T; FIXED, at most 7 + T; LAST, at
most 2 + T; EOB, 5 + T; DONE, T. H is 10, 2 or 0, and T 8, 4 or 0. -/
def Obligations.FinishByteBound : Prop :=
  (∀ f : Format, (headerBytes f).length = (match f with | .gzip => 10 | .zlib => 2 | .deflate => 0) ∧
    trailerLength f = (match f with | .gzip => 8 | .zlib => 4 | .deflate => 0)) ∧
  ∀ (s t : State) (n : Word), s.faulted = false → ContextOk s.ctx →
    exec .finish s = .next t → t.response = some ⟨0#4, n⟩ →
      n.toNat ≤ max ((headerBytes s.ctx.format).length + 5) 7 + trailerLength s.ctx.format ∧
      n.toNat ≤ (match s.ctx.format with | .gzip => 23 | .zlib => 11 | .deflate => 7) ∧
      (s.ctx.phase = .init →
        n.toNat = (headerBytes s.ctx.format).length + 5 + trailerLength s.ctx.format) ∧
      (s.ctx.phase = .fixed → n.toNat ≤ 7 + trailerLength s.ctx.format) ∧
      (s.ctx.phase = .last → n.toNat ≤ 2 + trailerLength s.ctx.format) ∧
      (s.ctx.phase = .eob → n.toNat = 5 + trailerLength s.ctx.format) ∧
      (s.ctx.phase = .done → n.toNat = trailerLength s.ctx.format)

/-- R129: a FINISH that answers OK leaves END, and a FINISH in END faults FinishAfterEnd and sends nothing, so no trailer is
sent twice. -/
def Obligations.SecondFinishFaults : Prop :=
  (∀ (s t : State) (n : Word), s.faulted = false → exec .finish s = .next t → t.response = some ⟨0#4, n⟩ →
    t.ctx.phase = .ended ∧ t.faulted = false) ∧
  (∀ s : State, s.faulted = false → s.ctx.phase = .ended →
    ∃ u m, exec .finish s = .next u ∧ u.faulted = true ∧ u.faultCause = 6#4 ∧ u.response = some ⟨6#4, m⟩ ∧
      u.out = s.out ∧ u.ctx = s.ctx)

/-! ### Phases and faults of all commands -/

/-- R119: between commands `state` moves only forward, but for INIT; EOB and FIXED toggle. With MORE = 1 no final block is
opened (R132); once LAST, DONE or END is reached ENCODE faults EncodeAfterClose.
The host keeps its duties (R153); where it breaks one, see BreachedEncodeIsUnspecified. -/
def Obligations.PhaseMovesForward : Prop :=
  (∀ (more : Bool) (s t : State) (n : Word), s.faulted = false → breached s.operands = false →
    exec (.encode more) s = .next t → t.response = some ⟨0#4, n⟩ →
    1 ≤ s.ctx.phase.rank ∧ s.ctx.phase.rank ≤ t.ctx.phase.rank ∧ 2 ≤ t.ctx.phase.rank ∧ t.ctx.phase ≠ .ended ∧
      (more = true → t.ctx.phase = .eob ∨ t.ctx.phase = .fixed)) ∧
  (∀ (s t : State) (n : Word), s.faulted = false → exec .finish s = .next t → t.response = some ⟨0#4, n⟩ →
    1 ≤ s.ctx.phase.rank ∧ s.ctx.phase.rank < t.ctx.phase.rank ∧ t.ctx.phase = .ended) ∧
  (∀ (level : BitVec 4) (format : BitVec 2) (s t : State) (n : Word), s.faulted = false →
    exec (.init level format) s = .next t → t.response = some ⟨0#4, n⟩ → t.ctx.phase = .init) ∧
  (∀ (more : Bool) (s : State), s.faulted = false →
    s.ctx.phase = .last ∨ s.ctx.phase = .done ∨ s.ctx.phase = .ended →
    ∃ t n, exec (.encode more) s = .next t ∧ t.faulted = true ∧ t.faultCause = 5#4 ∧ t.response = some ⟨5#4, n⟩ ∧
      t.ctx = s.ctx)

/-- R63, R139: an ENCODE or FINISH that faults OutputOverflow has filled its window: exactly OCAP bytes stand in OUT. For an
ENCODE whose host breaks a duty, whose output R51 leaves unspecified, this is the model's choice (log 20). -/
def Obligations.OverflowFillsWindow : Prop :=
  ∀ (i : Instr) (s t : State) (n : Word), s.faulted = false → exec i s = .next t → t.response = some ⟨7#4, n⟩ →
    t.faulted = true ∧ t.faultCause = 7#4 ∧ t.operands = s.operands ∧ t.host = s.host ∧
      ∃ bs, t.out = windowOf bs ∧ bs.length = s.operands.ocap.toNat

/-- R63, R138, R139: the output capacity decides only whether a command overflows. Where a command answers OK with
BYTES_WRITTEN n, the same command with a capacity of at least n leaves the same state, and with a smaller capacity k it
faults OutputOverflow with the first k of the same bytes in OUT. (The two runs leave the same free values because their
draws agree: the model's choice, logs 3 and 6.) For an ENCODE the host keeps its duties in both runs (R153); where it breaks
one, see BreachedEncodeIsUnspecified. -/
def Obligations.CapacityDecidesOverflowOnly : Prop :=
  ∀ (i : Instr) (s t : State) (n k : Word), s.faulted = false →
    (∀ more, i = .encode more → breached s.operands = false ∧ breached (s.withOcap k).operands = false) →
    exec i s = .next t → t.response = some ⟨0#4, n⟩ →
    (n.toNat ≤ k.toNat → exec i (s.withOcap k) = .next (t.withOcap k)) ∧
    (k.toNat < n.toNat →
      ∃ u m, exec i (s.withOcap k) = .next u ∧ u.response = some ⟨7#4, m⟩ ∧ u.faulted = true ∧ u.faultCause = 7#4 ∧
        u.out = t.out.take k.toNat)

/-! ### The bit queue -/

/-- R63: OutByte writes one byte at the cursor and advances it, or faults OutputOverflow when the window is full. -/
def Obligations.OutByteWritesAtCursor : Prop :=
  ∀ (b : Byte) (s : State),
    (s.work.cursor = s.work.ocap → outByte b s = .overflow s) ∧
    (s.work.cursor ≠ s.work.ocap →
      ∃ s', outByte b s = .run s' ∧ Memory.read s'.out s.work.cursor.toNat = some b ∧
        s'.work.cursor = s.work.cursor + 1#32 ∧
        (∀ a, a ≠ s.work.cursor.toNat → Memory.read s'.out a = Memory.read s.out a) ∧
        s' = { s with out := s'.out, work := { s.work with cursor := s'.work.cursor } })

/-- R41, R64: ENQUEUE appends the n bits of its value, bit 0 first, to the bits sent and pending, and sends every complete
byte. It runs whenever the window has room for the complete bytes. -/
def Obligations.EnqueueAppendsBits : Prop :=
  ∀ (f : Field) (s : State), f.width ≤ 24 → f.value.toNat < 2 ^ f.width →
    s.ctx.bitCount.toNat ≤ 7 → s.ctx.bitQueue.toNat < 2 ^ s.ctx.bitCount.toNat →
    s.work.cursor.toNat + (s.ctx.bitCount.toNat + f.width) / 8 ≤ s.work.ocap.toNat →
      ∃ s', enqueue f s = .run s' ∧ bitStream s' = bitStream s ++ fieldBits f ∧
        s'.ctx.bitCount.toNat = (s.ctx.bitCount.toNat + f.width) % 8 ∧
        s'.ctx.bitQueue.toNat < 2 ^ s'.ctx.bitCount.toNat ∧
        s'.work.cursor.toNat = s.work.cursor.toNat + (s.ctx.bitCount.toNat + f.width) / 8 ∧
        s'.ctx = { s.ctx with bitQueue := s'.ctx.bitQueue, bitCount := s'.ctx.bitCount } ∧
        (∀ a, a < s.work.cursor.toNat ∨ s'.work.cursor.toNat ≤ a → Memory.read s'.out a = Memory.read s.out a)

/-- R66: FLUSH_TO_BYTE pads the bits sent and pending with zero bits to a byte boundary and empties the queue; it sends at
most one byte. -/
def Obligations.FlushPadsWithZeros : Prop :=
  ∀ s : State, s.ctx.bitCount.toNat ≤ 7 → s.ctx.bitQueue.toNat < 2 ^ s.ctx.bitCount.toNat →
    s.work.cursor.toNat + (s.ctx.bitCount.toNat + 7) / 8 ≤ s.work.ocap.toNat →
      ∃ s', flushToByte s = .run s' ∧
        bitStream s' = bitStream s ++ List.replicate ((8 - s.ctx.bitCount.toNat) % 8) false ∧
        s'.work.cursor.toNat = s.work.cursor.toNat + (s.ctx.bitCount.toNat + 7) / 8 ∧
        s'.ctx = { s.ctx with bitQueue := 0#32, bitCount := 0#5 }

/-- R67 to R72: with an empty queue and room for its bytes, a raw writer stores them from the cursor on, in order, and
changes nothing else; the 16- and 32-bit writers store the bytes of R68, R69 and R70. -/
def Obligations.RawWritersStoreInOrder : Prop :=
  (∀ (bs : List Byte) (s : State), s.ctx.bitCount = 0#5 →
    s.work.cursor.toNat + bs.length ≤ s.work.ocap.toNat →
    ∃ s', writeBytes bs s = .run s' ∧ s'.work.cursor.toNat = s.work.cursor.toNat + bs.length ∧
      (∀ k, k < bs.length → Memory.read s'.out (s.work.cursor.toNat + k) = bs[k]?) ∧
      (∀ a, a < s.work.cursor.toNat ∨ s'.work.cursor.toNat ≤ a → Memory.read s'.out a = Memory.read s.out a) ∧
      s' = { s with out := s'.out, work := { s.work with cursor := s'.work.cursor } }) ∧
  (∀ (v : BitVec 16) (s : State), writeU16LE v s = writeBytes [v.extractLsb' 0 8, v.extractLsb' 8 8] s) ∧
  (∀ (v : Word) (s : State), writeU32LE v s =
    writeBytes [v.extractLsb' 0 8, v.extractLsb' 8 8, v.extractLsb' 16 8, v.extractLsb' 24 8] s) ∧
  (∀ (v : Word) (s : State), writeU32BE v s =
    writeBytes [v.extractLsb' 24 8, v.extractLsb' 16 8, v.extractLsb' 8 8, v.extractLsb' 0 8] s) ∧
  (∀ (inp : List Byte) (i n : Nat) (s : State), i + n ≤ inp.length →
    writeRaw inp i n s = writeBytes ((inp.drop i).take n) s)

/-- R65, R67; 93 U19, U20: a call of ENQUEUE or of a raw writer outside its precondition is refused by name (the model's
reading, log 12). -/
def Obligations.ForbiddenQueueCallsAreRefused : Prop :=
  (∀ (f : Field) (s : State), 24 < f.width ∨ 2 ^ f.width ≤ f.value.toNat →
    enqueue f s = .refused .enqueueOutOfRange) ∧
  (∀ (bs : List Byte) (s : State), s.ctx.bitCount ≠ 0#5 → writeBytes bs s = .refused .rawWriterUnaligned)

/-! ### The checksum engines -/

/-- R76: CRC_BYTE on the held register, with the inversions folded into the table, agrees with R75. -/
def Obligations.FoldedCrcTableAgrees : Prop :=
  ∀ (r : Word) (b : Byte),
    crcByte r b =
      (crcTable ((r ^^^ b.setWidth 32).setWidth 8 ^^^ 0xFF#8) ^^^ 0xFF000000#32) ^^^ (r >>> 8)

/-- R80: ADLER_BYTE adds modulo 65521 in both halves, s1 first; the seed, s1 = 1 and s2 = 0, and every result have both halves below 65521. -/
def Obligations.AdlerByteAddsModulo : Prop :=
  (adlerLow (crcSeed .zlib) = 1 ∧ adlerHigh (crcSeed .zlib) = 0) ∧
  ∀ (r : Word) (b : Byte),
    adlerLow (adlerByte r b) = (adlerLow r + b.toNat) % 65521 ∧
    adlerHigh (adlerByte r b) = (adlerHigh r + (adlerLow r + b.toNat) % 65521) % 65521 ∧
    adlerLow (adlerByte r b) < 65521 ∧ adlerHigh (adlerByte r b) < 65521

/-- R82, R83: the deferred-modulus datapath on a block of at most 4096 bytes gives exactly ADLER_UPDATE. -/
def Obligations.DeferredAdlerAgrees : Prop :=
  ∀ (r : Word) (bs : List Byte), adlerLow r < 65521 → adlerHigh r < 65521 → bs.length ≤ 4096 →
    adlerBlockUpdate r bs = adlerUpdate r bs

/-- R79, R81, R84: the engine of a format composes over chunks. -/
def Obligations.ChecksumComposesOverChunks : Prop :=
  ∀ (f : Format) (r : Word) (as bs : List Byte),
    checksum f (checksum f r as) bs = checksum f r (as ++ bs)

/-! ### The fixed Huffman tables -/

/-- R65, R87, R89, R91: every literal has a field of 8 or 9 bits (9 from 144 on), every length 4 .. 258 one of 7 .. 13 bits,
every distance 1 .. 32768 one of 5 .. 18 bits, and each fits its width. -/
def Obligations.FieldsFitTheQueue : Prop :=
  (∀ b : Byte, (litField b).width = (if b.toNat ≤ 143 then 8 else 9) ∧
    (litField b).value.toNat < 2 ^ (litField b).width) ∧
  (∀ len, 4 ≤ len → len ≤ 258 → ∃ f, lenField len = some f ∧ 7 ≤ f.width ∧ f.width ≤ 13 ∧
    f.value.toNat < 2 ^ f.width) ∧
  (∀ dist, 1 ≤ dist → dist ≤ 32768 → ∃ f, distField dist = some f ∧ 5 ≤ f.width ∧ f.width ≤ 18 ∧
    f.value.toNat < 2 ^ f.width)

/-- R86: no code of the literal/length alphabet is the beginning of another's (most significant bit first, R85). -/
def Obligations.LiteralLengthCodesArePrefixFree : Prop :=
  ∀ u v : Nat, u < 288 → v < 288 → u ≠ v → (symbolCode u).2 ≤ (symbolCode v).2 →
    (symbolCode v).1 / 2 ^ ((symbolCode v).2 - (symbolCode u).2) ≠ (symbolCode u).1

/-- R88 to R91: a length field tells its length, a distance field its distance, and no other length or distance has one. -/
def Obligations.MatchFieldsAreDistinct : Prop :=
  (∀ a b : Nat, ∀ f, lenField a = some f → lenField b = some f → a = b) ∧
  (∀ a b : Nat, ∀ f, distField a = some f → distField b = some f → a = b) ∧
  (∀ a : Nat, (lenField a).isSome ↔ 3 ≤ a ∧ a ≤ 258) ∧
  (∀ a : Nat, (distField a).isSome ↔ 1 ≤ a ∧ a ≤ 32768)

/-! ### The match finder -/

/-- R96: HASH(w), both of its forms and its corner values. -/
def Obligations.HashIsMultiplicative : Prop :=
  (∀ w : Word, (hashWord w).toNat = ((w.toNat * 0x8003F) % 2 ^ 32) / 2 ^ 19) ∧
  (∀ w : Word, (hashWord w).toNat = ((w.toNat * 2 ^ 19 + w.toNat * 2 ^ 6 - w.toNat) % 2 ^ 32) / 2 ^ (32 - 13)) ∧
  hashWord 0#32 = 0#13 ∧ hashWord 1#32 = 1#13 ∧ hashWord 0xFFFFFFFF#32 = 8190#13 ∧ hashWord 0x80000000#32 = 4096#13 ∧
  hashWord 0x61636261#32 = 335#13

/-- R98: the candidate test accepts exactly an earlier occurrence of the same word, at a distance D of at most 32768 that
stays in the chunk, and names its distance and its offset; a slot of an earlier position is otherwise rejected (R99: every
slot is earlier). -/
def Obligations.CandidateIsEarlierEqualWord : Prop :=
  ∀ (word : Word) (old : Option Slot) (abs pos : Nat),
    (∀ dist offset, candidate word old abs pos = .found dist offset ↔
      ∃ slot, old = some slot ∧ slot.value = word ∧ slot.position.toNat + dist = abs ∧ 1 ≤ dist ∧ dist ≤ 32768 ∧
        dist ≤ pos ∧ offset + dist = pos) ∧
    (candidate word old abs pos = .reject ↔
      ∀ slot, old = some slot → slot.value = word →
        slot.position.toNat < abs ∧ (32768 ≤ abs - slot.position.toNat - 1 ∨ pos ≤ abs - slot.position.toNat - 1))

/-- R110: a slot of the same word at distance exactly 32768 within the chunk is a candidate; at 32769 it is rejected. -/
def Obligations.WindowBoundaryIsExact : Prop :=
  ∀ (word : Word) (p : Position) (pos : Nat), 32769 ≤ pos →
    candidate word (some ⟨p, word⟩) (p.toNat + 32768) pos = .found 32768 (pos - 32768) ∧
    candidate word (some ⟨p, word⟩) (p.toNat + 32769) pos = .reject

/-- R100: EXTEND gives 4 + k for the first k bytes that agree after the 4 of the word, k as large as the limit and the bytes
allow. -/
def Obligations.ExtendMeasuresTheMatch : Prop :=
  ∀ (inp : List Byte) (pos c : Nat), pos + 4 ≤ inp.length → c < pos →
    ∃ k, extend inp pos c = 4 + k ∧ k ≤ min 258 (inp.length - pos) - 4 ∧
      (∀ j, j < k → inp[pos + 4 + j]? = inp[c + 4 + j]?) ∧
      (k = min 258 (inp.length - pos) - 4 ∨ inp[pos + 4 + k]? ≠ inp[c + 4 + k]?)

/-- R24, R98, R100: with a table that agrees with the chunk, the bytes of a match are the bytes it copies: every one of the
`extend` bytes from `pos` lies in the chunk and equals the byte D before it. -/
def Obligations.MatchCopiesEqualBytes : Prop :=
  ∀ (inp : List Byte) (base pos : Nat) (t : Table) (word : Word) (dist c : Nat),
    TableAgrees inp base pos t → readWord inp pos = some word →
    candidate word (Table.slot t (hashWord word)) (base + pos) pos = .found dist c →
      c + dist = pos ∧ 1 ≤ dist ∧ dist ≤ 32768 ∧ pos + extend inp pos c ≤ inp.length ∧
        ∀ j, j < extend inp pos c → inp[pos + j]? = inp[c + j]?

/-- R97, R98, R100 to R106, R24: one turn of the scan writes exactly the slot of the word at `pos`, with its absolute
position; the slots of the positions a match covers are not written. It takes the match at `pos` exactly when the candidate
is accepted (`MatchAccepted`): then it sends the pending run and the match, advances `pos` by the length of the match and
starts a new run; otherwise the byte at `pos` joins the pending run, and nothing else changes. The table stays in agreement
with the chunk. -/
def Obligations.ScanStepWritesOneSlot : Prop :=
  ∀ (inp : List Byte) (s s' : State), inp.length < 2 ^ 32 → s.work.base.toNat + inp.length < 2 ^ 64 →
    s.work.pos.toNat + 4 ≤ inp.length → scanStep inp s = .run s' →
      (∃ word byte, readWord inp s.work.pos.toNat = some word ∧ inp[s.work.pos.toNat]? = some byte ∧
        Table.slot s'.ctx.table (hashWord word) = some ⟨s.work.base + s.work.pos.setWidth 64, word⟩ ∧
        (∀ h, h ≠ hashWord word → Table.slot s'.ctx.table h = Table.slot s.ctx.table h) ∧
        (∀ dist len, MatchAccepted inp s word dist len →
          acceptMatch inp dist len (s.withSlot (hashWord word) ⟨s.work.base + s.work.pos.setWidth 64, word⟩) = .run s' ∧
            4 ≤ len ∧ len ≤ 258 ∧ s.work.pos.toNat + len ≤ inp.length ∧
            s'.work.pos.toNat = s.work.pos.toNat + len ∧ s'.work.plit = 0#32 ∧ s'.work.bit9 = 0#32) ∧
        ((∀ dist len, ¬ MatchAccepted inp s word dist len) →
          s'.work.pos.toNat = s.work.pos.toNat + 1 ∧
            s' = (s.withSlot (hashWord word) ⟨s.work.base + s.work.pos.setWidth 64, word⟩).withScan
              (s.work.pos + 1#32) (s.work.plit + 1#32)
              (if 144 ≤ byte.toNat then s.work.bit9 + 1#32 else s.work.bit9))) ∧
      (TableAgrees inp s.work.base.toNat s.work.pos.toNat s.ctx.table →
        TableAgrees inp s'.work.base.toNat s'.work.pos.toNat s'.ctx.table)

/-! ### The stream -/

/-- R111 to R118, R128: what ENCODE sends continues a deflate stream that stands for the data so far into one that stands
for the data with the chunk: no byte of the input is lost or changed. `prior` are the bits the stream's earlier commands
have sent after the container header.
The host keeps its duties (R153); where it breaks one, see BreachedEncodeIsUnspecified. -/
def Obligations.EncodeSendsDeflateOfChunk : Prop :=
  ∀ (more : Bool) (s t : State) (n : Word) (prior : List Bool) (data : List Byte),
    s.faulted = false → ContextOk s.ctx → breached s.operands = false → 8 ∣ prior.length →
    (s.ctx.phase = .init ∧ prior = [] ∧ data = []) ∨
      DeflatePrefix (prior ++ pendingBits s.ctx) s.ctx.phase data →
    exec (.encode more) s = .next t → t.response = some ⟨0#4, n⟩ →
      ∃ body, t.out = windowOf (headerSent s.ctx ++ body) ∧
        DeflatePrefix (prior ++ bitsOf body ++ pendingBits t.ctx) t.ctx.phase (data ++ chunkOf s.operands)

/-- R112 to R115, R128, R133: what FINISH sends between header and trailer closes the deflate stream without adding to its
data: its last block is final, and fewer than 8 zero bits pad it to a byte. -/
def Obligations.FinishEndsDeflateStream : Prop :=
  ∀ (s t : State) (n : Word) (prior : List Bool) (data : List Byte),
    s.faulted = false → ContextOk s.ctx → 8 ∣ prior.length →
    (s.ctx.phase = .init ∧ prior = [] ∧ data = []) ∨
      DeflatePrefix (prior ++ pendingBits s.ctx) s.ctx.phase data →
    exec .finish s = .next t → t.response = some ⟨0#4, n⟩ →
      ∃ body bits pad,
        t.out = windowOf (headerSent s.ctx ++ body ++ trailerBytes s.ctx.format s.ctx.crc s.ctx.inputLen) ∧
        prior ++ bitsOf body = bits ++ List.replicate pad false ∧ pad < 8 ∧ DeflatePrefix bits .done data

/-- R127, R128, the source's properties 1, 3 and 6: the bytes of a completed stream, whatever the chunking and the level, are
the container header, a deflate stream of exactly the bytes passed to ENCODE, padded with zero bits to a byte, and the
trailer of the checksum and the length of those bytes.
The host keeps its duties (R153); where it breaks one, see BreachedEncodeIsUnspecified. -/
def Obligations.CompletedStreamStandsForItsData : Prop :=
  ∀ (f : Format) (s t : State) (sent data : List Byte) (o : Operands) (n : Word),
    Session f s sent data → exec .finish (acceptOperands o s) = .next t → t.response = some ⟨0#4, n⟩ →
      ∃ body bits pad,
        sent ++ t.out.map Prod.snd =
          headerBytes f ++ body ++
            trailerBytes f (checksum f (crcSeed f) data) (BitVec.ofNat 64 data.length) ∧
        bitsOf body = bits ++ List.replicate pad false ∧ pad < 8 ∧ DeflatePrefix bits .done data

/-! ### A host that breaks a duty -/

/-- R51, R137, R153; 93 U11: an ENCODE that passes its pre-checks while the host breaks a duty runs to its end. R51 leaves its
output and the context after it unspecified, so every clause on them is the model's choice (log 20), the same for all four
breaches: it answers OK, with at most OCAP bytes in OUT and a context that is legal, or OutputOverflow, with OCAP bytes; the
fault registers follow the answer, and the operands and the host are as before. That what it leaves is fixed by neither the
bytes of IN, nor the context before, nor MORE is the model's choice too: the two runs draw the same free values because
their draws agree (logs 6 and 20), which says nothing of two runs of the hardware. -/
def Obligations.BreachedEncodeIsUnspecified : Prop :=
  ∀ (more : Bool) (s : State), s.faulted = false → firstFailure (.encode more) s = none →
    breached s.operands = true →
    (∃ t n bs, exec (.encode more) s = .next t ∧ t.operands = s.operands ∧ t.host = s.host ∧ t.out = windowOf bs ∧
      ((t.response = some ⟨0#4, n⟩ ∧ t.faulted = false ∧ t.faultCause = s.faultCause ∧ ContextOk t.ctx ∧
          bs.length = n.toNat ∧ n.toNat ≤ s.operands.ocap.toNat) ∨
        (t.response = some ⟨7#4, n⟩ ∧ t.faulted = true ∧ t.faultCause = 7#4 ∧
          bs.length = s.operands.ocap.toNat))) ∧
    (∀ (more' : Bool) (c : Context) (input : List Host.Cell),
      let s' := { s with ctx := c, operands := { s.operands with input := input } }
      firstFailure (.encode more') s' = none →
        ∃ t, exec (.encode more) s = .next t ∧ exec (.encode more') s' = .next { t with operands := s'.operands })

/-- R16 to R24, R80, R99, R120, R121: `legalContext` brings every context whose table is in canonical form to a good one, and
leaves every good one as it is. The model uses it for the context of a breached ENCODE that completes (its choice, log 20);
one that overflows leaves a context with no such limit (log 5). -/
def Obligations.LegalContextsAreTheGoodOnes : Prop :=
  ∀ c : Context, (Table.wf c.table → ContextOk (legalContext c)) ∧ (ContextOk c → legalContext c = c)
end

