-- ==== Sys2Proof/Laws/State.lean ====
section
/-! SUPPORT. One lemma per field per update of the state, true by definition, so that no later proof unfolds a record
update. -/

namespace Sys2Proof.Machine.Laws

/-! ### `State.withPhase` -/

@[simp] theorem withPhase_phase (s : State) (p : Phase) : (s.withPhase p).ctx.phase = p := rfl

@[simp] theorem withPhase_level (s : State) (p : Phase) : (s.withPhase p).ctx.level = s.ctx.level := rfl

@[simp] theorem withPhase_format (s : State) (p : Phase) : (s.withPhase p).ctx.format = s.ctx.format := rfl

@[simp] theorem withPhase_crc (s : State) (p : Phase) : (s.withPhase p).ctx.crc = s.ctx.crc := rfl

@[simp] theorem withPhase_inputLen (s : State) (p : Phase) : (s.withPhase p).ctx.inputLen = s.ctx.inputLen := rfl

@[simp] theorem withPhase_bitQueue (s : State) (p : Phase) : (s.withPhase p).ctx.bitQueue = s.ctx.bitQueue := rfl

@[simp] theorem withPhase_bitCount (s : State) (p : Phase) : (s.withPhase p).ctx.bitCount = s.ctx.bitCount := rfl

@[simp] theorem withPhase_table (s : State) (p : Phase) : (s.withPhase p).ctx.table = s.ctx.table := rfl

@[simp] theorem withPhase_faulted (s : State) (p : Phase) : (s.withPhase p).faulted = s.faulted := rfl

@[simp] theorem withPhase_faultCause (s : State) (p : Phase) : (s.withPhase p).faultCause = s.faultCause := rfl

@[simp] theorem withPhase_work (s : State) (p : Phase) : (s.withPhase p).work = s.work := rfl

@[simp] theorem withPhase_operands (s : State) (p : Phase) : (s.withPhase p).operands = s.operands := rfl

@[simp] theorem withPhase_out (s : State) (p : Phase) : (s.withPhase p).out = s.out := rfl

@[simp] theorem withPhase_response (s : State) (p : Phase) : (s.withPhase p).response = s.response := rfl

@[simp] theorem withPhase_host (s : State) (p : Phase) : (s.withPhase p).host = s.host := rfl

@[simp] theorem withPhase_draws (s : State) (p : Phase) : (s.withPhase p).draws = s.draws := rfl


/-! ### `State.withCrc` -/

@[simp] theorem withCrc_phase (s : State) (c : Word) : (s.withCrc c).ctx.phase = s.ctx.phase := rfl

@[simp] theorem withCrc_level (s : State) (c : Word) : (s.withCrc c).ctx.level = s.ctx.level := rfl

@[simp] theorem withCrc_format (s : State) (c : Word) : (s.withCrc c).ctx.format = s.ctx.format := rfl

@[simp] theorem withCrc_crc (s : State) (c : Word) : (s.withCrc c).ctx.crc = c := rfl

@[simp] theorem withCrc_inputLen (s : State) (c : Word) : (s.withCrc c).ctx.inputLen = s.ctx.inputLen := rfl

@[simp] theorem withCrc_bitQueue (s : State) (c : Word) : (s.withCrc c).ctx.bitQueue = s.ctx.bitQueue := rfl

@[simp] theorem withCrc_bitCount (s : State) (c : Word) : (s.withCrc c).ctx.bitCount = s.ctx.bitCount := rfl

@[simp] theorem withCrc_table (s : State) (c : Word) : (s.withCrc c).ctx.table = s.ctx.table := rfl

@[simp] theorem withCrc_faulted (s : State) (c : Word) : (s.withCrc c).faulted = s.faulted := rfl

@[simp] theorem withCrc_faultCause (s : State) (c : Word) : (s.withCrc c).faultCause = s.faultCause := rfl

@[simp] theorem withCrc_work (s : State) (c : Word) : (s.withCrc c).work = s.work := rfl

@[simp] theorem withCrc_operands (s : State) (c : Word) : (s.withCrc c).operands = s.operands := rfl

@[simp] theorem withCrc_out (s : State) (c : Word) : (s.withCrc c).out = s.out := rfl

@[simp] theorem withCrc_response (s : State) (c : Word) : (s.withCrc c).response = s.response := rfl

@[simp] theorem withCrc_host (s : State) (c : Word) : (s.withCrc c).host = s.host := rfl

@[simp] theorem withCrc_draws (s : State) (c : Word) : (s.withCrc c).draws = s.draws := rfl


/-! ### `State.withInputLen` -/

@[simp] theorem withInputLen_phase (s : State) (n : Position) : (s.withInputLen n).ctx.phase = s.ctx.phase := rfl

@[simp] theorem withInputLen_level (s : State) (n : Position) : (s.withInputLen n).ctx.level = s.ctx.level := rfl

@[simp] theorem withInputLen_format (s : State) (n : Position) : (s.withInputLen n).ctx.format = s.ctx.format := rfl

@[simp] theorem withInputLen_crc (s : State) (n : Position) : (s.withInputLen n).ctx.crc = s.ctx.crc := rfl

@[simp] theorem withInputLen_inputLen (s : State) (n : Position) : (s.withInputLen n).ctx.inputLen = n := rfl

@[simp] theorem withInputLen_bitQueue (s : State) (n : Position) : (s.withInputLen n).ctx.bitQueue = s.ctx.bitQueue := rfl

@[simp] theorem withInputLen_bitCount (s : State) (n : Position) : (s.withInputLen n).ctx.bitCount = s.ctx.bitCount := rfl

@[simp] theorem withInputLen_table (s : State) (n : Position) : (s.withInputLen n).ctx.table = s.ctx.table := rfl

@[simp] theorem withInputLen_faulted (s : State) (n : Position) : (s.withInputLen n).faulted = s.faulted := rfl

@[simp] theorem withInputLen_faultCause (s : State) (n : Position) : (s.withInputLen n).faultCause = s.faultCause := rfl

@[simp] theorem withInputLen_work (s : State) (n : Position) : (s.withInputLen n).work = s.work := rfl

@[simp] theorem withInputLen_operands (s : State) (n : Position) : (s.withInputLen n).operands = s.operands := rfl

@[simp] theorem withInputLen_out (s : State) (n : Position) : (s.withInputLen n).out = s.out := rfl

@[simp] theorem withInputLen_response (s : State) (n : Position) : (s.withInputLen n).response = s.response := rfl

@[simp] theorem withInputLen_host (s : State) (n : Position) : (s.withInputLen n).host = s.host := rfl

@[simp] theorem withInputLen_draws (s : State) (n : Position) : (s.withInputLen n).draws = s.draws := rfl


/-! ### `State.withQueue` -/

@[simp] theorem withQueue_phase (s : State) (q : Word) (n : BitVec 5) : (s.withQueue q n).ctx.phase = s.ctx.phase := rfl

@[simp] theorem withQueue_level (s : State) (q : Word) (n : BitVec 5) : (s.withQueue q n).ctx.level = s.ctx.level := rfl

@[simp] theorem withQueue_format (s : State) (q : Word) (n : BitVec 5) : (s.withQueue q n).ctx.format = s.ctx.format := rfl

@[simp] theorem withQueue_crc (s : State) (q : Word) (n : BitVec 5) : (s.withQueue q n).ctx.crc = s.ctx.crc := rfl

@[simp] theorem withQueue_inputLen (s : State) (q : Word) (n : BitVec 5) : (s.withQueue q n).ctx.inputLen = s.ctx.inputLen := rfl

@[simp] theorem withQueue_bitQueue (s : State) (q : Word) (n : BitVec 5) : (s.withQueue q n).ctx.bitQueue = q := rfl

@[simp] theorem withQueue_bitCount (s : State) (q : Word) (n : BitVec 5) : (s.withQueue q n).ctx.bitCount = n := rfl

@[simp] theorem withQueue_table (s : State) (q : Word) (n : BitVec 5) : (s.withQueue q n).ctx.table = s.ctx.table := rfl

@[simp] theorem withQueue_faulted (s : State) (q : Word) (n : BitVec 5) : (s.withQueue q n).faulted = s.faulted := rfl

@[simp] theorem withQueue_faultCause (s : State) (q : Word) (n : BitVec 5) : (s.withQueue q n).faultCause = s.faultCause := rfl

@[simp] theorem withQueue_work (s : State) (q : Word) (n : BitVec 5) : (s.withQueue q n).work = s.work := rfl

@[simp] theorem withQueue_operands (s : State) (q : Word) (n : BitVec 5) : (s.withQueue q n).operands = s.operands := rfl

@[simp] theorem withQueue_out (s : State) (q : Word) (n : BitVec 5) : (s.withQueue q n).out = s.out := rfl

@[simp] theorem withQueue_response (s : State) (q : Word) (n : BitVec 5) : (s.withQueue q n).response = s.response := rfl

@[simp] theorem withQueue_host (s : State) (q : Word) (n : BitVec 5) : (s.withQueue q n).host = s.host := rfl

@[simp] theorem withQueue_draws (s : State) (q : Word) (n : BitVec 5) : (s.withQueue q n).draws = s.draws := rfl


/-! ### `State.withSlot` -/

@[simp] theorem withSlot_phase (s : State) (h : BitVec 13) (x : Slot) : (s.withSlot h x).ctx.phase = s.ctx.phase := rfl

@[simp] theorem withSlot_level (s : State) (h : BitVec 13) (x : Slot) : (s.withSlot h x).ctx.level = s.ctx.level := rfl

@[simp] theorem withSlot_format (s : State) (h : BitVec 13) (x : Slot) : (s.withSlot h x).ctx.format = s.ctx.format := rfl

@[simp] theorem withSlot_crc (s : State) (h : BitVec 13) (x : Slot) : (s.withSlot h x).ctx.crc = s.ctx.crc := rfl

@[simp] theorem withSlot_inputLen (s : State) (h : BitVec 13) (x : Slot) : (s.withSlot h x).ctx.inputLen = s.ctx.inputLen := rfl

@[simp] theorem withSlot_bitQueue (s : State) (h : BitVec 13) (x : Slot) : (s.withSlot h x).ctx.bitQueue = s.ctx.bitQueue := rfl

@[simp] theorem withSlot_bitCount (s : State) (h : BitVec 13) (x : Slot) : (s.withSlot h x).ctx.bitCount = s.ctx.bitCount := rfl

@[simp] theorem withSlot_table (s : State) (h : BitVec 13) (x : Slot) : (s.withSlot h x).ctx.table = Table.put s.ctx.table h x := rfl

@[simp] theorem withSlot_faulted (s : State) (h : BitVec 13) (x : Slot) : (s.withSlot h x).faulted = s.faulted := rfl

@[simp] theorem withSlot_faultCause (s : State) (h : BitVec 13) (x : Slot) : (s.withSlot h x).faultCause = s.faultCause := rfl

@[simp] theorem withSlot_work (s : State) (h : BitVec 13) (x : Slot) : (s.withSlot h x).work = s.work := rfl

@[simp] theorem withSlot_operands (s : State) (h : BitVec 13) (x : Slot) : (s.withSlot h x).operands = s.operands := rfl

@[simp] theorem withSlot_out (s : State) (h : BitVec 13) (x : Slot) : (s.withSlot h x).out = s.out := rfl

@[simp] theorem withSlot_response (s : State) (h : BitVec 13) (x : Slot) : (s.withSlot h x).response = s.response := rfl

@[simp] theorem withSlot_host (s : State) (h : BitVec 13) (x : Slot) : (s.withSlot h x).host = s.host := rfl

@[simp] theorem withSlot_draws (s : State) (h : BitVec 13) (x : Slot) : (s.withSlot h x).draws = s.draws := rfl


/-! ### `State.withScan` -/

@[simp] theorem withScan_ctx (s : State) (pos plit bit9 : Word) : (s.withScan pos plit bit9).ctx = s.ctx := rfl

@[simp] theorem withScan_faulted (s : State) (pos plit bit9 : Word) : (s.withScan pos plit bit9).faulted = s.faulted := rfl

@[simp] theorem withScan_faultCause (s : State) (pos plit bit9 : Word) : (s.withScan pos plit bit9).faultCause = s.faultCause := rfl

@[simp] theorem withScan_cursor (s : State) (pos plit bit9 : Word) : (s.withScan pos plit bit9).work.cursor = s.work.cursor := rfl

@[simp] theorem withScan_ocap (s : State) (pos plit bit9 : Word) : (s.withScan pos plit bit9).work.ocap = s.work.ocap := rfl

@[simp] theorem withScan_more (s : State) (pos plit bit9 : Word) : (s.withScan pos plit bit9).work.more = s.work.more := rfl

@[simp] theorem withScan_ilen (s : State) (pos plit bit9 : Word) : (s.withScan pos plit bit9).work.ilen = s.work.ilen := rfl

@[simp] theorem withScan_base (s : State) (pos plit bit9 : Word) : (s.withScan pos plit bit9).work.base = s.work.base := rfl

@[simp] theorem withScan_pos (s : State) (pos plit bit9 : Word) : (s.withScan pos plit bit9).work.pos = pos := rfl

@[simp] theorem withScan_plit (s : State) (pos plit bit9 : Word) : (s.withScan pos plit bit9).work.plit = plit := rfl

@[simp] theorem withScan_bit9 (s : State) (pos plit bit9 : Word) : (s.withScan pos plit bit9).work.bit9 = bit9 := rfl

@[simp] theorem withScan_operands (s : State) (pos plit bit9 : Word) : (s.withScan pos plit bit9).operands = s.operands := rfl

@[simp] theorem withScan_out (s : State) (pos plit bit9 : Word) : (s.withScan pos plit bit9).out = s.out := rfl

@[simp] theorem withScan_response (s : State) (pos plit bit9 : Word) : (s.withScan pos plit bit9).response = s.response := rfl

@[simp] theorem withScan_host (s : State) (pos plit bit9 : Word) : (s.withScan pos plit bit9).host = s.host := rfl

@[simp] theorem withScan_draws (s : State) (pos plit bit9 : Word) : (s.withScan pos plit bit9).draws = s.draws := rfl


/-! ### `State.writeOut` -/

@[simp] theorem writeOut_ctx (s : State) (b : Byte) : (s.writeOut b).ctx = s.ctx := rfl

@[simp] theorem writeOut_faulted (s : State) (b : Byte) : (s.writeOut b).faulted = s.faulted := rfl

@[simp] theorem writeOut_faultCause (s : State) (b : Byte) : (s.writeOut b).faultCause = s.faultCause := rfl

@[simp] theorem writeOut_cursor (s : State) (b : Byte) : (s.writeOut b).work.cursor = s.work.cursor + 1#32 := rfl

@[simp] theorem writeOut_ocap (s : State) (b : Byte) : (s.writeOut b).work.ocap = s.work.ocap := rfl

@[simp] theorem writeOut_more (s : State) (b : Byte) : (s.writeOut b).work.more = s.work.more := rfl

@[simp] theorem writeOut_ilen (s : State) (b : Byte) : (s.writeOut b).work.ilen = s.work.ilen := rfl

@[simp] theorem writeOut_base (s : State) (b : Byte) : (s.writeOut b).work.base = s.work.base := rfl

@[simp] theorem writeOut_pos (s : State) (b : Byte) : (s.writeOut b).work.pos = s.work.pos := rfl

@[simp] theorem writeOut_plit (s : State) (b : Byte) : (s.writeOut b).work.plit = s.work.plit := rfl

@[simp] theorem writeOut_bit9 (s : State) (b : Byte) : (s.writeOut b).work.bit9 = s.work.bit9 := rfl

@[simp] theorem writeOut_operands (s : State) (b : Byte) : (s.writeOut b).operands = s.operands := rfl

@[simp] theorem writeOut_out (s : State) (b : Byte) : (s.writeOut b).out = Memory.write s.out s.work.cursor.toNat b := rfl

@[simp] theorem writeOut_response (s : State) (b : Byte) : (s.writeOut b).response = s.response := rfl

@[simp] theorem writeOut_host (s : State) (b : Byte) : (s.writeOut b).host = s.host := rfl

@[simp] theorem writeOut_draws (s : State) (b : Byte) : (s.writeOut b).draws = s.draws := rfl


/-! ### `beginEncode` -/

@[simp] theorem beginEncode_ctx (more : Bool) (s : State) : (beginEncode more s).ctx = s.ctx := rfl

@[simp] theorem beginEncode_faulted (more : Bool) (s : State) : (beginEncode more s).faulted = s.faulted := rfl

@[simp] theorem beginEncode_faultCause (more : Bool) (s : State) : (beginEncode more s).faultCause = s.faultCause := rfl

@[simp] theorem beginEncode_cursor (more : Bool) (s : State) : (beginEncode more s).work.cursor = 0#32 := rfl

@[simp] theorem beginEncode_ocap (more : Bool) (s : State) : (beginEncode more s).work.ocap = s.operands.ocap := rfl

@[simp] theorem beginEncode_more (more : Bool) (s : State) : (beginEncode more s).work.more = more := rfl

@[simp] theorem beginEncode_ilen (more : Bool) (s : State) : (beginEncode more s).work.ilen = s.operands.ilen := rfl

@[simp] theorem beginEncode_base (more : Bool) (s : State) : (beginEncode more s).work.base = s.ctx.inputLen := rfl

@[simp] theorem beginEncode_pos (more : Bool) (s : State) : (beginEncode more s).work.pos = 0#32 := rfl

@[simp] theorem beginEncode_plit (more : Bool) (s : State) : (beginEncode more s).work.plit = 0#32 := rfl

@[simp] theorem beginEncode_bit9 (more : Bool) (s : State) : (beginEncode more s).work.bit9 = 0#32 := rfl

@[simp] theorem beginEncode_operands (more : Bool) (s : State) : (beginEncode more s).operands = s.operands := rfl

@[simp] theorem beginEncode_out (more : Bool) (s : State) : (beginEncode more s).out = [] := rfl

@[simp] theorem beginEncode_response (more : Bool) (s : State) : (beginEncode more s).response = s.response := rfl

@[simp] theorem beginEncode_host (more : Bool) (s : State) : (beginEncode more s).host = s.host := rfl

@[simp] theorem beginEncode_draws (more : Bool) (s : State) : (beginEncode more s).draws = s.draws := rfl


/-! ### `beginFinish` -/

@[simp] theorem beginFinish_ctx (s : State) : (beginFinish s).ctx = s.ctx := rfl

@[simp] theorem beginFinish_faulted (s : State) : (beginFinish s).faulted = s.faulted := rfl

@[simp] theorem beginFinish_faultCause (s : State) : (beginFinish s).faultCause = s.faultCause := rfl

@[simp] theorem beginFinish_cursor (s : State) : (beginFinish s).work.cursor = 0#32 := rfl

@[simp] theorem beginFinish_ocap (s : State) : (beginFinish s).work.ocap = s.operands.ocap := rfl

@[simp] theorem beginFinish_more (s : State) : (beginFinish s).work.more = s.work.more := rfl

@[simp] theorem beginFinish_ilen (s : State) : (beginFinish s).work.ilen = s.work.ilen := rfl

@[simp] theorem beginFinish_base (s : State) : (beginFinish s).work.base = s.work.base := rfl

@[simp] theorem beginFinish_pos (s : State) : (beginFinish s).work.pos = s.work.pos := rfl

@[simp] theorem beginFinish_plit (s : State) : (beginFinish s).work.plit = s.work.plit := rfl

@[simp] theorem beginFinish_bit9 (s : State) : (beginFinish s).work.bit9 = s.work.bit9 := rfl

@[simp] theorem beginFinish_operands (s : State) : (beginFinish s).operands = s.operands := rfl

@[simp] theorem beginFinish_out (s : State) : (beginFinish s).out = [] := rfl

@[simp] theorem beginFinish_response (s : State) : (beginFinish s).response = s.response := rfl

@[simp] theorem beginFinish_host (s : State) : (beginFinish s).host = s.host := rfl

@[simp] theorem beginFinish_draws (s : State) : (beginFinish s).draws = s.draws := rfl


/-! ### `takeFault` -/

@[simp] theorem takeFault_ctx (cause : Cause) (s : State) : (takeFault cause s).ctx = s.ctx := rfl

@[simp] theorem takeFault_faulted (cause : Cause) (s : State) : (takeFault cause s).faulted = true := rfl

@[simp] theorem takeFault_faultCause (cause : Cause) (s : State) : (takeFault cause s).faultCause = cause.code := rfl

@[simp] theorem takeFault_work (cause : Cause) (s : State) : (takeFault cause s).work = s.work := rfl

@[simp] theorem takeFault_operands (cause : Cause) (s : State) : (takeFault cause s).operands = s.operands := rfl

@[simp] theorem takeFault_out (cause : Cause) (s : State) : (takeFault cause s).out = s.out := rfl

@[simp] theorem takeFault_response (cause : Cause) (s : State) : (takeFault cause s).response = some ⟨cause.code, Config.freeBytesWritten s.draws⟩ := rfl

@[simp] theorem takeFault_host (cause : Cause) (s : State) : (takeFault cause s).host = s.host := rfl

@[simp] theorem takeFault_draws (cause : Cause) (s : State) : (takeFault cause s).draws = s.draws + 1 := rfl


/-! ### `takeOverflow` -/

@[simp] theorem takeOverflow_ctx (s : State) : (takeOverflow s).ctx = freeContext s.draws := rfl

@[simp] theorem takeOverflow_faulted (s : State) : (takeOverflow s).faulted = true := rfl

@[simp] theorem takeOverflow_faultCause (s : State) : (takeOverflow s).faultCause = 7#4 := rfl

@[simp] theorem takeOverflow_work (s : State) : (takeOverflow s).work = freeTransient s.draws := rfl

@[simp] theorem takeOverflow_operands (s : State) : (takeOverflow s).operands = s.operands := rfl

@[simp] theorem takeOverflow_out (s : State) : (takeOverflow s).out = s.out := rfl

@[simp] theorem takeOverflow_response (s : State) : (takeOverflow s).response = some ⟨7#4, Config.freeBytesWritten s.draws⟩ := rfl

@[simp] theorem takeOverflow_host (s : State) : (takeOverflow s).host = s.host := rfl

@[simp] theorem takeOverflow_draws (s : State) : (takeOverflow s).draws = s.draws + 1 := rfl


/-! ### `refuseFaulted` -/

@[simp] theorem refuseFaulted_ctx (s : State) : (refuseFaulted s).ctx = s.ctx := rfl

@[simp] theorem refuseFaulted_faulted (s : State) : (refuseFaulted s).faulted = s.faulted := rfl

@[simp] theorem refuseFaulted_faultCause (s : State) : (refuseFaulted s).faultCause = s.faultCause := rfl

@[simp] theorem refuseFaulted_work (s : State) : (refuseFaulted s).work = s.work := rfl

@[simp] theorem refuseFaulted_operands (s : State) : (refuseFaulted s).operands = s.operands := rfl

@[simp] theorem refuseFaulted_out (s : State) : (refuseFaulted s).out = s.out := rfl

@[simp] theorem refuseFaulted_response (s : State) : (refuseFaulted s).response = some ⟨s.faultCause, Config.freeBytesWritten s.draws⟩ := rfl

@[simp] theorem refuseFaulted_host (s : State) : (refuseFaulted s).host = s.host := rfl

@[simp] theorem refuseFaulted_draws (s : State) : (refuseFaulted s).draws = s.draws + 1 := rfl


/-! ### `complete` -/

@[simp] theorem complete_ctx (s : State) : (complete s).ctx = s.ctx := rfl

@[simp] theorem complete_faulted (s : State) : (complete s).faulted = s.faulted := rfl

@[simp] theorem complete_faultCause (s : State) : (complete s).faultCause = s.faultCause := rfl

@[simp] theorem complete_work (s : State) : (complete s).work = freeTransient s.draws := rfl

@[simp] theorem complete_operands (s : State) : (complete s).operands = s.operands := rfl

@[simp] theorem complete_out (s : State) : (complete s).out = s.out := rfl

@[simp] theorem complete_response (s : State) : (complete s).response = some ⟨statusOk, s.work.cursor⟩ := rfl

@[simp] theorem complete_host (s : State) : (complete s).host = s.host := rfl

@[simp] theorem complete_draws (s : State) : (complete s).draws = s.draws + 1 := rfl


/-! ### `completeInit` -/

@[simp] theorem completeInit_ctx (s : State) : (completeInit s).ctx = s.ctx := rfl

@[simp] theorem completeInit_faulted (s : State) : (completeInit s).faulted = s.faulted := rfl

@[simp] theorem completeInit_faultCause (s : State) : (completeInit s).faultCause = s.faultCause := rfl

@[simp] theorem completeInit_work (s : State) : (completeInit s).work = s.work := rfl

@[simp] theorem completeInit_operands (s : State) : (completeInit s).operands = s.operands := rfl

@[simp] theorem completeInit_out (s : State) : (completeInit s).out = s.out := rfl

@[simp] theorem completeInit_response (s : State) : (completeInit s).response = some ⟨statusOk, 0#32⟩ := rfl

@[simp] theorem completeInit_host (s : State) : (completeInit s).host = s.host := rfl

@[simp] theorem completeInit_draws (s : State) : (completeInit s).draws = s.draws := rfl


/-! ### `hardwareReset` -/

@[simp] theorem hardwareReset_ctx (s : State) : (hardwareReset s).ctx = Context.reset := rfl

@[simp] theorem hardwareReset_faulted (s : State) : (hardwareReset s).faulted = false := rfl

@[simp] theorem hardwareReset_faultCause (s : State) : (hardwareReset s).faultCause = 0#4 := rfl

@[simp] theorem hardwareReset_work (s : State) : (hardwareReset s).work = Transient.reset := rfl

@[simp] theorem hardwareReset_operands (s : State) : (hardwareReset s).operands = s.operands := rfl

@[simp] theorem hardwareReset_out (s : State) : (hardwareReset s).out = s.out := rfl

@[simp] theorem hardwareReset_response (s : State) : (hardwareReset s).response = none := rfl

@[simp] theorem hardwareReset_host (s : State) : (hardwareReset s).host = s.host := rfl

@[simp] theorem hardwareReset_draws (s : State) : (hardwareReset s).draws = s.draws := rfl


/-! ### `breachOverflows` -/

@[simp] theorem breachOverflows_ctx (s : State) : (breachOverflows s).ctx = freeContext s.draws := rfl

@[simp] theorem breachOverflows_faulted (s : State) : (breachOverflows s).faulted = true := rfl

@[simp] theorem breachOverflows_faultCause (s : State) : (breachOverflows s).faultCause = 7#4 := rfl

@[simp] theorem breachOverflows_work (s : State) : (breachOverflows s).work = freeTransient s.draws := rfl

@[simp] theorem breachOverflows_operands (s : State) : (breachOverflows s).operands = s.operands := rfl

@[simp] theorem breachOverflows_out (s : State) : (breachOverflows s).out = freeWindow s.draws s.operands.ocap.toNat := rfl

@[simp] theorem breachOverflows_response (s : State) : (breachOverflows s).response = some ⟨7#4, Config.freeBytesWritten s.draws⟩ := rfl

@[simp] theorem breachOverflows_host (s : State) : (breachOverflows s).host = s.host := rfl

@[simp] theorem breachOverflows_draws (s : State) : (breachOverflows s).draws = s.draws + 1 := rfl


/-! ### `breachCompletes` -/

@[simp] theorem breachCompletes_ctx (s : State) : (breachCompletes s).ctx = legalContext (freeContext s.draws) := rfl

@[simp] theorem breachCompletes_faulted (s : State) : (breachCompletes s).faulted = s.faulted := rfl

@[simp] theorem breachCompletes_faultCause (s : State) : (breachCompletes s).faultCause = s.faultCause := rfl

@[simp] theorem breachCompletes_work (s : State) : (breachCompletes s).work = freeTransient s.draws := rfl

@[simp] theorem breachCompletes_operands (s : State) : (breachCompletes s).operands = s.operands := rfl

@[simp] theorem breachCompletes_out (s : State) : (breachCompletes s).out = freeWindow s.draws (freeCount s.draws s.operands.ocap).toNat := rfl

@[simp] theorem breachCompletes_response (s : State) : (breachCompletes s).response = some ⟨statusOk, freeCount s.draws s.operands.ocap⟩ := rfl

@[simp] theorem breachCompletes_host (s : State) : (breachCompletes s).host = s.host := rfl

@[simp] theorem breachCompletes_draws (s : State) : (breachCompletes s).draws = s.draws + 1 := rfl


/-! ### `acceptOperands` -/

@[simp] theorem acceptOperands_ctx (o : Operands) (s : State) : (acceptOperands o s).ctx = s.ctx := rfl

@[simp] theorem acceptOperands_faulted (o : Operands) (s : State) : (acceptOperands o s).faulted = s.faulted := rfl

@[simp] theorem acceptOperands_faultCause (o : Operands) (s : State) : (acceptOperands o s).faultCause = s.faultCause := rfl

@[simp] theorem acceptOperands_work (o : Operands) (s : State) : (acceptOperands o s).work = s.work := rfl

@[simp] theorem acceptOperands_operands (o : Operands) (s : State) : (acceptOperands o s).operands = o := rfl

@[simp] theorem acceptOperands_out (o : Operands) (s : State) : (acceptOperands o s).out = [] := rfl

@[simp] theorem acceptOperands_response (o : Operands) (s : State) : (acceptOperands o s).response = s.response := rfl

@[simp] theorem acceptOperands_host (o : Operands) (s : State) : (acceptOperands o s).host = s.host := rfl

@[simp] theorem acceptOperands_draws (o : Operands) (s : State) : (acceptOperands o s).draws = s.draws := rfl


/-! ### `State.issue` -/

@[simp] theorem issue_ctx (s : State) (c : HostCommand) : (s.issue c).ctx = s.ctx := rfl

@[simp] theorem issue_faulted (s : State) (c : HostCommand) : (s.issue c).faulted = s.faulted := rfl

@[simp] theorem issue_faultCause (s : State) (c : HostCommand) : (s.issue c).faultCause = s.faultCause := rfl

@[simp] theorem issue_work (s : State) (c : HostCommand) : (s.issue c).work = s.work := rfl

@[simp] theorem issue_operands (s : State) (c : HostCommand) : (s.issue c).operands = s.operands := rfl

@[simp] theorem issue_out (s : State) (c : HostCommand) : (s.issue c).out = s.out := rfl

@[simp] theorem issue_response (s : State) (c : HostCommand) : (s.issue c).response = s.response := rfl

@[simp] theorem issue_host (s : State) (c : HostCommand) : (s.issue c).host = .command c :: s.host := rfl

@[simp] theorem issue_draws (s : State) (c : HostCommand) : (s.issue c).draws = s.draws := rfl


/-! ### `checksumPhase` -/

@[simp] theorem checksumPhase_phase (inp : List Byte) (s : State) : (checksumPhase inp s).ctx.phase = s.ctx.phase := rfl

@[simp] theorem checksumPhase_level (inp : List Byte) (s : State) : (checksumPhase inp s).ctx.level = s.ctx.level := rfl

@[simp] theorem checksumPhase_format (inp : List Byte) (s : State) : (checksumPhase inp s).ctx.format = s.ctx.format := rfl

@[simp] theorem checksumPhase_crc (inp : List Byte) (s : State) : (checksumPhase inp s).ctx.crc = checksum s.ctx.format s.ctx.crc inp := rfl

@[simp] theorem checksumPhase_inputLen (inp : List Byte) (s : State) : (checksumPhase inp s).ctx.inputLen = s.ctx.inputLen := rfl

@[simp] theorem checksumPhase_bitQueue (inp : List Byte) (s : State) : (checksumPhase inp s).ctx.bitQueue = s.ctx.bitQueue := rfl

@[simp] theorem checksumPhase_bitCount (inp : List Byte) (s : State) : (checksumPhase inp s).ctx.bitCount = s.ctx.bitCount := rfl

@[simp] theorem checksumPhase_table (inp : List Byte) (s : State) : (checksumPhase inp s).ctx.table = s.ctx.table := rfl

@[simp] theorem checksumPhase_faulted (inp : List Byte) (s : State) : (checksumPhase inp s).faulted = s.faulted := rfl

@[simp] theorem checksumPhase_faultCause (inp : List Byte) (s : State) : (checksumPhase inp s).faultCause = s.faultCause := rfl

@[simp] theorem checksumPhase_work (inp : List Byte) (s : State) : (checksumPhase inp s).work = s.work := rfl

@[simp] theorem checksumPhase_operands (inp : List Byte) (s : State) : (checksumPhase inp s).operands = s.operands := rfl

@[simp] theorem checksumPhase_out (inp : List Byte) (s : State) : (checksumPhase inp s).out = s.out := rfl

@[simp] theorem checksumPhase_response (inp : List Byte) (s : State) : (checksumPhase inp s).response = s.response := rfl

@[simp] theorem checksumPhase_host (inp : List Byte) (s : State) : (checksumPhase inp s).host = s.host := rfl

@[simp] theorem checksumPhase_draws (inp : List Byte) (s : State) : (checksumPhase inp s).draws = s.draws := rfl


end Sys2Proof.Machine.Laws
end

