-- ==== Sys2Proof/Laws/Memory.lean ====
section
/-! SUPPORT. The keyed lists behind OUT and the match table: reading back a write, leaving every other key alone, and the
canonical form, which every operation keeps. -/

namespace Sys2Proof.Machine.Laws

variable {α : Type}

theorem entryAt_setEntry_same (m : List (Nat × α)) (k : Nat) (x : α) : entryAt (setEntry m k x) k = some x := by
  induction m with
  | nil => simp [setEntry, entryAt]
  | cons e rest ih =>
    obtain ⟨a, y⟩ := e
    simp only [setEntry]
    split
    · simp [entryAt]
    · split
      · simp [entryAt]
      · rename_i h1 h2
        simp [entryAt, ih, Ne.symm h2]

theorem entryAt_setEntry_other (m : List (Nat × α)) {k a : Nat} (x : α) (h : a ≠ k) :
    entryAt (setEntry m k x) a = entryAt m a := by
  induction m with
  | nil => simp [setEntry, entryAt, Ne.symm h]
  | cons e rest ih =>
    obtain ⟨b, y⟩ := e
    simp only [setEntry]
    split
    · simp [entryAt, Ne.symm h]
    · split
      · rename_i _ hk
        subst hk
        simp [entryAt, Ne.symm h]
      · simp [entryAt, ih]

theorem mem_of_entryAt {m : List (Nat × α)} {k : Nat} {x : α} (h : entryAt m k = some x) : (k, x) ∈ m := by
  induction m with
  | nil => simp [entryAt] at h
  | cons e rest ih =>
    obtain ⟨a, y⟩ := e
    simp only [entryAt] at h
    split at h
    · rename_i ha
      obtain rfl := Option.some.inj h
      simp [ha]
    · exact List.mem_cons_of_mem _ (ih h)

theorem mem_setEntry {m : List (Nat × α)} {k : Nat} {x : α} {e : Nat × α} (h : e ∈ setEntry m k x) :
    e = (k, x) ∨ e ∈ m := by
  induction m with
  | nil => simpa [setEntry] using h
  | cons d rest ih =>
    obtain ⟨a, y⟩ := d
    simp only [setEntry] at h
    split at h
    · simpa using h
    · split at h
      · rcases List.mem_cons.1 h with h | h
        · exact .inl h
        · exact .inr (List.mem_cons_of_mem _ h)
      · rcases List.mem_cons.1 h with h | h
        · exact .inr (h ▸ List.mem_cons_self)
        · exact (ih h).imp_right (List.mem_cons_of_mem _)

/-- A rising list: its first key is below every other key, and the rest is rising. -/
theorem rising_cons {a : Nat} {y : α} {rest : List (Nat × α)} :
    Rising ((a, y) :: rest) ↔ (∀ e ∈ rest, a < e.1) ∧ Rising rest := by
  simp [Rising, List.pairwise_cons]

theorem setEntry_rising {m : List (Nat × α)} (k : Nat) (x : α) (h : Rising m) : Rising (setEntry m k x) := by
  induction m with
  | nil => simp [setEntry, Rising]
  | cons e rest ih =>
    obtain ⟨a, y⟩ := e
    obtain ⟨hlt, hrest⟩ := rising_cons.1 h
    simp only [setEntry]
    split
    · rename_i hk
      refine rising_cons.2 ⟨fun e he => ?_, h⟩
      rcases List.mem_cons.1 he with rfl | he
      · exact hk
      · exact hk.trans (hlt e he)
    · split
      · rename_i hk
        exact rising_cons.2 ⟨fun e he => hk ▸ hlt e he, hrest⟩
      · rename_i h1 h2
        refine rising_cons.2 ⟨fun e he => ?_, ih hrest⟩
        rcases mem_setEntry he with rfl | he
        · show a < k
          omega
        · exact hlt e he

/-- In a rising list, the entry of a key is the pair that stands there. -/
theorem entryAt_of_mem {m : List (Nat × α)} {k : Nat} {x : α} (hm : Rising m) (h : (k, x) ∈ m) :
    entryAt m k = some x := by
  induction m with
  | nil => simp at h
  | cons e rest ih =>
    obtain ⟨a, y⟩ := e
    obtain ⟨hlt, hrest⟩ := rising_cons.1 hm
    rcases List.mem_cons.1 h with h | h
    · obtain ⟨rfl, rfl⟩ := Prod.mk.inj h
      simp [entryAt]
    · have := hlt _ h
      have hne : a ≠ k := by
        intro hak
        subst hak
        exact absurd this (Nat.lt_irrefl _)
      simp [entryAt, hne, ih hrest h]

/-! ### OUT -/

@[simp] theorem memory_read_write_same (m : Memory) (a : Nat) (b : Byte) :
    Memory.read (Memory.write m a b) a = some b :=
  entryAt_setEntry_same m a b

theorem memory_read_write_other (m : Memory) {a i : Nat} (b : Byte) (h : i ≠ a) :
    Memory.read (Memory.write m a b) i = Memory.read m i :=
  entryAt_setEntry_other m b h

/-- Every write to OUT keeps the canonical form. -/
theorem memory_write_wf {m : Memory} (a : Nat) (b : Byte) (h : Memory.wf m) : Memory.wf (Memory.write m a b) :=
  setEntry_rising a b h

/-- The memory of the reset state has the canonical form. -/
theorem reset_out_wf : Memory.wf State.reset.out := List.Pairwise.nil

/-- A window of free bytes has the canonical form. -/
theorem freeWindow_wf (draw n : Nat) : Memory.wf (freeWindow draw n) := by
  simp only [Memory.wf, Rising, freeWindow, List.map_map, Function.comp_def, List.map_id']
  exact List.pairwise_lt_range

/-! ### The match table -/

@[simp] theorem table_slot_put_same (t : Table) (h : BitVec 13) (x : Slot) : Table.slot (Table.put t h x) h = some x :=
  entryAt_setEntry_same t h.toNat x

theorem table_slot_put_other (t : Table) {h g : BitVec 13} (x : Slot) (hg : g ≠ h) :
    Table.slot (Table.put t h x) g = Table.slot t g :=
  entryAt_setEntry_other t x fun e => hg (BitVec.eq_of_toNat_eq e)

/-- Every write to the match table keeps its canonical form. -/
theorem table_put_wf {t : Table} (h : BitVec 13) (x : Slot) (ht : Table.wf t) : Table.wf (Table.put t h x) := by
  refine ⟨setEntry_rising _ _ ht.1, fun e he => ?_⟩
  rcases mem_setEntry he with rfl | he
  · exact h.isLt
  · exact ht.2 e he

/-- Dropping slots keeps the canonical form. -/
theorem table_filter_wf {t : Table} (p : Nat × Slot → Bool) (ht : Table.wf t) : Table.wf (t.filter p) :=
  ⟨ht.1.sublist (List.filter_sublist.map _), fun e he => ht.2 e (List.mem_of_mem_filter he)⟩

/-- Bringing a context to legal values keeps the canonical form of its table. -/
theorem legalTable_wf {c : Context} (h : Table.wf c.table) : Table.wf (legalTable c) := by
  unfold legalTable
  split
  · exact ⟨List.Pairwise.nil, fun _ he => absurd he List.not_mem_nil⟩
  · exact table_filter_wf _ h

theorem reset_table_wf : Table.wf State.reset.ctx.table :=
  ⟨List.Pairwise.nil, fun _ he => absurd he List.not_mem_nil⟩

theorem filterMap_indexed_rising (f : Nat → Option α) (l : List Nat) (hl : l.Pairwise (· < ·)) :
    Rising (l.filterMap fun h => (f h).map fun x => (h, x)) ∧
      ∀ e ∈ l.filterMap (fun h => (f h).map fun x => (h, x)), e.1 ∈ l := by
  induction l with
  | nil => simp [Rising]
  | cons a rest ih =>
    obtain ⟨hlt, hrest⟩ := List.pairwise_cons.1 hl
    obtain ⟨ihr, ihm⟩ := ih hrest
    cases hf : f a with
    | none =>
      simp only [List.filterMap_cons, hf, Option.map_none]
      exact ⟨ihr, fun e he => List.mem_cons_of_mem _ (ihm e he)⟩
    | some x =>
      simp only [List.filterMap_cons, hf, Option.map_some]
      refine ⟨rising_cons.2 ⟨fun e he => hlt _ (ihm e he), ihr⟩, fun e he => ?_⟩
      rcases List.mem_cons.1 he with rfl | he
      · exact List.mem_cons_self
      · exact List.mem_cons_of_mem _ (ihm e he)

/-- The free table of an OutputOverflow has the canonical form. -/
theorem freeTable_wf (n : Nat) : Table.wf (freeTable n) := by
  have h := filterMap_indexed_rising (fun h => (Config.freeSlot n h).map fun x => (⟨x.1, x.2⟩ : Slot))
    (List.range tableSlots) List.pairwise_lt_range
  have e : freeTable n = (List.range tableSlots).filterMap
      fun h => ((Config.freeSlot n h).map fun x => (⟨x.1, x.2⟩ : Slot)).map fun x => (h, x) := by
    simp [freeTable, Option.map_map, Function.comp_def]
  rw [e]
  exact ⟨h.1, fun d hd => by simpa [tableSlots] using h.2 d hd⟩

/-- The free context holds the free table. -/
@[simp] theorem freeContext_table (n : Nat) : (freeContext n).table = freeTable n := by
  simp only [freeContext]

theorem freeContext_table_wf (n : Nat) : Table.wf (freeContext n).table := by
  rw [freeContext_table]
  exact freeTable_wf n

/-- The context an ENCODE under a breach leaves has its table in the canonical form. -/
theorem breachCompletes_table_wf (s : State) : Table.wf (breachCompletes s).ctx.table := by
  rw [breachCompletes_ctx]
  exact legalTable_wf (freeContext_table_wf s.draws)

end Sys2Proof.Machine.Laws
end

