-- ==== Sys2Proof/Laws/Flow.lean ====
section
/-! SUPPORT. How internal operations compose, and what every one of them leaves unchanged. `Emits` is the frame of the
operations that only send bits and change `state`; `Kept` is the frame of the match finder, which also writes the table
and the scan registers. -/

namespace Sys2Proof.Machine.Laws

@[simp] theorem bind_run (s : State) (f : State → Flow) : (Flow.run s).bind f = f s := rfl
@[simp] theorem bind_overflow (s : State) (f : State → Flow) : (Flow.overflow s).bind f = .overflow s := rfl
@[simp] theorem bind_stopped (e : Fault) (f : State → Flow) : (Flow.stopped e).bind f = .stopped e := rfl
@[simp] theorem bind_refused (r : Refusal) (f : State → Flow) : (Flow.refused r).bind f = .refused r := rfl

theorem bind_assoc (x : Flow) (f g : State → Flow) : (x.bind f).bind g = x.bind fun s => (f s).bind g := by
  cases x <;> rfl

/-- A sequence runs to its end exactly when both of its parts do. -/
theorem bind_eq_run {x : Flow} {f : State → Flow} {s' : State} :
    x.bind f = .run s' ↔ ∃ m, x = .run m ∧ f m = .run s' := by
  cases x <;> simp

/-- A sequence overflows in its first part or, that one run, in its second. -/
theorem bind_eq_overflow {x : Flow} {f : State → Flow} {s' : State} :
    x.bind f = .overflow s' ↔ x = .overflow s' ∨ ∃ m, x = .run m ∧ f m = .overflow s' := by
  cases x <;> simp

theorem bind_eq_stopped {x : Flow} {f : State → Flow} {e : Fault} :
    x.bind f = .stopped e ↔ x = .stopped e ∨ ∃ m, x = .run m ∧ f m = .stopped e := by
  cases x <;> simp

theorem bind_eq_refused {x : Flow} {f : State → Flow} {r : Refusal} :
    x.bind f = .refused r ↔ x = .refused r ∨ ∃ m, x = .run m ∧ f m = .refused r := by
  cases x <;> simp

@[simp] theorem outcome_run (s : State) : (Flow.run s).outcome = .next (complete s) := rfl
@[simp] theorem outcome_overflow (s : State) : (Flow.overflow s).outcome = .next (takeOverflow s) := rfl
@[simp] theorem outcome_stopped (e : Fault) : (Flow.stopped e).outcome = .fault e := rfl
@[simp] theorem outcome_refused (r : Refusal) : (Flow.refused r).outcome = .refused r := rfl

/-- A command's body gives a next state by completing or by overflowing. -/
theorem outcome_eq_next {x : Flow} {t : State} :
    x.outcome = .next t ↔ (∃ s, x = .run s ∧ t = complete s) ∨ ∃ s, x = .overflow s ∧ t = takeOverflow s := by
  cases x <;> simp [eq_comm]

/-- What no internal operation changes. -/
structure Kept (s s' : State) : Prop where
  level : s'.ctx.level = s.ctx.level
  format : s'.ctx.format = s.ctx.format
  crc : s'.ctx.crc = s.ctx.crc
  inputLen : s'.ctx.inputLen = s.ctx.inputLen
  faulted : s'.faulted = s.faulted
  faultCause : s'.faultCause = s.faultCause
  operands : s'.operands = s.operands
  response : s'.response = s.response
  host : s'.host = s.host
  draws : s'.draws = s.draws
  ocap : s'.work.ocap = s.work.ocap
  more : s'.work.more = s.work.more
  ilen : s'.work.ilen = s.work.ilen
  base : s'.work.base = s.work.base

/-- What an operation that only sends bits and changes `state` does not change. -/
structure Emits (s s' : State) : Prop extends Kept s s' where
  table : s'.ctx.table = s.ctx.table
  pos : s'.work.pos = s.work.pos
  plit : s'.work.plit = s.work.plit
  bit9 : s'.work.bit9 = s.work.bit9

theorem Kept.refl (s : State) : Kept s s := by constructor <;> rfl

theorem Kept.trans {a b c : State} (h : Kept a b) (g : Kept b c) : Kept a c :=
  ⟨g.level.trans h.level, g.format.trans h.format, g.crc.trans h.crc, g.inputLen.trans h.inputLen,
   g.faulted.trans h.faulted, g.faultCause.trans h.faultCause, g.operands.trans h.operands,
   g.response.trans h.response, g.host.trans h.host, g.draws.trans h.draws, g.ocap.trans h.ocap,
   g.more.trans h.more, g.ilen.trans h.ilen, g.base.trans h.base⟩

theorem Emits.refl (s : State) : Emits s s := ⟨Kept.refl s, rfl, rfl, rfl, rfl⟩

theorem Emits.trans {a b c : State} (h : Emits a b) (g : Emits b c) : Emits a c :=
  ⟨h.toKept.trans g.toKept, g.table.trans h.table, g.pos.trans h.pos, g.plit.trans h.plit, g.bit9.trans h.bit9⟩

theorem emits_withPhase (s : State) (p : Phase) : Emits s (s.withPhase p) := by
  constructor <;> first | rfl | (constructor <;> rfl)

theorem emits_withQueue (s : State) (q : Word) (n : BitVec 5) : Emits s (s.withQueue q n) := by
  constructor <;> first | rfl | (constructor <;> rfl)

theorem emits_writeOut (s : State) (b : Byte) : Emits s (s.writeOut b) := by
  constructor <;> first | rfl | (constructor <;> rfl)

theorem kept_withScan (s : State) (pos plit bit9 : Word) : Kept s (s.withScan pos plit bit9) := by
  constructor <;> rfl

theorem kept_withSlot (s : State) (h : BitVec 13) (x : Slot) : Kept s (s.withSlot h x) := by
  constructor <;> rfl

/-- A relation holds between a state and every state an operation runs to or overflows in. -/
def Ends (R : State → State → Prop) (s : State) (x : Flow) : Prop :=
  ∀ s', x = .run s' ∨ x = .overflow s' → R s s'

section
variable {R : State → State → Prop}

theorem ends_run {s s' : State} (h : R s s') : Ends R s (.run s') := by
  rintro t (ht | ht)
  · exact (Flow.run.inj ht) ▸ h
  · cases ht

theorem ends_overflow {s s' : State} (h : R s s') : Ends R s (.overflow s') := by
  rintro t (ht | ht)
  · cases ht
  · exact (Flow.overflow.inj ht) ▸ h

theorem ends_stopped (s : State) (e : Fault) : Ends R s (.stopped e) := by
  rintro t (ht | ht) <;> cases ht

theorem ends_refused (s : State) (r : Refusal) : Ends R s (.refused r) := by
  rintro t (ht | ht) <;> cases ht

/-- A transitive relation that both parts of a sequence keep is kept by the sequence. -/
theorem ends_bind (htr : ∀ a b c, R a b → R b c → R a c) {s : State} {x : Flow} {f : State → Flow}
    (hx : Ends R s x) (hf : ∀ m, Ends R m (f m)) : Ends R s (x.bind f) := by
  cases x with
  | run m => exact fun t ht => htr _ _ _ (hx m (.inl rfl)) (hf m t ht)
  | overflow m => exact ends_overflow (hx m (.inr rfl))
  | stopped e => exact ends_stopped s e
  | refused r => exact ends_refused s r

theorem ends_of_start (htr : ∀ a b c, R a b → R b c → R a c) {s m : State} {x : Flow} (hs : R s m)
    (hx : Ends R m x) : Ends R s x := fun t ht => htr _ _ _ hs (hx t ht)
end

theorem emits_bind {s : State} {x : Flow} {f : State → Flow} (hx : Ends Emits s x) (hf : ∀ m, Ends Emits m (f m)) :
    Ends Emits s (x.bind f) := ends_bind (R := Emits) (fun _ _ _ h g => h.trans g) hx hf

theorem kept_bind {s : State} {x : Flow} {f : State → Flow} (hx : Ends Kept s x) (hf : ∀ m, Ends Kept m (f m)) :
    Ends Kept s (x.bind f) := ends_bind (R := Kept) (fun _ _ _ h g => h.trans g) hx hf

theorem kept_of_emits {s : State} {x : Flow} (h : Ends Emits s x) : Ends Kept s x :=
  fun t ht => (h t ht).toKept

end Sys2Proof.Machine.Laws
end

