-- ==== Sys2Proof/Laws/Queue.lean ====
section
/-! SUPPORT. What each operation of the bit queue, the Huffman emitters, the block state machine and the framer can do:
how it ends, and its frame. -/

namespace Sys2Proof.Machine.Laws

/-! ### OutByte (41_bit_queue.md R63) -/

theorem outByte_eq_run {b : Byte} {s s' : State} :
    outByte b s = .run s' ↔ s.work.cursor ≠ s.work.ocap ∧ s' = s.writeOut b := by
  unfold outByte
  split <;> simp_all [eq_comm]

theorem outByte_eq_overflow {b : Byte} {s s' : State} :
    outByte b s = .overflow s' ↔ s.work.cursor = s.work.ocap ∧ s' = s := by
  unfold outByte
  split <;> simp_all [eq_comm]

theorem outByte_emits (b : Byte) (s : State) : Ends Emits s (outByte b s) := by
  unfold outByte
  split
  · exact ends_overflow (Emits.refl s)
  · exact ends_run (emits_writeOut s b)

/-- OutByte writes one byte or overflows; it never stops the model. -/
theorem outByte_cases (b : Byte) (s : State) :
    (s.work.cursor = s.work.ocap ∧ outByte b s = .overflow s) ∨
      (s.work.cursor ≠ s.work.ocap ∧ outByte b s = .run (s.writeOut b)) := by
  unfold outByte
  split <;> simp_all

theorem outBytes_emits (bs : List Byte) (s : State) : Ends Emits s (outBytes bs s) := by
  induction bs generalizing s with
  | nil => exact ends_run (Emits.refl s)
  | cons b rest ih => exact emits_bind (outByte_emits b s) ih

@[simp] theorem outBytes_nil (s : State) : outBytes [] s = .run s := rfl

theorem outBytes_cons (b : Byte) (rest : List Byte) (s : State) :
    outBytes (b :: rest) s = (outByte b s).bind (outBytes rest) := rfl

theorem outBytes_append (as bs : List Byte) (s : State) :
    outBytes (as ++ bs) s = (outBytes as s).bind (outBytes bs) := by
  induction as generalizing s with
  | nil => rfl
  | cons a rest ih =>
    rw [List.cons_append, outBytes_cons, outBytes_cons, bind_assoc]
    congr 1
    exact funext ih

/-- The state after writing a list of bytes at the cursor. -/
def writeAll : List Byte → State → State
  | [], s => s
  | b :: rest, s => writeAll rest (s.writeOut b)

/-- With room for all of them, the bytes are written one after another. -/
theorem outBytes_fits {bs : List Byte} {s : State}
    (h : s.work.cursor.toNat + bs.length ≤ s.work.ocap.toNat) : outBytes bs s = .run (writeAll bs s) := by
  induction bs generalizing s with
  | nil => rfl
  | cons b rest ih =>
    have hlt : s.work.cursor.toNat + (rest.length + 1) ≤ s.work.ocap.toNat := h
    have hne : s.work.cursor ≠ s.work.ocap := fun e => by rw [e] at hlt; omega
    have hcur : (s.writeOut b).work.cursor.toNat = s.work.cursor.toNat + 1 := by
      rw [State.writeOut]
      have := s.work.ocap.isLt
      simp only [BitVec.toNat_add, BitVec.toNat_ofNat]
      omega
    have h' : (s.writeOut b).work.cursor.toNat + rest.length ≤ (s.writeOut b).work.ocap.toNat := by
      have : (s.writeOut b).work.ocap = s.work.ocap := rfl
      rw [hcur, this]
      omega
    rw [outBytes_cons, (outByte_eq_run (s' := s.writeOut b)).2 ⟨hne, rfl⟩, bind_run, ih h']
    rfl

/-! ### ENQUEUE and FLUSH_TO_BYTE (R64, R66) -/

theorem drain_emits (k : Nat) (s : State) : Ends Emits s (drain k s) := by
  induction k generalizing s with
  | zero => exact ends_run (Emits.refl s)
  | succ k ih =>
    unfold drain
    split
    · exact ends_run (Emits.refl s)
    · exact emits_bind (outByte_emits _ s) fun m =>
        ends_of_start (fun _ _ _ h g => h.trans g) (emits_withQueue m _ _) (ih _)

/-- Once fewer than 8 bits are pending the loop of ENQUEUE is over. -/
theorem drain_of_short {k : Nat} {s : State} (h : s.ctx.bitCount.toNat < 8) : drain k s = .run s := by
  cases k with
  | zero => rfl
  | succ k => simp [drain, h]

/-- A turn of the loop of ENQUEUE sends the low byte of the queue. -/
theorem drain_of_full {k : Nat} {s : State} (h : 8 ≤ s.ctx.bitCount.toNat) :
    drain (k + 1) s = (outByte (s.ctx.bitQueue.setWidth 8) s).bind fun m =>
      drain k (m.withQueue (m.ctx.bitQueue >>> 8) (m.ctx.bitCount - 8#5)) := by
  simp [drain, Nat.not_lt.2 h]

/-- ENQUEUE, under the precondition of R65 and R22, appends the field and sends the complete bytes. -/
theorem enqueue_of_fits {f : Field} {s : State} (hw : f.width ≤ 24) (hv : f.value.toNat < 2 ^ f.width)
    (hq : s.ctx.bitCount.toNat ≤ 7) :
    enqueue f s = drain 3 (s.withQueue (s.ctx.bitQueue ||| (f.value <<< s.ctx.bitCount.toNat))
      (s.ctx.bitCount + BitVec.ofNat 5 f.width)) := by
  have h1 : ¬ (maxEnqueue < f.width ∨ 2 ^ f.width ≤ f.value.toNat) := by
    simp only [maxEnqueue]
    omega
  have h2 : ¬ 7 < s.ctx.bitCount.toNat := by omega
  simp only [enqueue, h1, h2, if_false]

theorem enqueue_emits (f : Field) (s : State) : Ends Emits s (enqueue f s) := by
  unfold enqueue
  split
  · exact ends_refused s _
  · split
    · exact ends_refused s _
    · exact ends_of_start (fun _ _ _ h g => h.trans g) (emits_withQueue s _ _) (drain_emits 3 _)

theorem flushToByte_emits (s : State) : Ends Emits s (flushToByte s) := by
  unfold flushToByte
  refine emits_bind ?_ fun m => ends_run (emits_withQueue m _ _)
  split
  · exact outByte_emits _ s
  · exact ends_run (Emits.refl s)

/-- A flushed queue is empty. -/
theorem flushToByte_empty {s s' : State} (h : flushToByte s = .run s') :
    s'.ctx.bitQueue = 0#32 ∧ s'.ctx.bitCount = 0#5 := by
  obtain ⟨m, -, hm⟩ := bind_eq_run.1 h
  obtain rfl := Flow.run.inj hm
  exact ⟨rfl, rfl⟩

/-! ### The raw writers (R67 to R72) -/

theorem writeRawBytes_emits (bs : List Byte) (s : State) : Ends Emits s (writeRawBytes bs s) := by
  unfold writeRawBytes
  split
  · exact outBytes_emits bs s
  · exact ends_refused s _

/-- With an empty queue a raw writer is OutByte of each of its bytes. -/
theorem writeRawBytes_aligned {bs : List Byte} {s : State} (h : s.ctx.bitCount = 0#5) :
    writeRawBytes bs s = outBytes bs s := by
  simp [writeRawBytes, h]

theorem writeRaw_emits (inp : List Byte) (i n : Nat) (s : State) : Ends Emits s (writeRaw inp i n s) := by
  unfold writeRaw
  split
  · exact ends_stopped s _
  · exact writeRawBytes_emits _ s

/-- Bytes of the chunk are there exactly when the range lies in it. -/
theorem inBytes_of_le {inp : List Byte} {i n : Nat} (h : i + n ≤ inp.length) :
    inBytes inp i n = some ((inp.drop i).take n) := by
  simp [inBytes, h]

/-- Within the chunk a 4-byte word can be read. -/
theorem readWord_of_le {inp : List Byte} {pos : Nat} (h : pos + 4 ≤ inp.length) :
    readWord inp pos = some (BitVec.ofNat 32 (littleEndian ((inp.drop pos).take 4))) := by
  simp [readWord, memRead, inBytes_of_le h]

/-! ### The Huffman emitters (43_fixed_huffman.md R92 to R94) -/

theorem emitLit_emits (b : Byte) (s : State) : Ends Emits s (emitLit b s) := enqueue_emits _ s

theorem emitEob_emits (s : State) : Ends Emits s (emitEob s) := enqueue_emits _ s

theorem emitMatch_emits (len dist : Nat) (s : State) : Ends Emits s (emitMatch len dist s) := by
  unfold emitMatch
  split
  · exact ends_refused s _
  · exact ends_refused s _
  · exact emits_bind (enqueue_emits _ s) fun m => enqueue_emits _ m

/-! ### Blocks (45_block_state_machine.md R112 to R117) -/

theorem openFixed_emits (more : Bool) (s : State) : Ends Emits s (openFixed more s) := by
  unfold openFixed
  split <;> exact ends_of_start (fun _ _ _ h g => h.trans g) (emits_withPhase s _) (enqueue_emits _ _)

theorem matchOpen_emits (s : State) : Ends Emits s (matchOpen s) := by
  unfold matchOpen
  split
  · exact openFixed_emits true s
  · exact ends_run (Emits.refl s)

theorem storedPiece_emits (inp : List Byte) (i c : Nat) (final : Bool) (s : State) :
    Ends Emits s (storedPiece inp i c final s) := by
  unfold storedPiece
  refine emits_bind ?_ fun m => emits_bind ?_ fun m => emits_bind (flushToByte_emits m) fun m =>
    emits_bind (writeRawBytes_emits _ m) fun m => emits_bind (writeRawBytes_emits _ m) fun m => writeRaw_emits inp i c m
  · split
    · exact ends_run (Emits.refl s)
    · exact emitEob_emits s
  · exact ends_of_start (fun _ _ _ h g => h.trans g) (emits_withPhase m _) (enqueue_emits _ _)

theorem storedLoop_emits (inp : List Byte) (more : Bool) (k i rem : Nat) (s : State) :
    Ends Emits s (storedLoop inp more k i rem s) := by
  induction k generalizing i rem s with
  | zero => exact ends_run (Emits.refl s)
  | succ k ih =>
    unfold storedLoop
    refine emits_bind (storedPiece_emits inp i _ _ s) fun m => ?_
    split
    · exact ends_run (Emits.refl m)
    · exact ih _ _ m

theorem stored_emits (inp : List Byte) (i n : Nat) (more : Bool) (s : State) : Ends Emits s (stored inp i n more s) :=
  storedLoop_emits inp more (n + 1) i n s

theorem emitLits_emits (bs : List Byte) (s : State) : Ends Emits s (emitLits bs s) := by
  induction bs generalizing s with
  | nil => exact ends_run (Emits.refl s)
  | cons b rest ih => exact emits_bind (emitLit_emits b s) ih

theorem huffOpen_emits (more : Bool) (s : State) : Ends Emits s (huffOpen more s) := by
  unfold huffOpen
  split
  · exact openFixed_emits more s
  · split
    · exact ends_run (Emits.refl s)
    · exact emits_bind (emitEob_emits s) fun m =>
        ends_of_start (fun _ _ _ h g => h.trans g) (emits_withPhase m _) (openFixed_emits _ _)

theorem huffLits_emits (inp : List Byte) (i n : Nat) (more : Bool) (s : State) :
    Ends Emits s (huffLits inp i n more s) := by
  unfold huffLits
  split
  · exact ends_stopped s _
  · exact emits_bind (huffOpen_emits more s) fun m => emitLits_emits _ m

theorem flushLits_emits (inp : List Byte) (i n b9 : Nat) (more : Bool) (s : State) :
    Ends Emits s (flushLits inp i n b9 more s) := by
  unfold flushLits
  split
  · exact stored_emits inp i n more s
  · exact huffLits_emits inp i n more s

/-! ### Framing (46_framing.md R125, R126) -/

theorem headerPhase_emits (s : State) : Ends Emits s (headerPhase s) := by
  unfold headerPhase
  split
  · refine emits_bind ?_ fun m => ends_run (emits_withPhase m _)
    split
    · exact writeRawBytes_emits _ s
    · exact writeRawBytes_emits _ s
    · exact ends_run (Emits.refl s)
  · exact ends_run (Emits.refl s)

/-- The header phase is over in every phase but INIT. -/
theorem headerPhase_of_started {s : State} (h : s.ctx.phase ≠ .init) : headerPhase s = .run s := by
  simp [headerPhase, h]

theorem trailer_emits (s : State) : Ends Emits s (trailer s) := by
  unfold trailer
  refine emits_bind ?_ fun m => ends_run (emits_withPhase m _)
  split
  · exact emits_bind (writeRawBytes_emits _ s) fun m => writeRawBytes_emits _ m
  · exact writeRawBytes_emits _ s
  · exact ends_run (Emits.refl s)

end Sys2Proof.Machine.Laws
end

