-- ==== Sys2Proof/Laws/Scan.lean ====
section
/-! SUPPORT. What each operation of the match finder and each command can do: how it ends, and its frame. -/

namespace Sys2Proof.Machine.Laws

/-! ### The match finder (44_match_finder.md) -/

/-- An empty slot names no candidate (R98). -/
@[simp] theorem candidate_none (word : Word) (abs pos : Nat) : candidate word none abs pos = .reject := rfl

/-- EXTEND never passes its limit (R100). -/
theorem agreeing_le (k : Nat) (as bs : List Byte) : agreeing k as bs ≤ k := by
  induction k generalizing as bs with
  | zero => simp [agreeing]
  | succ k ih =>
    cases as with
    | nil => simp [agreeing]
    | cons a as =>
      cases bs with
      | nil => simp [agreeing]
      | cons b bs =>
        simp only [agreeing]
        split
        · exact Nat.succ_le_succ (ih as bs)
        · exact Nat.zero_le _

/-- The length of a match is 4 .. 258 (R100). -/
theorem extend_bounds (inp : List Byte) (pos c : Nat) : 4 ≤ extend inp pos c ∧ extend inp pos c ≤ 258 := by
  have h := agreeing_le (min maxMatch (inp.length - pos) - minWord) (inp.drop (pos + minWord))
    (inp.drop (c + minWord))
  simp only [extend, minWord, maxMatch] at *
  omega

/-- LITERAL_STEP reads one byte of the chunk and moves on by one (R103). -/
theorem literalStep_eq_run {inp : List Byte} {s s' : State} :
    literalStep inp s = .run s' ↔ ∃ b, inp[s.work.pos.toNat]? = some b ∧
      s' = s.withScan (s.work.pos + 1#32) (s.work.plit + 1#32)
        (if 144 ≤ b.toNat then s.work.bit9 + 1#32 else s.work.bit9) := by
  unfold literalStep
  split <;> rename_i h
  · simp [h]
  · simp only [h, nineBitLiteral, Flow.run.injEq, Option.some.injEq, exists_eq_left']
    exact eq_comm

theorem literalStep_kept (inp : List Byte) (s : State) : Ends Kept s (literalStep inp s) := by
  unfold literalStep
  split
  · exact ends_stopped s _
  · exact ends_run (kept_withScan s _ _ _)

theorem flushPending_emits (inp : List Byte) (more : Bool) (s : State) : Ends Emits s (flushPending inp more s) := by
  unfold flushPending
  split
  · exact ends_run (Emits.refl s)
  · exact flushLits_emits inp _ _ _ more s

theorem acceptMatch_kept (inp : List Byte) (dist mlen : Nat) (s : State) :
    Ends Kept s (acceptMatch inp dist mlen s) := by
  unfold acceptMatch
  refine kept_bind (kept_of_emits (flushPending_emits inp true s)) fun m => ?_
  refine ends_of_start (fun _ _ _ h g => h.trans g) (kept_withScan m m.work.pos 0#32 m.work.bit9) ?_
  exact kept_bind (kept_of_emits (matchOpen_emits _)) fun m =>
    kept_bind (kept_of_emits (emitMatch_emits _ _ m)) fun m => ends_run (kept_withScan m _ _ _)

theorem judge_kept (inp : List Byte) (dist offset : Nat) (s : State) : Ends Kept s (judge inp dist offset s) := by
  unfold judge
  dsimp only
  split
  · exact literalStep_kept inp s
  · split
    · exact ends_refused s _
    · exact ends_refused s _
    · split
      · exact literalStep_kept inp s
      · exact acceptMatch_kept inp _ _ s

theorem scanStep_kept (inp : List Byte) (s : State) : Ends Kept s (scanStep inp s) := by
  unfold scanStep
  split
  · exact ends_stopped s _
  · dsimp only
    split
    · exact ends_of_start (fun _ _ _ h g => h.trans g) (kept_withSlot s _ _) (literalStep_kept inp _)
    · exact ends_refused s _
    · exact ends_of_start (fun _ _ _ h g => h.trans g) (kept_withSlot s _ _) (judge_kept inp _ _ _)

theorem scanLoop_kept (inp : List Byte) (k : Nat) (s : State) : Ends Kept s (scanLoop inp k s) := by
  induction k generalizing s with
  | zero => exact ends_run (Kept.refl s)
  | succ k ih =>
    unfold scanLoop
    split
    · exact kept_bind (scanStep_kept inp s) ih
    · exact ends_run (Kept.refl s)

theorem tailLoop_kept (inp : List Byte) (k : Nat) (s : State) : Ends Kept s (tailLoop inp k s) := by
  induction k generalizing s with
  | zero => exact ends_run (Kept.refl s)
  | succ k ih =>
    unfold tailLoop
    split
    · exact kept_bind (literalStep_kept inp s) ih
    · exact ends_run (Kept.refl s)

theorem scan_kept (inp : List Byte) (s : State) : Ends Kept s (scan inp s) := by
  unfold scan
  exact kept_bind (scanLoop_kept inp _ s) fun m => kept_bind (tailLoop_kept inp _ m) fun m =>
    kept_of_emits (flushPending_emits inp _ m)

/-! ### The commands (47_commands.md) -/

theorem dataPhase_kept (inp : List Byte) (s : State) : Ends Kept s (dataPhase inp s) := by
  unfold dataPhase
  split
  · split
    · exact kept_of_emits (stored_emits inp _ _ _ s)
    · exact ends_run (Kept.refl s)
  · exact scan_kept inp s

/-- At level 0 the match table is not touched (44_match_finder.md R95). -/
theorem dataPhase_levelZero_emits {inp : List Byte} {s : State} (h : s.ctx.level = 0#1) :
    Ends Emits s (dataPhase inp s) := by
  unfold dataPhase
  rw [if_pos h]
  split
  · exact stored_emits inp _ _ _ s
  · exact ends_run (Emits.refl s)

/-- The parts of an ENCODE that completes: the header, the checksum, the data, and the count of its bytes (R132). -/
theorem encodeBody_eq_run {more : Bool} {s s' : State} :
    encodeBody more s = .run s' ↔
      ∃ h d, headerPhase (beginEncode more s) = .run h ∧
        dataPhase (chunkOf s.operands) (checksumPhase (chunkOf s.operands) h) = .run d ∧
        s' = d.withInputLen (d.ctx.inputLen + d.work.ilen.setWidth 64) := by
  simp only [encodeBody, bind_eq_run, Flow.run.injEq]
  constructor
  · rintro ⟨h, hh, d, hd, rfl⟩
    exact ⟨h, d, hh, hd, rfl⟩
  · rintro ⟨h, d, hh, hd, rfl⟩
    exact ⟨h, hh, d, hd, rfl⟩

theorem closeBlock_emits (s : State) : Ends Emits s (closeBlock s) := by
  unfold closeBlock
  split
  · exact emits_bind (emitEob_emits s) fun m => ends_run (emits_withPhase m _)
  · split
    · exact emits_bind (emitEob_emits s) fun m => ends_run (emits_withPhase m _)
    · exact ends_run (Emits.refl s)

theorem finalEmptyBlock_emits (s : State) : Ends Emits s (finalEmptyBlock s) := by
  unfold finalEmptyBlock
  split
  · exact emits_bind (enqueue_emits _ s) fun m => emits_bind (flushToByte_emits m) fun m =>
      emits_bind (writeRawBytes_emits _ m) fun m => emits_bind (writeRawBytes_emits _ m) fun m =>
        ends_run (emits_withPhase m _)
  · exact ends_run (Emits.refl s)

theorem finishBody_emits (s : State) : Ends Emits (beginFinish s) (finishBody s) := by
  unfold finishBody
  exact emits_bind (headerPhase_emits _) fun m => emits_bind (closeBlock_emits m) fun m =>
    emits_bind (finalEmptyBlock_emits m) fun m => emits_bind (flushToByte_emits m) fun m => trailer_emits m

/-- INIT ends in a next state, whatever its fields: refused, faulted, or a new stream (R131). -/
theorem execInit_cases (level : BitVec 4) (format : BitVec 2) (s : State) :
    (s.faulted = true ∧ execInit level format s = .next (refuseFaulted s)) ∨
      (s.faulted = false ∧ 1 < level.toNat ∧ execInit level format s = .next (takeFault .badLevel s)) ∨
      (s.faulted = false ∧ level.toNat ≤ 1 ∧ formatOfField format = none ∧
        execInit level format s = .next (takeFault .badFormat s)) ∨
      (s.faulted = false ∧ level.toNat ≤ 1 ∧ ∃ f, formatOfField format = some f ∧
        execInit level format s = .next (completeInit { s with ctx := initContext (level.setWidth 1) f })) := by
  unfold execInit
  cases hf : s.faulted
  · by_cases hl : 1 < level.toNat
    · simp [hl]
    · cases hfmt : formatOfField format <;> simp [hl] <;> omega
  · simp

/-- ENCODE of a core that is not faulted, in a phase that accepts it, with room for its bytes to be counted, whose host
keeps its duties, runs its body (R132, 60_exceptions.md R137). -/
theorem execEncode_of_accepted {more : Bool} {s : State} (hf : s.faulted = false)
    (hp : s.ctx.phase = .init ∨ s.ctx.phase = .eob ∨ s.ctx.phase = .fixed)
    (hl : s.ctx.inputLen.toNat + s.operands.ilen.toNat < 2 ^ 64) (hk : breached s.operands = false) :
    execEncode more s = (encodeBody more s).outcome := by
  have h2 : ¬ (2 ^ 64 ≤ s.ctx.inputLen.toNat + s.operands.ilen.toNat) := Nat.not_le.2 hl
  unfold execEncode
  rcases hp with hp | hp | hp <;> simp only [hf, hp, h2, hk, if_false, reduceCtorEq, or_self, Bool.false_eq_true]

/-- Where the host breaks a duty, the same ENCODE is unspecified (20_memory.md R51). -/
theorem execEncode_of_breached {more : Bool} {s : State} (hf : s.faulted = false)
    (hp : s.ctx.phase = .init ∨ s.ctx.phase = .eob ∨ s.ctx.phase = .fixed)
    (hl : s.ctx.inputLen.toNat + s.operands.ilen.toNat < 2 ^ 64) (hk : breached s.operands = true) :
    execEncode more s = .next (breachedEncode s) := by
  have h2 : ¬ (2 ^ 64 ≤ s.ctx.inputLen.toNat + s.operands.ilen.toNat) := Nat.not_le.2 hl
  unfold execEncode
  rcases hp with hp | hp | hp <;>
    simp only [hf, hp, h2, hk, if_false, if_true, reduceCtorEq, or_self, Bool.false_eq_true]

/-- What an ENCODE under a breach can do: overflow, or complete. -/
theorem breachedEncode_cases (s : State) :
    breachedEncode s = breachOverflows s ∨ breachedEncode s = breachCompletes s := by
  unfold breachedEncode
  split
  · exact .inl rfl
  · exact .inr rfl

/-- A free number of bytes never passes OCAP (20_memory.md R39). -/
theorem freeCount_le (n : Nat) (ocap : Word) : (freeCount n ocap).toNat ≤ ocap.toNat := by
  have h := Nat.mod_lt (Config.freeLength n) (Nat.succ_pos ocap.toNat)
  simp only [freeCount, BitVec.toNat_ofNat]
  exact (Nat.mod_le _ _).trans (Nat.le_of_lt_succ h)

/-- FINISH of a core that is not faulted, with a stream that has not ended, runs its body (R133, 60_exceptions.md R137). -/
theorem execFinish_of_accepted {s : State} (hf : s.faulted = false) (hu : s.ctx.phase ≠ .uninit)
    (he : s.ctx.phase ≠ .ended) : execFinish s = (finishBody s).outcome := by
  simp [execFinish, hf, hu, he]

/-- What a step can do: the core is idle, is reset, or runs the host's next command. -/
theorem step_cases (s : State) :
    (s.host = [] ∧ step s = .next s) ∨
      (∃ rest, s.host = .hardwareReset :: rest ∧ step s = .next (hardwareReset { s with host := rest })) ∨
      (∃ c rest, s.host = .command c :: rest ∧
        step s = runWord c.word (acceptOperands c.operands { s with host := rest })) := by
  rcases h : s.host with - | ⟨e, rest⟩
  · simp [step, serveHost, h]
  · cases e with
    | command c => exact .inr (.inr ⟨c, rest, rfl, by simp [step, serveHost, h, runCommand]⟩)
    | hardwareReset => exact .inr (.inl ⟨rest, rfl, by simp [step, serveHost, h]⟩)

end Sys2Proof.Machine.Laws
end

