-- ==== Sys2Proof/Laws/PerInstr.lean ====
section
/-! SUPPORT. Statements about every instruction as syntax, one lemma per constructor. -/

namespace Sys2Proof.Laws.EncodingFitsRow

/-- The word of a command is of the command's own row of the opcode map, and so has every reserved bit 0 (30_encoding.md
R53 to R55, R58). -/
def Statement (i : Instr) : Prop := (rowOf i).covers (encode i) = true

theorem init (level : BitVec 4) (format : BitVec 2) : Statement (.init level format) := by
  revert level format
  unfold Statement
  decide

theorem encode (more : Bool) : Statement (.encode more) := by
  revert more
  unfold Statement
  decide

theorem finish : Statement .finish := by
  unfold Statement
  decide

end Sys2Proof.Laws.EncodingFitsRow
end

