-- ==== Sys2Proof/Tests/Slice0.lean ====
section
/-! SUPPORT. The model's own tests, expected values from spec/95_test_vectors.md and the examples of the rules, and, for
every statement with hypotheses, a concrete state and operands that meet them (`witness_<statement>`). -/

namespace Sys2Proof.Machine.Tests

/-! ### States to test on -/

/-- A context with an empty match table. -/
def ctxAt (phase : Phase) (level : BitVec 1) (format : Format) (q : Word) (n : BitVec 5) : Context where
  phase := phase
  level := level
  format := format
  crc := crcSeed format
  inputLen := 0#64
  bitQueue := q
  bitCount := n
  table := []

/-- A core in this context, with these bytes in IN and this OCAP at its port. -/
def coreAt (c : Context) (chunk : List Byte) (ocap : Word) : State :=
  { State.reset with
    ctx := c
    operands := ⟨windowOf chunk, BitVec.ofNat 32 chunk.length, ocap, none⟩ }

/-- "abc". -/
def abc : List Byte := [0x61#8, 0x62#8, 0x63#8]

/-- "abcabcabcabc". -/
def abc4 : List Byte := abc ++ abc ++ abc ++ abc

/-- A core that has faulted with cause 5. -/
def faultedCore : State :=
  { coreAt (ctxAt .last 1#1 .deflate 0x6#32 3#5) [] 0#32 with faulted := true, faultCause := 5#4 }

/-- A command is at the host's turn. -/
def issuing (w : Word) (s : State) : State := { s with host := [.command ⟨w, s.operands⟩] }

/-- The outcome is a next state with a property. -/
def nextWith (x : Host.Outcome State Fault Refusal) (p : State → Bool) : Bool :=
  match x with
  | .next t => p t
  | .fault _ => false
  | .refused _ => false

theorem nextWith_spec {x : Host.Outcome State Fault Refusal} {p : State → Bool} (h : nextWith x p = true) :
    ∃ t, x = .next t ∧ p t = true := by
  cases x with
  | next t => exact ⟨t, rfl, h⟩
  | fault _ => cases h
  | refused _ => cases h

/-- The command answered this STATUS and, where it is OK, this BYTES_WRITTEN. -/
def answered (status : BitVec 4) (n : Nat) (t : State) : Bool :=
  match t.response with
  | some r => decide (r.status = status) && (decide (status ≠ 0#4) || decide (r.bytesWritten.toNat = n))
  | none => false

/-- What a test of a command reads of the state it leaves: STATUS, OUT, `state`, the queue. -/
def leaves (status : BitVec 4) (bytes : List Nat) (phase : Phase) (q n : Nat) (t : State) : Bool :=
  answered status bytes.length t && decide (t.out.map (fun c => c.2.toNat) = bytes) &&
    (decide (status ≠ 0#4) ||
      (decide (t.ctx.phase = phase) && decide (t.ctx.bitQueue.toNat = q) && decide (t.ctx.bitCount.toNat = n)))

/-! ### WellFormed: each check refuses an ill-formed term -/

theorem test_legal_refuses_level : Instr.legal (.init 2#4 0#2) = false := by decide
theorem test_legal_refuses_format : Instr.legal (.init 1#4 3#2) = false := by decide
theorem test_legal_accepts : Instr.legal (.init 1#4 2#2) = true := by decide
theorem test_operands_refuse_order : ¬ Operands.wellFormed ⟨[(1, 5#8), (0, 5#8)], 2#32, 0#32, none⟩ := by decide
theorem test_operands_refuse_offset : ¬ Operands.wellFormed ⟨[(2, 5#8)], 2#32, 0#32, none⟩ := by decide
theorem test_operands_refuse_zero : ¬ Operands.wellFormed ⟨[(1, 0#8)], 2#32, 0#32, none⟩ := by decide
theorem test_operands_accept : Operands.wellFormed ⟨[(0, 5#8), (1, 6#8)], 3#32, 0#32, none⟩ := by decide

/-! ### Decode: words written out from 30_encoding.md R53 to R55, and 95 2.1 -/

/-- OP 0b0001, LEVEL 0b0001, FORMAT 0b10: `INIT 1, DEFLATE`. -/
theorem test_decode_init : decode 0b00000000000000000000001000010001#32 = .command (.init 1#4 2#2) := by decide
/-- OP 0b0010, MORE 1: `ENCODE 1`. -/
theorem test_decode_encode : decode 0b00000000000000000000000000010010#32 = .command (.encode true) := by decide
/-- OP 0b0011: `FINISH`. -/
theorem test_decode_finish : decode 0b00000000000000000000000000000011#32 = .command .finish := by decide
/-- V-DEC11, V-DEC12, V-DEC15, V-DEC17: a reserved bit. -/
theorem test_decode_reserved :
    [0x401#32, 0x80000011#32, 0x22#32, 0x13#32].map decode = List.replicate 4 (.illegal .reservedBitSet) := by decide
/-- V-DEC18 to V-DEC20: OP 0 and OP 4 .. 15. -/
theorem test_decode_opcode :
    ((0#32 :: (List.range 12).map fun k => BitVec.ofNat 32 (k + 4)) ++ [0xFFFFFFFF#32]).map decode =
      List.replicate 14 (.illegal .noSuchOpcode) := by decide
theorem test_table_word : decodeTableWord 32 0x11 = some (.init 1#4 0#2) := by decide
/-- `withFetchWord` makes the next step run the word: `INIT 1, ZLIB` from reset. -/
theorem test_fetch_word :
    nextWith (step (State.reset.withFetchWord 32 0x111)) (fun t =>
      answered 0#4 0 t && decide (t.ctx = initContext 1#1 .zlib)) = true := by decide +kernel

/-! ### Checksums (95 2.3) -/

/-- The CRC table, entries 0 .. 63, as 42_checksums.md R74 prints them. -/
theorem test_crc_table_0 :
    (List.range 64).map (fun n => (crcTable (BitVec.ofNat 8 (0 + n))).toNat) =
    [0x00000000, 0x77073096, 0xEE0E612C, 0x990951BA, 0x076DC419, 0x706AF48F, 0xE963A535, 0x9E6495A3,
     0x0EDB8832, 0x79DCB8A4, 0xE0D5E91E, 0x97D2D988, 0x09B64C2B, 0x7EB17CBD, 0xE7B82D07, 0x90BF1D91,
     0x1DB71064, 0x6AB020F2, 0xF3B97148, 0x84BE41DE, 0x1ADAD47D, 0x6DDDE4EB, 0xF4D4B551, 0x83D385C7,
     0x136C9856, 0x646BA8C0, 0xFD62F97A, 0x8A65C9EC, 0x14015C4F, 0x63066CD9, 0xFA0F3D63, 0x8D080DF5,
     0x3B6E20C8, 0x4C69105E, 0xD56041E4, 0xA2677172, 0x3C03E4D1, 0x4B04D447, 0xD20D85FD, 0xA50AB56B,
     0x35B5A8FA, 0x42B2986C, 0xDBBBC9D6, 0xACBCF940, 0x32D86CE3, 0x45DF5C75, 0xDCD60DCF, 0xABD13D59,
     0x26D930AC, 0x51DE003A, 0xC8D75180, 0xBFD06116, 0x21B4F4B5, 0x56B3C423, 0xCFBA9599, 0xB8BDA50F,
     0x2802B89E, 0x5F058808, 0xC60CD9B2, 0xB10BE924, 0x2F6F7C87, 0x58684C11, 0xC1611DAB, 0xB6662D3D] := by
  decide +kernel

/-- The CRC table, entries 64 .. 127, as 42_checksums.md R74 prints them. -/
theorem test_crc_table_1 :
    (List.range 64).map (fun n => (crcTable (BitVec.ofNat 8 (64 + n))).toNat) =
    [0x76DC4190, 0x01DB7106, 0x98D220BC, 0xEFD5102A, 0x71B18589, 0x06B6B51F, 0x9FBFE4A5, 0xE8B8D433,
     0x7807C9A2, 0x0F00F934, 0x9609A88E, 0xE10E9818, 0x7F6A0DBB, 0x086D3D2D, 0x91646C97, 0xE6635C01,
     0x6B6B51F4, 0x1C6C6162, 0x856530D8, 0xF262004E, 0x6C0695ED, 0x1B01A57B, 0x8208F4C1, 0xF50FC457,
     0x65B0D9C6, 0x12B7E950, 0x8BBEB8EA, 0xFCB9887C, 0x62DD1DDF, 0x15DA2D49, 0x8CD37CF3, 0xFBD44C65,
     0x4DB26158, 0x3AB551CE, 0xA3BC0074, 0xD4BB30E2, 0x4ADFA541, 0x3DD895D7, 0xA4D1C46D, 0xD3D6F4FB,
     0x4369E96A, 0x346ED9FC, 0xAD678846, 0xDA60B8D0, 0x44042D73, 0x33031DE5, 0xAA0A4C5F, 0xDD0D7CC9,
     0x5005713C, 0x270241AA, 0xBE0B1010, 0xC90C2086, 0x5768B525, 0x206F85B3, 0xB966D409, 0xCE61E49F,
     0x5EDEF90E, 0x29D9C998, 0xB0D09822, 0xC7D7A8B4, 0x59B33D17, 0x2EB40D81, 0xB7BD5C3B, 0xC0BA6CAD] := by
  decide +kernel

/-- The CRC table, entries 128 .. 191, as 42_checksums.md R74 prints them. -/
theorem test_crc_table_2 :
    (List.range 64).map (fun n => (crcTable (BitVec.ofNat 8 (128 + n))).toNat) =
    [0xEDB88320, 0x9ABFB3B6, 0x03B6E20C, 0x74B1D29A, 0xEAD54739, 0x9DD277AF, 0x04DB2615, 0x73DC1683,
     0xE3630B12, 0x94643B84, 0x0D6D6A3E, 0x7A6A5AA8, 0xE40ECF0B, 0x9309FF9D, 0x0A00AE27, 0x7D079EB1,
     0xF00F9344, 0x8708A3D2, 0x1E01F268, 0x6906C2FE, 0xF762575D, 0x806567CB, 0x196C3671, 0x6E6B06E7,
     0xFED41B76, 0x89D32BE0, 0x10DA7A5A, 0x67DD4ACC, 0xF9B9DF6F, 0x8EBEEFF9, 0x17B7BE43, 0x60B08ED5,
     0xD6D6A3E8, 0xA1D1937E, 0x38D8C2C4, 0x4FDFF252, 0xD1BB67F1, 0xA6BC5767, 0x3FB506DD, 0x48B2364B,
     0xD80D2BDA, 0xAF0A1B4C, 0x36034AF6, 0x41047A60, 0xDF60EFC3, 0xA867DF55, 0x316E8EEF, 0x4669BE79,
     0xCB61B38C, 0xBC66831A, 0x256FD2A0, 0x5268E236, 0xCC0C7795, 0xBB0B4703, 0x220216B9, 0x5505262F,
     0xC5BA3BBE, 0xB2BD0B28, 0x2BB45A92, 0x5CB36A04, 0xC2D7FFA7, 0xB5D0CF31, 0x2CD99E8B, 0x5BDEAE1D] := by
  decide +kernel

/-- The CRC table, entries 192 .. 255, as 42_checksums.md R74 prints them. -/
theorem test_crc_table_3 :
    (List.range 64).map (fun n => (crcTable (BitVec.ofNat 8 (192 + n))).toNat) =
    [0x9B64C2B0, 0xEC63F226, 0x756AA39C, 0x026D930A, 0x9C0906A9, 0xEB0E363F, 0x72076785, 0x05005713,
     0x95BF4A82, 0xE2B87A14, 0x7BB12BAE, 0x0CB61B38, 0x92D28E9B, 0xE5D5BE0D, 0x7CDCEFB7, 0x0BDBDF21,
     0x86D3D2D4, 0xF1D4E242, 0x68DDB3F8, 0x1FDA836E, 0x81BE16CD, 0xF6B9265B, 0x6FB077E1, 0x18B74777,
     0x88085AE6, 0xFF0F6A70, 0x66063BCA, 0x11010B5C, 0x8F659EFF, 0xF862AE69, 0x616BFFD3, 0x166CCF45,
     0xA00AE278, 0xD70DD2EE, 0x4E048354, 0x3903B3C2, 0xA7672661, 0xD06016F7, 0x4969474D, 0x3E6E77DB,
     0xAED16A4A, 0xD9D65ADC, 0x40DF0B66, 0x37D83BF0, 0xA9BCAE53, 0xDEBB9EC5, 0x47B2CF7F, 0x30B5FFE9,
     0xBDBDF21C, 0xCABAC28A, 0x53B39330, 0x24B4A3A6, 0xBAD03605, 0xCDD70693, 0x54DE5729, 0x23D967BF,
     0xB3667A2E, 0xC4614AB8, 0x5D681B02, 0x2A6F2B94, 0xB40BBE37, 0xC30C8EA1, 0x5A05DF1B, 0x2D02EF8D] := by
  decide +kernel

/-- V-CK3, V-CK6, V-CK11: "abc", "123456789", FF FF FF FF. -/
theorem test_crc_vectors :
    crcUpdate 0#32 abc = 0x352441C2#32 ∧
    crcUpdate 0#32 ((List.range 9).map fun k => BitVec.ofNat 8 (0x31 + k)) = 0xCBF43926#32 ∧
    crcUpdate 0#32 (List.replicate 4 0xFF#8) = 0xFFFFFFFF#32 := by decide +kernel
/-- V-AD3, V-AD6 and the corner V-AD13, V-AD14: s1 reaches 65521. -/
theorem test_adler_vectors :
    adlerUpdate 1#32 abc = 0x024D0127#32 ∧
    adlerUpdate 1#32 ((List.range 9).map fun k => BitVec.ofNat 8 (0x31 + k)) = 0x091E01DE#32 ∧
    adlerUpdate 1#32 (List.replicate 256 0xFF#8 ++ [0xF0#8]) = 0x08000000#32 ∧
    adlerUpdate 1#32 (List.replicate 256 0xFF#8 ++ [0xEF#8]) = 0x07FFFFF0#32 := by decide +kernel
/-- 90_conflicts.md C1: the deferred datapath at its corner. -/
theorem test_adler_block : adlerBlockUpdate 1#32 (List.replicate 256 0xFF#8 ++ [0xF0#8]) = 0x08000000#32 := by
  decide +kernel

/-! ### The fixed Huffman tables, as 43_fixed_huffman.md R88 and R90 print them -/

/-- Symbol, reversed code, extra bits, base, last length, total width. -/
theorem test_length_rows :
    lengthRows.map (fun r => (r.symbol, revBits (symbolCode r.symbol).2 (symbolCode r.symbol).1, r.ebits, r.base,
      r.last, (symbolCode r.symbol).2 + r.ebits)) =
    [(257, 0x40, 0, 3, 3, 7), (258, 0x20, 0, 4, 4, 7), (259, 0x60, 0, 5, 5, 7), (260, 0x10, 0, 6, 6, 7), (261,
     0x50, 0, 7, 7, 7), (262, 0x30, 0, 8, 8, 7), (263, 0x70, 0, 9, 9, 7), (264, 0x08, 0, 10, 10, 7), (265, 0x48, 1,
     11, 12, 8), (266, 0x28, 1, 13, 14, 8), (267, 0x68, 1, 15, 16, 8), (268, 0x18, 1, 17, 18, 8), (269, 0x58, 2,
     19, 22, 9), (270, 0x38, 2, 23, 26, 9), (271, 0x78, 2, 27, 30, 9), (272, 0x04, 2, 31, 34, 9), (273, 0x44, 3,
     35, 42, 10), (274, 0x24, 3, 43, 50, 10), (275, 0x64, 3, 51, 58, 10), (276, 0x14, 3, 59, 66, 10), (277, 0x54,
     4, 67, 82, 11), (278, 0x34, 4, 83, 98, 11), (279, 0x74, 4, 99, 114, 11), (280, 0x03, 4, 115, 130, 12), (281,
     0x83, 5, 131, 162, 13), (282, 0x43, 5, 163, 194, 13), (283, 0xC3, 5, 195, 226, 13), (284, 0x23, 5, 227, 257,
     13), (285, 0xA3, 0, 258, 258, 8)] := by
  decide +kernel
/-- Code, reversed code, extra bits, base, last distance, total width. -/
theorem test_distance_rows :
    distanceRows.map (fun r => (r.symbol, revBits 5 r.symbol, r.ebits, r.base, r.last, 5 + r.ebits)) =
    [(0, 0x00, 0, 1, 1, 5), (1, 0x10, 0, 2, 2, 5), (2, 0x08, 0, 3, 3, 5), (3, 0x18, 0, 4, 4, 5), (4, 0x04, 1, 5, 6,
     6), (5, 0x14, 1, 7, 8, 6), (6, 0x0C, 2, 9, 12, 7), (7, 0x1C, 2, 13, 16, 7), (8, 0x02, 3, 17, 24, 8), (9, 0x12,
     3, 25, 32, 8), (10, 0x0A, 4, 33, 48, 9), (11, 0x1A, 4, 49, 64, 9), (12, 0x06, 5, 65, 96, 10), (13, 0x16, 5,
     97, 128, 10), (14, 0x0E, 6, 129, 192, 11), (15, 0x1E, 6, 193, 256, 11), (16, 0x01, 7, 257, 384, 12), (17,
     0x11, 7, 385, 512, 12), (18, 0x09, 8, 513, 768, 13), (19, 0x19, 8, 769, 1024, 13), (20, 0x05, 9, 1025, 1536,
     14), (21, 0x15, 9, 1537, 2048, 14), (22, 0x0D, 10, 2049, 3072, 15), (23, 0x1D, 10, 3073, 4096, 15), (24, 0x03,
     11, 4097, 6144, 16), (25, 0x13, 11, 6145, 8192, 16), (26, 0x0B, 12, 8193, 12288, 17), (27, 0x1B, 12, 12289,
     16384, 17), (28, 0x07, 13, 16385, 24576, 18), (29, 0x17, 13, 24577, 32768, 18)] := by
  decide +kernel
/-- V-HF1, V-HF2, V-HF5, V-HF6, V-HF7. -/
theorem test_lit_fields :
    [0x00#8, 0x61#8, 0x8F#8, 0x90#8, 0xFF#8].map litField =
      [⟨0x0C#32, 8⟩, ⟨0x89#32, 8⟩, ⟨0xFD#32, 8⟩, ⟨0x13#32, 9⟩, ⟨0x1FF#32, 9⟩] := by decide
/-- V-HF9 to V-HF26, some, and the lengths just outside. -/
theorem test_len_fields :
    [3, 4, 12, 114, 115, 257, 258].map lenField =
      [some ⟨0x40#32, 7⟩, some ⟨0x20#32, 7⟩, some ⟨0xC8#32, 8⟩, some ⟨0x7F4#32, 11⟩, some ⟨0x3#32, 12⟩,
        some ⟨0x1E23#32, 13⟩, some ⟨0xA3#32, 8⟩] ∧ lenField 2 = none ∧ lenField 259 = none := by decide +kernel
/-- V-HF27 to V-HF53, some, and the distances just outside. -/
theorem test_dist_fields :
    [1, 3, 6, 256, 1024, 24577, 32768].map distField =
      [some ⟨0x0#32, 5⟩, some ⟨0x8#32, 5⟩, some ⟨0x24#32, 6⟩, some ⟨0x7FE#32, 11⟩, some ⟨0x1FF9#32, 13⟩,
        some ⟨0x17#32, 18⟩, some ⟨0x3FFF7#32, 18⟩] ∧ distField 0 = none ∧ distField 32769 = none := by decide +kernel
/-- V-H5 to V-H9, V-H14. -/
theorem test_hash :
    [0xFFFFFFFF#32, 0x61636261#32, 0x62616362#32, 0x63626163#32, 0x69636361#32, 0x20202020#32].map hashWord =
      [8190#13, 335#13, 2592#13, 4105#13, 335#13, 7452#13] := by decide

/-! ### The bit queue (95 2.2) -/

/-- A core in the middle of a command, with room in OUT. -/
def queueAt (q : Word) (n : BitVec 5) (ocap : Word) : State :=
  beginFinish (coreAt (ctxAt .fixed 1#1 .deflate q n) [] ocap)

/-- The bytes sent and the queue an operation runs to. -/
def ran (x : Flow) : Option (List Nat × Nat × Nat) :=
  match x with
  | .run s => some (s.out.map (fun c => c.2.toNat), s.ctx.bitQueue.toNat, s.ctx.bitCount.toNat)
  | .overflow _ => none
  | .stopped _ => none
  | .refused _ => none

/-- V-BQ10, V-BQ11, V-BQ6. -/
theorem test_enqueue :
    ran (enqueue ⟨0x3FFF7#32, 18⟩ (queueAt 0#32 0#5 9#32)) = some ([0xF7, 0xFF], 3, 2) ∧
    ran (enqueue ⟨0xFFFFFF#32, 24⟩ (queueAt 0x7F#32 7#5 9#32)) = some ([0xFF, 0xFF, 0xFF], 0x7F, 7) ∧
    ran (enqueue ⟨0xC9#32, 8⟩ (queueAt 0xC#32 5#5 9#32)) = some ([0x2C], 0x19, 5) := by decide +kernel
/-- V-BQ18, V-BQ9. -/
theorem test_flush :
    ran (flushToByte (queueAt 0x19#32 5#5 9#32)) = some ([0x19], 0, 0) ∧
    ran (flushToByte (queueAt 0#32 0#5 0#32)) = some ([], 0, 0) := by decide +kernel
/-- V-BQ15 to V-BQ17. -/
theorem test_raw_writers :
    ran (writeU16LE 0xFFFC#16 (queueAt 0#32 0#5 9#32)) = some ([0xFC, 0xFF], 0, 0) ∧
    ran (writeU32LE 0x5A6E2A34#32 (queueAt 0#32 0#5 9#32)) = some ([0x34, 0x2A, 0x6E, 0x5A], 0, 0) ∧
    ran (writeU32BE 0x024D0127#32 (queueAt 0#32 0#5 9#32)) = some ([0x02, 0x4D, 0x01, 0x27], 0, 0) := by
  decide +kernel

/-! ### The match finder (95 2.6): the corners of R98, R100, R101, R102 -/

/-- R98: in "abcabc..." at pos 3, slot (0, "abca") gives D = 3, c = 0; a slot of an earlier chunk is rejected (V-MF18), and so
is a collision (V-MF5). -/
theorem test_candidate :
    candidate 0x61636261#32 (some ⟨0#64, 0x61636261#32⟩) 3 3 = .found 3 0 ∧
    candidate 0x64636261#32 (some ⟨0#64, 0x64636261#32⟩) 4 0 = .reject ∧
    candidate 0x69636361#32 (some ⟨0#64, 0x61636261#32⟩) 4 4 = .reject := by decide +kernel
/-- R100: "abcabcabcabc" at pos 3 with c = 0 gives 9; V-MF4: "aaaaa" at 1 gives 4. -/
theorem test_extend : extend abc4 3 0 = 9 ∧ extend (List.replicate 5 0x61#8) 1 0 = 4 := by decide +kernel
/-- R101, R102: the corners of the two refusals. -/
theorem test_refusals :
    shortRefused 52 5 = true ∧ shortRefused 51 5 = false ∧ shortRefused 52 6 = false ∧
    costRefused 17 7 4 0 = true ∧ costRefused 16 7 4 0 = false ∧ costRefused 17 7 4 1 = false ∧
    costRefused 18 7 4 1 = true ∧ costRefused 18 7 4 2 = false := by decide

/-! ### The commands (95 2.8 to 2.10, section 3) -/

/-- V-DEC10: LEVEL is checked before FORMAT. -/
theorem test_init_bad_level :
    nextWith (execInit 2#4 3#2 State.reset) (fun t => answered 2#4 0 t && t.faulted) = true := by decide +kernel
/-- P5: INIT abandons an open stream. -/
theorem test_init_restarts :
    nextWith (execInit 0#4 1#2 (coreAt (ctxAt .fixed 1#1 .deflate 0x6#32 3#5) [] 0#32)) (fun t =>
      answered 0#4 0 t && decide (t.ctx = ctxAt .init 0#1 .zlib 0#32 0#5)) = true := by decide +kernel
/-- P1: `INIT 1, GZIP; ENCODE 0, "abcabcabcabc"`: 14 bytes, FIXED, q 0x23, 7 bits, three slots. -/
theorem test_encode_match :
    nextWith (execEncode false (coreAt (ctxAt .init 1#1 .gzip 0#32 0#5) abc4 99#32)) (fun t =>
      leaves 0#4 [0x1F, 0x8B, 8, 0, 0, 0, 0, 0, 4, 3, 0x4A, 0x4C, 0x4A, 0x86] .fixed 0x23 7 t &&
        decide (t.ctx.crc = 0x5A6E2A34#32) && decide (t.ctx.inputLen = 12#64) &&
        decide (t.ctx.table.map (fun e => (e.1, e.2.position.toNat)) = [(335, 3), (2592, 1), (4105, 2)])) = true := by
  decide +kernel
/-- V-FT9: `ENCODE 0, "abc", ocap=2` overflows with the first two bytes in OUT. -/
theorem test_encode_overflow :
    nextWith (execEncode false (coreAt (ctxAt .init 1#1 .deflate 0#32 0#5) abc 2#32)) (fun t =>
      leaves 7#4 [0x4B, 0x4C] .init 0 0 t && t.faulted && decide (t.faultCause = 7#4)) = true := by decide +kernel
/-- P1: FINISH from FIXED with q 0x23, 7 bits. -/
theorem test_finish_fixed :
    nextWith (execFinish (coreAt
      { ctxAt .fixed 1#1 .gzip 0x23#32 7#5 with crc := 0x5A6E2A34#32, inputLen := 12#64 } [] 99#32)) (fun t =>
      leaves 0#4 [0x23, 0x40, 0, 0, 0, 0xFF, 0xFF, 0x34, 0x2A, 0x6E, 0x5A, 12, 0, 0, 0] .ended 0 0 t) = true := by
  decide +kernel
/-- V-FR8: FINISH from LAST with q 0x6, 3 bits, ZLIB. -/
theorem test_finish_last :
    nextWith (execFinish (coreAt { ctxAt .last 1#1 .zlib 0x6#32 3#5 with crc := 0x024D0127#32 } [] 99#32)) (fun t =>
      leaves 0#4 [6, 0, 2, 0x4D, 1, 0x27] .ended 0 0 t) = true := by decide +kernel
/-- A run whose penalty reaches the threshold is stored (R117), after the open block is closed (R115). -/
theorem test_flush_lits_stored :
    ran (flushLits abc 0 3 52 false (queueAt 0x2#32 3#5 99#32)) =
      some ([0x02, 0x04, 3, 0, 0xFC, 0xFF, 0x61, 0x62, 0x63], 0, 0) := by decide +kernel
/-- V-BS10: the last Huffman run of a stream with a block open. -/
theorem test_huff_lits_last :
    ran (huffLits abc 2 1 false (queueAt 0x2#32 3#5 99#32)) = some ([0x02, 0x2C], 0x19, 5) := by decide +kernel
/-- V-FT12, V-FT13: a faulted core refuses every word with its cause. -/
theorem test_refused :
    nextWith (runWord 0x11#32 faultedCore) (fun t => answered 5#4 0 t && decide (t.ctx = faultedCore.ctx)) = true ∧
    nextWith (runWord 0#32 faultedCore) (answered 5#4 0) = true := by decide +kernel


/-! ### Witnesses: for every statement with hypotheses, a state and operands that meet them together -/

theorem answersOk {x : Host.Outcome State Fault Refusal} {r : Response}
    (h : nextWith x (fun t => decide (t.response = some r)) = true) : ∃ t, x = .next t ∧ t.response = some r := by
  obtain ⟨t, ht, hp⟩ := nextWith_spec h
  exact ⟨t, ht, of_decide_eq_true hp⟩

/-- The command answered STATUS 7 (with any BYTES_WRITTEN). -/
def overflowed (t : State) : Bool :=
  match t.response with
  | some r => decide (r.status = 7#4)
  | none => false

theorem answersOverflow {x : Host.Outcome State Fault Refusal} (h : nextWith x overflowed = true) :
    ∃ t n, x = .next t ∧ t.response = some ⟨7#4, n⟩ := by
  obtain ⟨t, ht, hp⟩ := nextWith_spec h
  unfold overflowed at hp
  split at hp
  · rename_i r hr
    exact ⟨t, r.bytesWritten, ht, by rw [hr, ← of_decide_eq_true hp]⟩
  · cases hp

/-- A context with an empty table is a good one when its registers are. -/
theorem contextOk_of_empty {c : Context} (ht : c.table = [])
    (h : c.bitCount.toNat ≤ 7 ∧ c.bitQueue.toNat < 2 ^ c.bitCount.toNat ∧
      (c.phase.blockClosed = true → c.bitCount = 0#5) ∧ (c.level = 0#1 → c.phase.blockClosed = true) ∧
      (c.format = .deflate → c.crc = 0#32) ∧
      (c.format = .zlib → adlerLow c.crc < 65521 ∧ adlerHigh c.crc < 65521) ∧
      (c.phase = .init → c.inputLen = 0#64)) : ContextOk c where
  queueShort := h.1
  queueClean := h.2.1
  noPending := h.2.2.1
  tableWf := by rw [ht]; exact ⟨List.Pairwise.nil, fun _ he => absurd he List.not_mem_nil⟩
  slotHash := fun _ he => absurd (ht ▸ he) List.not_mem_nil
  slotPast := fun _ he => absurd (ht ▸ he) List.not_mem_nil
  levelZeroTable := fun _ => ht
  levelZeroPhase := h.2.2.2.1
  crcUnused := h.2.2.2.2.1
  adlerReduced := h.2.2.2.2.2.1
  initFresh := h.2.2.2.2.2.2

/-- A new GZIP stream at level 0, with "abc" at the port. -/
def newStored : State := coreAt (ctxAt .init 0#1 .gzip 0#32 0#5) abc 18#32
/-- A new GZIP stream at level 1, with "abc" and OCAP = H + 2n + 16 at the port. -/
def newGreedy : State := coreAt (ctxAt .init 1#1 .gzip 0#32 0#5) abc 32#32
/-- A DEFLATE stream in an open fixed block, its prefix 010 pending. -/
def openBlock : State := coreAt (ctxAt .fixed 1#1 .deflate 0x2#32 3#5) abc 22#32
/-- A ZLIB stream in its last block, 7 bits pending. -/
def lastBlock : State := coreAt (ctxAt .last 1#1 .zlib 0x7F#32 7#5) [] 6#32
/-- A ZLIB stream between blocks. -/
def betweenBlocks : State := coreAt (ctxAt .eob 1#1 .zlib 0#32 0#5) [] 9#32
/-- A GZIP stream whose last block is closed. -/
def closedStream : State := coreAt (ctxAt .done 0#1 .gzip 0#32 0#5) [] 8#32
/-- A DEFLATE stream in an open fixed block with 7 bits pending. -/
def openBlock7 : State := coreAt (ctxAt .fixed 1#1 .deflate 0x23#32 7#5) [] 7#32

theorem newStored_ok : ContextOk newStored.ctx := contextOk_of_empty rfl (by decide)
theorem newGreedy_ok : ContextOk newGreedy.ctx := contextOk_of_empty rfl (by decide)
theorem openBlock_ok : ContextOk openBlock.ctx := contextOk_of_empty rfl (by decide)
theorem lastBlock_ok : ContextOk lastBlock.ctx := contextOk_of_empty rfl (by decide)
theorem betweenBlocks_ok : ContextOk betweenBlocks.ctx := contextOk_of_empty rfl (by decide)
theorem closedStream_ok : ContextOk closedStream.ctx := contextOk_of_empty rfl (by decide)
theorem openBlock7_ok : ContextOk openBlock7.ctx := contextOk_of_empty rfl (by decide)

/-- DecodeFollowsOpcodeMap: a word of each row, one of none, and a core that is not faulted. -/
theorem witness_DecodeFollowsOpcodeMap :
    0x211#32 &&& 0xFFFFFC0F#32 = 0x00000001#32 ∧ 0x12#32 &&& 0xFFFFFFEF#32 = 0x00000002#32 ∧
    3#32 &&& 0xFFFFFFFF#32 = 0x00000003#32 ∧
    (0x401#32 &&& 0xFFFFFC0F#32 ≠ 0x00000001#32 ∧ 0x401#32 &&& 0xFFFFFFEF#32 ≠ 0x00000002#32 ∧
      0x401#32 &&& 0xFFFFFFFF#32 ≠ 0x00000003#32) ∧ State.reset.faulted = false := by decide
theorem witness_StepRunsDecodedCommand :
    (issuing 0x11#32 newStored).host = .command ⟨0x11#32, newStored.operands⟩ :: [] ∧
      decode 0x11#32 = .command (.init 1#4 0#2) := ⟨rfl, by decide⟩
theorem witness_IdleCoreKeepsState : newStored.host = [] := rfl
/-- PreChecksFaultInOrder: one state for each clause. -/
theorem witness_PreChecksFaultInOrder :
    faultedCore.faulted = true ∧
    (newStored.faulted = false ∧ decode 0x22#32 = .illegal .reservedBitSet) ∧
    (newStored.faulted = false ∧ decode 0x321#32 = .command (.init 2#4 3#2) ∧
      firstFailure (.init 2#4 3#2) newStored = some .badLevel) ∧
    (newStored.faulted = false ∧ decode 2#32 = .command (.encode false) ∧
      firstFailure (.encode false) newStored = none ∧ ∃ t, runWord 2#32 newStored = .next t) := by
  refine ⟨rfl, ⟨rfl, by decide⟩, ⟨rfl, by decide, by decide⟩, rfl, by decide, by decide, ?_⟩
  obtain ⟨t, ht, -⟩ := nextWith_spec (x := runWord 2#32 newStored) (p := fun _ => true) (by decide +kernel)
  exact ⟨t, ht⟩
/-- FaultedCoreRefusesEveryWord: a faulted core, and one that the host resets next. -/
theorem witness_FaultedCoreRefusesEveryWord :
    faultedCore.faulted = true ∧
      ∃ s t : State, s.faulted = true ∧ step s = .next t ∧ t.faulted = false :=
  ⟨rfl, { faultedCore with host := [.hardwareReset] }, _, rfl, rfl, rfl⟩
theorem witness_UnspecifiedRegistersAreNeverRead :
    ({ faultedCore with host := [.hardwareReset] } : State).host = .hardwareReset :: [] ∧
    (State.reset.faulted = false ∧ State.reset.ctx.phase = .uninit ∧
      (ctxAt .uninit 1#1 .zlib 0x5#32 3#5).phase = .uninit) ∧
    ∀ level format, Instr.encode true ≠ .init level format := by
  refine ⟨rfl, ⟨rfl, rfl, rfl⟩, fun _ _ h => by cases h⟩
theorem issuing_inv : (issuing 2#32 newGreedy).Inv where
  context := fun _ => newGreedy_ok
  causeClear := fun _ => rfl
  causeKnown := fun h => by cases h
  tableWf := ⟨List.Pairwise.nil, fun _ he => absurd he List.not_mem_nil⟩
  outWf := List.Pairwise.nil
/-- StepKeepsInvariant, GoodStatesNeverStop: a new stream with an ENCODE at the host's turn. -/
theorem witness_StepKeepsInvariant : ∃ s t : State, s.Inv ∧ step s = .next t := by
  obtain ⟨t, ht, -⟩ := nextWith_spec (x := step (issuing 2#32 newGreedy)) (p := fun _ => true) (by decide +kernel)
  exact ⟨_, t, issuing_inv, ht⟩
theorem witness_GoodStatesNeverStop : (issuing 2#32 newGreedy).Inv := issuing_inv
theorem witness_InitConfiguresStream :
    openBlock.faulted = false ∧ (1#4).toNat ≤ 1 ∧ formatCode .zlib = 1#2 := by decide
/-- EncodeStoresAtLevelZero: OCAP is exactly what the blocks need. -/
theorem witness_EncodeStoresAtLevelZero :
    (newStored.faulted = false ∧ breached newStored.operands = false) ∧ ContextOk newStored.ctx ∧ newStored.ctx.level = 0#1 ∧
    (newStored.ctx.phase = .init ∨ newStored.ctx.phase = .eob) ∧
    newStored.ctx.inputLen.toNat + newStored.operands.ilen.toNat < 2 ^ 64 ∧
    (headerSent newStored.ctx).length + newStored.operands.ilen.toNat +
      5 * ((newStored.operands.ilen.toNat + 65534) / 65535) ≤ newStored.operands.ocap.toNat :=
  ⟨⟨rfl, rfl⟩, newStored_ok, rfl, .inl rfl, by decide, by decide⟩
theorem witness_EncodeCompletesWithRoom :
    (openBlock.faulted = false ∧ breached openBlock.operands = false) ∧ ContextOk openBlock.ctx ∧
    (openBlock.ctx.phase = .init ∨ openBlock.ctx.phase = .eob ∨ openBlock.ctx.phase = .fixed) ∧
    openBlock.ctx.inputLen.toNat + openBlock.operands.ilen.toNat < 2 ^ 64 ∧
    (headerSent openBlock.ctx).length + 2 * openBlock.operands.ilen.toNat + 16 ≤ openBlock.operands.ocap.toNat :=
  ⟨⟨rfl, rfl⟩, openBlock_ok, .inr (.inr rfl), by decide, by decide⟩
/-- EncodeByteCount, EncodeFrame, ShortChunkTouchesNoSlot, PhaseMovesForward: an ENCODE at each level that answers OK. -/
theorem witness_EncodeByteCount :
    (∃ t, (newStored.faulted = false ∧ breached newStored.operands = false) ∧ ContextOk newStored.ctx ∧
      newStored.ctx.level = 0#1 ∧ exec (.encode false) newStored = .next t ∧ t.response = some ⟨0#4, 18#32⟩) ∧
    (∃ t, (newGreedy.faulted = false ∧ breached newGreedy.operands = false) ∧ ContextOk newGreedy.ctx ∧
      newGreedy.ctx.level = 1#1 ∧ exec (.encode true) newGreedy = .next t ∧ t.response = some ⟨0#4, 13#32⟩) := by
  obtain ⟨t, ht, hr⟩ := answersOk (x := exec (.encode false) newStored) (r := ⟨0#4, 18#32⟩) (by decide +kernel)
  obtain ⟨u, hu, hs⟩ := answersOk (x := exec (.encode true) newGreedy) (r := ⟨0#4, 13#32⟩) (by decide +kernel)
  exact ⟨⟨t, ⟨rfl, rfl⟩, newStored_ok, rfl, ht, hr⟩, ⟨u, ⟨rfl, rfl⟩, newGreedy_ok, rfl, hu, hs⟩⟩
theorem witness_EncodeFrame :
    ∃ t, (newStored.faulted = false ∧ breached newStored.operands = false) ∧ newStored.ctx.level = 0#1 ∧
      exec (.encode false) newStored = .next t ∧ t.response = some ⟨0#4, 18#32⟩ := by
  obtain ⟨⟨t, h1, -, h3, h4, h5⟩, -⟩ := witness_EncodeByteCount
  exact ⟨t, h1, h3, h4, h5⟩
theorem witness_EmptyChunkSendsHeaderOnly :
    (betweenBlocks.faulted = false ∧ breached betweenBlocks.operands = false) ∧ ContextOk betweenBlocks.ctx ∧
    (betweenBlocks.ctx.phase = .init ∨ betweenBlocks.ctx.phase = .eob ∨ betweenBlocks.ctx.phase = .fixed) ∧
    betweenBlocks.operands.ilen = 0#32 ∧
    (headerSent betweenBlocks.ctx).length ≤ betweenBlocks.operands.ocap.toNat :=
  ⟨⟨rfl, rfl⟩, betweenBlocks_ok, .inr (.inl rfl), rfl, by decide⟩
theorem witness_ShortChunkTouchesNoSlot :
    ∃ t, (newGreedy.faulted = false ∧ breached newGreedy.operands = false) ∧ newGreedy.operands.ilen.toNat < 4 ∧
      exec (.encode true) newGreedy = .next t ∧ t.response = some ⟨0#4, 13#32⟩ := by
  obtain ⟨-, t, h1, -, -, h4, h5⟩ := witness_EncodeByteCount
  exact ⟨t, h1, by decide, h4, h5⟩
/-- FinishClosesStream: OCAP exactly what is sent, from LAST with 7 bits pending. -/
theorem witness_FinishClosesStream :
    lastBlock.faulted = false ∧ ContextOk lastBlock.ctx ∧ lastBlock.ctx.phase ≠ .uninit ∧
    lastBlock.ctx.phase ≠ .ended ∧ (finishBytes lastBlock.ctx).length ≤ lastBlock.operands.ocap.toNat :=
  ⟨rfl, lastBlock_ok, by decide, by decide, by decide +kernel⟩
/-- FinishByteBound: a FINISH that answers OK from each entry phase; FIXED and LAST at their largest output. -/
theorem witness_FinishByteBound :
    (∃ t, ContextOk newGreedy.ctx ∧ newGreedy.ctx.phase = .init ∧ exec .finish newGreedy = .next t ∧
      t.response = some ⟨0#4, 23#32⟩) ∧
    (∃ t, ContextOk openBlock7.ctx ∧ openBlock7.ctx.phase = .fixed ∧ exec .finish openBlock7 = .next t ∧
      t.response = some ⟨0#4, 7#32⟩) ∧
    (∃ t, ContextOk lastBlock.ctx ∧ lastBlock.ctx.phase = .last ∧ exec .finish lastBlock = .next t ∧
      t.response = some ⟨0#4, 6#32⟩) ∧
    (∃ t, ContextOk betweenBlocks.ctx ∧ betweenBlocks.ctx.phase = .eob ∧ exec .finish betweenBlocks = .next t ∧
      t.response = some ⟨0#4, 9#32⟩) ∧
    (∃ t, ContextOk closedStream.ctx ∧ closedStream.ctx.phase = .done ∧ exec .finish closedStream = .next t ∧
      t.response = some ⟨0#4, 8#32⟩) := by
  refine ⟨?_, ?_, ?_, ?_, ?_⟩
  · obtain ⟨t, ht, hr⟩ := answersOk (x := exec .finish newGreedy) (r := ⟨0#4, 23#32⟩) (by decide +kernel)
    exact ⟨t, newGreedy_ok, rfl, ht, hr⟩
  · obtain ⟨t, ht, hr⟩ := answersOk (x := exec .finish openBlock7) (r := ⟨0#4, 7#32⟩) (by decide +kernel)
    exact ⟨t, openBlock7_ok, rfl, ht, hr⟩
  · obtain ⟨t, ht, hr⟩ := answersOk (x := exec .finish lastBlock) (r := ⟨0#4, 6#32⟩) (by decide +kernel)
    exact ⟨t, lastBlock_ok, rfl, ht, hr⟩
  · obtain ⟨t, ht, hr⟩ := answersOk (x := exec .finish betweenBlocks) (r := ⟨0#4, 9#32⟩) (by decide +kernel)
    exact ⟨t, betweenBlocks_ok, rfl, ht, hr⟩
  · obtain ⟨t, ht, hr⟩ := answersOk (x := exec .finish closedStream) (r := ⟨0#4, 8#32⟩) (by decide +kernel)
    exact ⟨t, closedStream_ok, rfl, ht, hr⟩
theorem witness_SecondFinishFaults :
    ∃ t, closedStream.faulted = false ∧ exec .finish closedStream = .next t ∧
      t.response = some ⟨0#4, 8#32⟩ := by
  obtain ⟨-, -, -, -, t, -, -, h, hr⟩ := witness_FinishByteBound
  exact ⟨t, rfl, h, hr⟩
theorem witness_SecondFinishFaults_ended :
    (closedStream.withPhase .ended).faulted = false ∧ (closedStream.withPhase .ended).ctx.phase = .ended :=
  ⟨rfl, rfl⟩
/-- PhaseMovesForward: an ENCODE with MORE = 1, a FINISH and an INIT that answer OK, and a stream past its close. -/
theorem witness_PhaseMovesForward :
    (∃ t, (newGreedy.faulted = false ∧ breached newGreedy.operands = false) ∧ exec (.encode true) newGreedy = .next t ∧
      t.response = some ⟨0#4, 13#32⟩) ∧
    (∃ t, closedStream.faulted = false ∧ exec .finish closedStream = .next t ∧ t.response = some ⟨0#4, 8#32⟩) ∧
    (∃ t, openBlock.faulted = false ∧ exec (.init 0#4 2#2) openBlock = .next t ∧ t.response = some ⟨0#4, 0#32⟩) ∧
    (closedStream.faulted = false ∧
      (closedStream.ctx.phase = .last ∨ closedStream.ctx.phase = .done ∨ closedStream.ctx.phase = .ended)) := by
  obtain ⟨-, t, h1, -, -, h4, h5⟩ := witness_EncodeByteCount
  exact ⟨⟨t, h1, h4, h5⟩, witness_SecondFinishFaults, ⟨_, rfl, rfl, rfl⟩, rfl, .inr (.inl rfl)⟩
/-- OverflowFillsWindow: OCAP one byte short. -/
theorem witness_OverflowFillsWindow :
    ∃ t n, closedStream.faulted = false ∧ exec .finish (closedStream.withOcap 7#32) = .next t ∧
      t.response = some ⟨7#4, n⟩ := by
  obtain ⟨t, n, ht, hr⟩ := answersOverflow (x := exec .finish (closedStream.withOcap 7#32)) (by decide +kernel)
  exact ⟨t, n, rfl, ht, hr⟩
/-- CapacityDecidesOverflowOnly: both clauses at the capacity where they meet, for an ENCODE of 13 bytes and for a FINISH of
8 bytes, whose premise on ENCODE is empty. -/
theorem witness_CapacityDecidesOverflowOnly :
    (∃ t, newGreedy.faulted = false ∧
      (∀ k, breached newGreedy.operands = false ∧ breached (newGreedy.withOcap k).operands = false) ∧
      exec (.encode true) newGreedy = .next t ∧ t.response = some ⟨0#4, 13#32⟩ ∧
      (13#32).toNat ≤ (13#32).toNat ∧ (12#32).toNat < (13#32).toNat) ∧
    (∃ t, closedStream.faulted = false ∧ (∀ more, Instr.finish ≠ .encode more) ∧
      exec .finish closedStream = .next t ∧ t.response = some ⟨0#4, 8#32⟩ ∧
      (8#32).toNat ≤ (8#32).toNat ∧ (7#32).toNat < (8#32).toNat) := by
  obtain ⟨-, u, hu, -, -, h4, h5⟩ := witness_EncodeByteCount
  obtain ⟨t, h1, h2, h3⟩ := witness_SecondFinishFaults
  exact ⟨⟨u, hu.1, fun _ => ⟨rfl, rfl⟩, h4, h5, by decide, by decide⟩,
    t, h1, (fun _ h => by cases h), h2, h3, by decide, by decide⟩
/-- OutByteWritesAtCursor: a full window, and one with a byte left. -/
theorem witness_OutByteWritesAtCursor :
    (queueAt 0#32 0#5 0#32).work.cursor = (queueAt 0#32 0#5 0#32).work.ocap ∧
      (queueAt 0#32 0#5 1#32).work.cursor ≠ (queueAt 0#32 0#5 1#32).work.ocap := by decide
/-- EnqueueAppendsBits: the widest field on the fullest queue. -/
theorem witness_EnqueueAppendsBits :
    24 ≤ 24 ∧ (0xFFFFFF#32).toNat < 2 ^ 24 ∧ (queueAt 0x7F#32 7#5 3#32).ctx.bitCount.toNat ≤ 7 ∧
    (queueAt 0x7F#32 7#5 3#32).ctx.bitQueue.toNat < 2 ^ (queueAt 0x7F#32 7#5 3#32).ctx.bitCount.toNat ∧
    (queueAt 0x7F#32 7#5 3#32).work.cursor.toNat + ((queueAt 0x7F#32 7#5 3#32).ctx.bitCount.toNat + 24) / 8 ≤
      (queueAt 0x7F#32 7#5 3#32).work.ocap.toNat := by decide
theorem witness_FlushPadsWithZeros :
    (queueAt 0x7F#32 7#5 1#32).ctx.bitCount.toNat ≤ 7 ∧
    (queueAt 0x7F#32 7#5 1#32).ctx.bitQueue.toNat < 2 ^ (queueAt 0x7F#32 7#5 1#32).ctx.bitCount.toNat ∧
    (queueAt 0x7F#32 7#5 1#32).work.cursor.toNat + ((queueAt 0x7F#32 7#5 1#32).ctx.bitCount.toNat + 7) / 8 ≤
      (queueAt 0x7F#32 7#5 1#32).work.ocap.toNat := by decide
theorem witness_RawWritersStoreInOrder :
    (queueAt 0#32 0#5 3#32).ctx.bitCount = 0#5 ∧
    (queueAt 0#32 0#5 3#32).work.cursor.toNat + abc.length ≤ (queueAt 0#32 0#5 3#32).work.ocap.toNat ∧
    1 + 2 ≤ abc.length := by decide
/-- ForbiddenQueueCallsAreRefused: one bit too wide, one bit too large a value, one bit pending. -/
theorem witness_ForbiddenQueueCallsAreRefused :
    (24 < 25 ∨ 2 ^ 25 ≤ (0#32).toNat) ∧ (24 < 3 ∨ 2 ^ 3 ≤ (8#32).toNat) ∧
      (queueAt 0x1#32 1#5 9#32).ctx.bitCount ≠ 0#5 := by decide
/-- DeferredAdlerAgrees: the largest halves and the longest block. -/
theorem witness_DeferredAdlerAgrees :
    adlerLow 0xFFF0FFF0#32 < 65521 ∧ adlerHigh 0xFFF0FFF0#32 < 65521 ∧
      (List.replicate 4096 0xFF#8).length ≤ 4096 := by
  exact ⟨by decide, by decide, Nat.le_of_eq List.length_replicate⟩
/-- FieldsFitTheQueue: the ends of both ranges. -/
theorem witness_FieldsFitTheQueue : (4 ≤ 4 ∧ 4 ≤ 258) ∧ (4 ≤ 258 ∧ 258 ≤ 258) ∧ (1 ≤ 1 ∧ 1 ≤ 32768) ∧
    (1 ≤ 32768 ∧ 32768 ≤ 32768) := by decide
theorem witness_LiteralLengthCodesArePrefixFree :
    256 < 288 ∧ 255 < 288 ∧ 256 ≠ 255 ∧ (symbolCode 256).2 ≤ (symbolCode 255).2 := by decide
theorem witness_MatchFieldsAreDistinct :
    lenField 258 = some ⟨0xA3#32, 8⟩ ∧ distField 32768 = some ⟨0x3FFF7#32, 18⟩ := by decide +kernel
theorem witness_WindowBoundaryIsExact : 32769 ≤ 32769 := Nat.le_refl _
theorem witness_ExtendMeasuresTheMatch : 3 + 4 ≤ abc4.length ∧ 0 < 3 := by decide
/-- The table of the scan of "abcabcabcabc" at 3: the slot of "abca" written at 0. -/
def abcaTable : Table := [(335, ⟨0#64, 0x61636261#32⟩)]
theorem abcaTable_agrees : TableAgrees abc4 0 3 abcaTable := by
  intro h x hx
  have hmem := Laws.mem_of_entryAt hx
  obtain ⟨h1, h2⟩ : h.toNat = 335 ∧ x = ⟨0#64, 0x61636261#32⟩ := by simpa [abcaTable] using hmem
  subst h2
  exact ⟨BitVec.eq_of_toNat_eq (by rw [h1]; decide), by decide, fun _ => by decide +kernel⟩
/-- MatchCopiesEqualBytes: the match (3, 9) of "abcabcabcabc". -/
theorem witness_MatchCopiesEqualBytes :
    TableAgrees abc4 0 3 abcaTable ∧ readWord abc4 3 = some 0x61636261#32 ∧
      candidate 0x61636261#32 (Table.slot abcaTable (hashWord 0x61636261#32)) (0 + 3) 3 = .found 3 0 :=
  ⟨abcaTable_agrees, by decide +kernel, by decide +kernel⟩
/-- An ENCODE of "abcabcabcabc" at its first position. -/
def scanning : State := (beginEncode true (coreAt (ctxAt .eob 1#1 .deflate 0#32 0#5) abc4 99#32))
/-- ScanStepWritesOneSlot: the turn at position 0. -/
theorem witness_ScanStepWritesOneSlot :
    abc4.length < 2 ^ 32 ∧ scanning.work.base.toNat + abc4.length < 2 ^ 64 ∧
    scanning.work.pos.toNat + 4 ≤ abc4.length ∧ (∃ s', scanStep abc4 scanning = .run s') ∧
    TableAgrees abc4 scanning.work.base.toNat scanning.work.pos.toNat scanning.ctx.table := by
  refine ⟨by decide, by decide, by decide, ?_, fun h x hx => by cases hx⟩
  have h : (ran (scanStep abc4 scanning)).isSome = true := by decide +kernel
  cases hs : scanStep abc4 scanning with
  | run s' => exact ⟨s', rfl⟩
  | overflow s' => rw [hs] at h; cases h
  | stopped e => rw [hs] at h; cases h
  | refused r => rw [hs] at h; cases h
/-- "abcabca". -/
def abca7 : List Byte := abc ++ abc ++ [0x61#8]
/-- An ENCODE of "abcabca" at position 3, where a match (4, 3) is found, with the penalty counter at `bit9`. -/
def scanningMatch (bit9 : Word) : State :=
  (beginEncode true (coreAt { ctxAt .eob 1#1 .deflate 0#32 0#5 with table := abcaTable } abca7 99#32)).withScan
    3#32 3#32 bit9
theorem scanningMatch_candidate (bit9 : Word) :
    candidate 0x61636261#32 (Table.slot (scanningMatch bit9).ctx.table (hashWord 0x61636261#32))
      ((scanningMatch bit9).work.base.toNat + (scanningMatch bit9).work.pos.toNat)
      (scanningMatch bit9).work.pos.toNat = .found 3 0 ∧ extend abca7 (scanningMatch bit9).work.pos.toNat 0 = 4 :=
  ⟨by change candidate 0x61636261#32 (Table.slot abcaTable (hashWord 0x61636261#32)) 3 3 = .found 3 0; decide +kernel,
    by change extend abca7 3 0 = 4; decide +kernel⟩
/-- ScanStepWritesOneSlot: a match of 4 bytes that is taken, the penalty counter at 51 (R101). -/
theorem witness_ScanStepWritesOneSlot_match :
    (∃ x, ran (scanStep abca7 (scanningMatch 51#32)) = some x) ∧ readWord abca7 3 = some 0x61636261#32 ∧
      MatchAccepted abca7 (scanningMatch 51#32) 0x61636261#32 3 4 :=
  ⟨Option.isSome_iff_exists.1 (by decide +kernel), by decide +kernel, 0, ⟨0x8#32, 5⟩, ⟨0x20#32, 7⟩,
    (scanningMatch_candidate _).1, (scanningMatch_candidate _).2.symm, by decide +kernel, by decide +kernel, by decide,
    by decide⟩
/-- ScanStepWritesOneSlot: the same match refused, the penalty counter at 52 (R101). -/
theorem witness_ScanStepWritesOneSlot_literal :
    (∃ x, ran (scanStep abca7 (scanningMatch 52#32)) = some x) ∧ readWord abca7 3 = some 0x61636261#32 ∧
      ∀ dist len, ¬ MatchAccepted abca7 (scanningMatch 52#32) 0x61636261#32 dist len := by
  refine ⟨Option.isSome_iff_exists.1 (by decide +kernel), by decide +kernel, ?_⟩
  rintro dist len ⟨offset, df, lf, hc, hlen, -, -, hshort, -⟩
  rw [(scanningMatch_candidate _).1] at hc
  obtain ⟨-, rfl⟩ := Candidate.found.inj hc
  rw [(scanningMatch_candidate _).2] at hlen
  exact hshort ⟨by decide, by omega⟩
/-- The pending bits of `openBlock` are the prefix 010 of its block. -/
theorem openBlock_prefix : DeflatePrefix ([] ++ pendingBits openBlock.ctx) openBlock.ctx.phase [] := by
  have h : pendingBits openBlock.ctx = [] ++ [false, true, false] := by decide
  rw [h]
  exact .openFixed .start
/-- EncodeSendsDeflateOfChunk: both starts, a new stream and an open block. -/
theorem witness_EncodeSendsDeflateOfChunk :
    (∃ t, (newGreedy.faulted = false ∧ breached newGreedy.operands = false) ∧ ContextOk newGreedy.ctx ∧ 8 ∣ ([] : List Bool).length ∧
      newGreedy.ctx.phase = .init ∧ exec (.encode true) newGreedy = .next t ∧ t.response = some ⟨0#4, 13#32⟩) ∧
    (∃ t, (openBlock.faulted = false ∧ breached openBlock.operands = false) ∧ ContextOk openBlock.ctx ∧ 8 ∣ ([] : List Bool).length ∧
      DeflatePrefix ([] ++ pendingBits openBlock.ctx) openBlock.ctx.phase [] ∧
      exec (.encode true) openBlock = .next t ∧ t.response = some ⟨0#4, 3#32⟩) := by
  obtain ⟨-, t, h1, -, -, h4, h5⟩ := witness_EncodeByteCount
  obtain ⟨u, hu, hs⟩ := answersOk (x := exec (.encode true) openBlock) (r := ⟨0#4, 3#32⟩) (by decide +kernel)
  exact ⟨⟨t, h1, newGreedy_ok, ⟨0, rfl⟩, rfl, h4, h5⟩, ⟨u, ⟨rfl, rfl⟩, openBlock_ok, ⟨0, rfl⟩, openBlock_prefix, hu, hs⟩⟩
/-- FinishEndsDeflateStream: both starts. -/
theorem witness_FinishEndsDeflateStream :
    (∃ t, newGreedy.faulted = false ∧ ContextOk newGreedy.ctx ∧ 8 ∣ ([] : List Bool).length ∧
      newGreedy.ctx.phase = .init ∧ exec .finish newGreedy = .next t ∧ t.response = some ⟨0#4, 23#32⟩) ∧
    (∃ t, openBlock.faulted = false ∧ ContextOk openBlock.ctx ∧ 8 ∣ ([] : List Bool).length ∧
      DeflatePrefix ([] ++ pendingBits openBlock.ctx) openBlock.ctx.phase [] ∧
      exec .finish openBlock = .next t ∧ t.response = some ⟨0#4, 6#32⟩) := by
  obtain ⟨t, ht, hr⟩ := answersOk (x := exec .finish newGreedy) (r := ⟨0#4, 23#32⟩) (by decide +kernel)
  obtain ⟨u, hu, hs⟩ := answersOk (x := exec .finish openBlock) (r := ⟨0#4, 6#32⟩) (by decide +kernel)
  exact ⟨⟨t, rfl, newGreedy_ok, ⟨0, rfl⟩, rfl, ht, hr⟩, ⟨u, rfl, openBlock_ok, ⟨0, rfl⟩, openBlock_prefix, hu, hs⟩⟩
/-- CompletedStreamStandsForItsData: `INIT 1, GZIP; ENCODE 0, "abc"; FINISH` (V-FR7). -/
theorem witness_CompletedStreamStandsForItsData :
    ∃ s sent t n, Session .gzip s sent ([] ++ chunkOf newGreedy.operands) ∧
      exec .finish (acceptOperands newGreedy.operands s) = .next t ∧ t.response = some ⟨0#4, n⟩ := by
  have h : nextWith (exec (.init 1#4 (formatCode .gzip)) State.reset) (fun a =>
      decide (a.response = some ⟨statusOk, 0#32⟩) &&
      nextWith (exec (.encode false) (acceptOperands newGreedy.operands a)) (fun b =>
        decide (b.response = some ⟨statusOk, 13#32⟩) &&
        nextWith (exec .finish (acceptOperands newGreedy.operands b)) (fun c =>
          decide (c.response = some ⟨0#4, 10#32⟩)))) = true := by decide +kernel
  obtain ⟨a, ha, hp⟩ := nextWith_spec h
  obtain ⟨ha', hp⟩ := Bool.and_eq_true_iff.1 hp
  obtain ⟨b, hb, hp⟩ := nextWith_spec hp
  obtain ⟨hb', hp⟩ := Bool.and_eq_true_iff.1 hp
  obtain ⟨c, hc, hc'⟩ := nextWith_spec hp
  exact ⟨b, _, c, _, .encoded (.opened rfl ha (of_decide_eq_true ha')) rfl hb (of_decide_eq_true hb'), hc,
    of_decide_eq_true hc'⟩
/-- A new stream whose ENCODE has IN and OUT overlap. -/
def newBreached : State := { newGreedy with operands := { newGreedy.operands with breach := some .overlap } }
/-- BreachedEncodeIsUnspecified: IN and OUT overlap during an ENCODE of a new stream, and during one with another context and
another chunk. -/
theorem witness_BreachedEncodeIsUnspecified :
    let s := newBreached
    s.faulted = false ∧ firstFailure (.encode true) s = none ∧ breached s.operands = true ∧
      firstFailure (.encode false) { s with ctx := openBlock.ctx, operands := { s.operands with input := [] } } = none := by
  decide
theorem newBreached_encode (more : Bool) : exec (.encode more) newBreached = .next (breachedEncode newBreached) :=
  Laws.execEncode_of_breached rfl (.inl rfl) (by decide) (by decide)
/-- EncodeFrame where the host breaks a duty: the premises are met when the free value that decides the answer is OK. -/
theorem witness_EncodeFrame_breached (h : Config.freeOverflows newBreached.draws = false) :
    ∃ t n, newBreached.faulted = false ∧ exec (.encode true) newBreached = .next t ∧ t.response = some ⟨0#4, n⟩ :=
  ⟨_, freeCount newBreached.draws newBreached.operands.ocap, rfl, newBreached_encode true,
    by simp [breachedEncode, h, statusOk]⟩
/-- OverflowFillsWindow where the host breaks a duty: the premises are met when that free value is OutputOverflow. -/
theorem witness_OverflowFillsWindow_breached (h : Config.freeOverflows newBreached.draws = true) :
    ∃ t n, newBreached.faulted = false ∧ exec (.encode true) newBreached = .next t ∧ t.response = some ⟨7#4, n⟩ :=
  ⟨_, Config.freeBytesWritten newBreached.draws, rfl, newBreached_encode true, by simp [breachedEncode, h]⟩
/-- LegalContextsAreTheGoodOnes: a context with a slot, and a good one. -/
theorem witness_LegalContextsAreTheGoodOnes :
    Table.wf ({ newGreedy.ctx with table := [(335, ⟨0#64, 0x61636261#32⟩)] } : Context).table ∧ ContextOk openBlock.ctx :=
  ⟨by decide, openBlock_ok⟩
/-- A window of no bytes breaks no duty (R51, R153); one of some bytes does. -/
theorem test_breached :
    breached ⟨[], 0#32, 5#32, some .overlap⟩ = false ∧ breached ⟨[], 3#32, 0#32, some .outputUnwritable⟩ = false ∧
    breached ⟨[], 3#32, 5#32, some .overlap⟩ = true ∧ breached ⟨[], 3#32, 5#32, some .inputChanged⟩ = true ∧
    breached ⟨[], 3#32, 5#32, none⟩ = false := by decide

end Sys2Proof.Machine.Tests
end

/-! PROOFS. What an operation of the core leaves, as one judgement on its outcome, and the judgement for every operation of
the bit queue, of the block state machine and of the framer: the pending bits are few and clean (10_state.md R21, R22), OUT is
canonical, and `state` moves as 45_block_state_machine.md says. -/
section

namespace Sys2Proof.Machine.StateProofs

open Sys2Proof.Machine.Laws

/-! ### Outcomes -/

/-- An operation that runs to its end leaves a state with `P`; one that overflows leaves OUT in its canonical form, all that
the invariant asks of a core that has faulted inside a command (60_exceptions.md R139). -/
def Leaves (P : State → Prop) : Flow → Prop
  | .run s => P s
  | .overflow s => Memory.wf s.out
  | .stopped _ => True
  | .refused _ => True

section
variable {P Q : State → Prop}

@[simp] theorem leaves_run (s : State) : Leaves P (.run s) ↔ P s := Iff.rfl
@[simp] theorem leaves_overflow (s : State) : Leaves P (.overflow s) ↔ Memory.wf s.out := Iff.rfl
@[simp] theorem leaves_stopped (e : Fault) : Leaves P (.stopped e) := trivial
@[simp] theorem leaves_refused (r : Refusal) : Leaves P (.refused r) := trivial

theorem Leaves.bind {x : Flow} {f : State → Flow} (hx : Leaves P x) (hf : ∀ m, P m → Leaves Q (f m)) :
    Leaves Q (x.bind f) := by
  cases x with
  | run m => exact hf m hx
  | overflow m => exact hx
  | stopped e => trivial
  | refused r => trivial

/-- A weaker judgement; what is known of the state it ran to may be used. -/
theorem Leaves.mono_run {x : Flow} (hx : Leaves P x) (h : ∀ m, x = .run m → P m → Q m) : Leaves Q x := by
  cases x with
  | run m => exact h m rfl hx
  | overflow m => exact hx
  | stopped e => trivial
  | refused r => trivial

theorem Leaves.mono {x : Flow} (hx : Leaves P x) (h : ∀ m, P m → Q m) : Leaves Q x :=
  hx.mono_run fun m _ => h m
end

/-! ### The bit queue (41_bit_queue.md) -/

/-- What holds between two bit-queue operations in the phase `p`. -/
structure SoundIn (p : Phase) (s : State) : Prop where
  queueShort : s.ctx.bitCount.toNat ≤ 7
  queueClean : s.ctx.bitQueue.toNat < 2 ^ s.ctx.bitCount.toNat
  outWf : Memory.wf s.out
  phase : s.ctx.phase = p

/-- What holds at a byte boundary in the phase `p`. -/
structure AlignedIn (p : Phase) (s : State) : Prop extends SoundIn p s where
  noBits : s.ctx.bitCount = 0#5

/-- What holds in the phase `p` between two parts of a command: no bit is pending while no block is open (R120). -/
structure SettledIn (p : Phase) (s : State) : Prop extends SoundIn p s where
  noPending : p.blockClosed = true → s.ctx.bitCount = 0#5

theorem AlignedIn.settled {p : Phase} {s : State} (h : AlignedIn p s) : SettledIn p s := ⟨h.toSoundIn, fun _ => h.noBits⟩

theorem SettledIn.aligned {p : Phase} {s : State} (h : SettledIn p s) (hp : p.blockClosed = true) : AlignedIn p s :=
  ⟨h.toSoundIn, h.noPending hp⟩

theorem SoundIn.settled {p : Phase} {s : State} (h : SoundIn p s) (hp : p.blockClosed = false) : SettledIn p s :=
  ⟨h, fun hc => absurd (hp.symm.trans hc) (by decide)⟩

theorem SoundIn.withPhase {p : Phase} {s : State} (h : SoundIn p s) (q : Phase) : SoundIn q (s.withPhase q) :=
  ⟨h.queueShort, h.queueClean, h.outWf, rfl⟩

theorem AlignedIn.withPhase {p : Phase} {s : State} (h : AlignedIn p s) (q : Phase) : AlignedIn q (s.withPhase q) :=
  ⟨h.toSoundIn.withPhase q, h.noBits⟩

/-- OutByte keeps the context and the canonical form of OUT. -/
theorem outByte_leaves (b : Byte) {s : State} (h : Memory.wf s.out) :
    Leaves (fun m => m.ctx = s.ctx ∧ Memory.wf m.out) (outByte b s) := by
  rcases outByte_cases b s with ⟨-, hx⟩ | ⟨-, hx⟩ <;> rw [hx]
  · exact h
  · exact ⟨rfl, memory_write_wf _ b h⟩

theorem outBytes_leaves (bs : List Byte) {s : State} (h : Memory.wf s.out) :
    Leaves (fun m => m.ctx = s.ctx ∧ Memory.wf m.out) (outBytes bs s) := by
  induction bs generalizing s with
  | nil => exact ⟨rfl, h⟩
  | cons b rest ih =>
    refine (outByte_leaves b h).bind fun m ⟨hctx, hout⟩ => ?_
    exact hctx ▸ ih hout

/-- A field above the pending bits of a clean queue leaves it clean. -/
theorem queue_append_lt {q v : Word} {n w : Nat} (hq : q.toNat < 2 ^ n) (hv : v.toNat < 2 ^ w) :
    (q ||| (v <<< n)).toNat < 2 ^ (n + w) := by
  have hq' : q.toNat < 2 ^ (n + w) := hq.trans_le (Nat.pow_le_pow_right (by decide) (Nat.le_add_right n w))
  have hv' : v.toNat <<< n < 2 ^ (n + w) := by
    rw [Nat.shiftLeft_eq, Nat.pow_add, Nat.mul_comm (2 ^ n)]
    exact Nat.mul_lt_mul_of_pos_right hv (Nat.two_pow_pos n)
  rw [BitVec.toNat_or, BitVec.toNat_shiftLeft]
  exact Nat.or_lt_two_pow hq' ((Nat.mod_le _ _).trans_lt hv')

/-- A clean queue is clean after its low byte has left it. -/
theorem queue_drop_lt {q : Word} {n : Nat} (hn : 8 ≤ n) (hq : q.toNat < 2 ^ n) : (q >>> 8).toNat < 2 ^ (n - 8) := by
  rw [BitVec.toNat_ushiftRight, Nat.shiftRight_eq_div_pow, Nat.div_lt_iff_lt_mul (by decide), ← Nat.pow_add,
    Nat.sub_add_cancel hn]
  exact hq

/-- `k` turns of the loop of ENQUEUE empty a queue of at most `8 k + 7` bits of its complete bytes (R64). -/
theorem drain_leaves {p : Phase} (k : Nat) {s : State} (hlen : s.ctx.bitCount.toNat ≤ 8 * k + 7)
    (hclean : s.ctx.bitQueue.toNat < 2 ^ s.ctx.bitCount.toNat) (hout : Memory.wf s.out) (hp : s.ctx.phase = p) :
    Leaves (SoundIn p) (drain k s) := by
  induction k generalizing s with
  | zero => exact ⟨hlen, hclean, hout, hp⟩
  | succ k ih =>
    by_cases hshort : s.ctx.bitCount.toNat < 8
    · rw [drain_of_short hshort]
      exact ⟨Nat.le_of_lt_succ hshort, hclean, hout, hp⟩
    · have hfull : 8 ≤ s.ctx.bitCount.toNat := Nat.not_lt.1 hshort
      rw [drain_of_full hfull]
      refine (outByte_leaves _ hout).bind fun m ⟨hctx, hm⟩ => ?_
      have hsub : (s.ctx.bitCount - 8#5).toNat = s.ctx.bitCount.toNat - 8 := BitVec.toNat_sub_of_le hfull
      refine ih ?_ ?_ hm ?_
      · simp only [withQueue_bitCount, hctx, hsub]
        omega
      · simp only [withQueue_bitCount, withQueue_bitQueue, hctx, hsub]
        exact queue_drop_lt hfull hclean
      · rw [withQueue_phase, hctx, hp]

/-- ENQUEUE keeps the queue short and clean (R64, R65; 10_state.md R21, R22). -/
theorem enqueue_leaves {p : Phase} (f : Field) {s : State} (h : SoundIn p s) : Leaves (SoundIn p) (enqueue f s) := by
  by_cases hbad : maxEnqueue < f.width ∨ 2 ^ f.width ≤ f.value.toNat
  · simp [enqueue, hbad]
  · have hq := h.queueShort
    obtain ⟨hw, hv⟩ : f.width ≤ 24 ∧ f.value.toNat < 2 ^ f.width := by
      simpa only [maxEnqueue, not_or, Nat.not_lt, Nat.not_le] using hbad
    have hadd : (s.ctx.bitCount + BitVec.ofNat 5 f.width).toNat = s.ctx.bitCount.toNat + f.width := by
      rw [BitVec.toNat_add, BitVec.toNat_ofNat]
      omega
    rw [enqueue_of_fits hw hv hq]
    refine drain_leaves 3 ?_ ?_ h.outWf h.phase
    · rw [withQueue_bitCount, hadd]
      omega
    · rw [withQueue_bitCount, withQueue_bitQueue, hadd]
      exact queue_append_lt h.queueClean hv

/-- FLUSH_TO_BYTE leaves a byte boundary (R66). -/
theorem flushToByte_leaves {p : Phase} {s : State} (h : SoundIn p s) : Leaves (AlignedIn p) (flushToByte s) := by
  unfold flushToByte
  refine Leaves.bind (P := fun m => m.ctx = s.ctx ∧ Memory.wf m.out) ?_ fun m ⟨hctx, hm⟩ => ?_
  · split
    · exact outByte_leaves _ h.outWf
    · exact ⟨rfl, h.outWf⟩
  · exact ⟨⟨by simp, by simp, hm, by rw [withQueue_phase, hctx, h.phase]⟩, rfl⟩

/-- The raw writers keep the byte boundary they need (R67). -/
theorem writeRawBytes_leaves {p : Phase} (bs : List Byte) {s : State} (h : SoundIn p s) :
    Leaves (AlignedIn p) (writeRawBytes bs s) := by
  by_cases h0 : s.ctx.bitCount = 0#5
  · rw [writeRawBytes_aligned h0]
    refine (outBytes_leaves bs h.outWf).mono fun m ⟨hctx, hm⟩ => ?_
    exact ⟨⟨hctx ▸ h.queueShort, hctx ▸ h.queueClean, hm, hctx ▸ h.phase⟩, hctx ▸ h0⟩
  · simp [writeRawBytes, h0]

theorem writeRaw_leaves {p : Phase} (inp : List Byte) (i n : Nat) {s : State} (h : SoundIn p s) :
    Leaves (AlignedIn p) (writeRaw inp i n s) := by
  unfold writeRaw
  split
  · trivial
  · exact writeRawBytes_leaves _ h

/-! ### Blocks (45_block_state_machine.md) -/

/-- The phase of an open fixed-Huffman block (R112): the last block is opened where the command's MORE is 0. -/
def openPhase (more : Bool) : Phase := if more then .fixed else .last

/-- The phase after stored blocks (R115): the last of them is final where the command's MORE is 0. -/
def storedPhase (more : Bool) : Phase := if more then .eob else .done

theorem openFixed_leaves {p : Phase} (more : Bool) {s : State} (h : SoundIn p s) :
    Leaves (SoundIn (openPhase more)) (openFixed more s) := by
  cases more
  · exact enqueue_leaves (blockHeader true btypeFixed) (h.withPhase .last)
  · exact enqueue_leaves (blockHeader false btypeFixed) (h.withPhase .fixed)

/-- One stored block ends at a byte boundary, in DONE when it is final and in EOB otherwise (R115). -/
theorem storedPiece_leaves {p : Phase} (inp : List Byte) (i c : Nat) (final : Bool) {s : State} (h : SoundIn p s) :
    Leaves (AlignedIn (storedPhase !final)) (storedPiece inp i c final s) := by
  unfold storedPiece
  refine Leaves.bind (P := SoundIn p) ?_ fun m hm => ?_
  · split
    · exact h
    · exact enqueue_leaves _ h
  have hopen : Leaves (SoundIn (storedPhase !final))
      (enqueue (blockHeader final btypeStored) (m.withPhase (if final then .done else .eob))) := by
    cases final
    · exact enqueue_leaves _ (hm.withPhase .eob)
    · exact enqueue_leaves _ (hm.withPhase .done)
  exact hopen.bind fun m hm => (flushToByte_leaves hm).bind fun m hm =>
    (writeRawBytes_leaves _ hm.toSoundIn).bind fun m hm => (writeRawBytes_leaves _ hm.toSoundIn).bind fun m hm =>
      writeRaw_leaves inp i c hm.toSoundIn

/-- The loop of STORED, with turns enough for the bytes left, ends after its last block (R115). -/
theorem storedLoop_leaves {p : Phase} (inp : List Byte) (more : Bool) {k : Nat} (i : Nat) {rem : Nat} {s : State}
    (hfuel : rem < k) (h : SoundIn p s) : Leaves (AlignedIn (storedPhase more)) (storedLoop inp more k i rem s) := by
  induction k generalizing p i rem s with
  | zero => exact absurd hfuel (Nat.not_lt_zero _)
  | succ k ih =>
    unfold storedLoop
    refine (storedPiece_leaves inp i _ _ h).bind fun m hm => ?_
    by_cases hleft : rem - min rem storedMax = 0
    · simpa [hleft] using hm
    · rw [if_neg hleft]
      refine ih _ ?_ hm.toSoundIn
      simp only [storedMax] at *
      omega

theorem stored_leaves {p : Phase} (inp : List Byte) (i n : Nat) (more : Bool) {s : State} (h : SoundIn p s) :
    Leaves (AlignedIn (storedPhase more)) (stored inp i n more s) :=
  storedLoop_leaves inp more i (Nat.lt_succ_self n) h

theorem emitLits_leaves {p : Phase} (bs : List Byte) {s : State} (h : SoundIn p s) :
    Leaves (SoundIn p) (emitLits bs s) := by
  induction bs generalizing s with
  | nil => exact h
  | cons b rest ih => exact (enqueue_leaves _ h).bind fun m hm => ih hm

/-- HUFF_LITS sends its literals in an open block when it starts in EOB or FIXED (R116). -/
theorem huffOpen_leaves {p : Phase} (hp : p = .eob ∨ p = .fixed) (more : Bool) {s : State} (h : SoundIn p s) :
    Leaves (SoundIn (openPhase more)) (huffOpen more s) := by
  unfold huffOpen
  rw [h.phase]
  rcases hp with rfl | rfl
  · exact openFixed_leaves more h
  · cases more
    · exact (enqueue_leaves _ h).bind fun m hm => openFixed_leaves false (hm.withPhase .eob)
    · exact h

theorem huffLits_leaves {p : Phase} (hp : p = .eob ∨ p = .fixed) (inp : List Byte) (i n : Nat) (more : Bool) {s : State}
    (h : SoundIn p s) : Leaves (SoundIn (openPhase more)) (huffLits inp i n more s) := by
  unfold huffLits
  split
  · trivial
  · exact (huffOpen_leaves hp more h).bind fun m hm => emitLits_leaves _ hm

/-- MATCH_OPEN leaves the fixed block open that the match is sent in (R113). -/
theorem matchOpen_leaves {p : Phase} (hp : p = .eob ∨ p = .fixed) {s : State} (h : SoundIn p s) :
    Leaves (SoundIn .fixed) (matchOpen s) := by
  unfold matchOpen
  rw [h.phase]
  rcases hp with rfl | rfl
  · exact openFixed_leaves true h
  · exact h

theorem emitMatch_leaves {p : Phase} (len dist : Nat) {s : State} (h : SoundIn p s) :
    Leaves (SoundIn p) (emitMatch len dist s) := by
  unfold emitMatch
  split
  · trivial
  · trivial
  · exact (enqueue_leaves _ h).bind fun m hm => enqueue_leaves _ hm

/-! ### Framing (46_framing.md) -/

/-- The phase after the header (R125). -/
def startedPhase (p : Phase) : Phase := if p = .init then .eob else p

theorem headerPhase_leaves {p : Phase} {s : State} (h : SettledIn p s) :
    Leaves (SettledIn (startedPhase p)) (headerPhase s) := by
  by_cases hp : p = .init
  · subst hp
    have h0 : AlignedIn .init s := h.aligned rfl
    unfold headerPhase
    rw [if_pos h.phase]
    refine Leaves.bind (P := AlignedIn .init) ?_ fun m hm => (hm.withPhase .eob).settled
    split
    · exact writeRawBytes_leaves _ h.toSoundIn
    · exact writeRawBytes_leaves _ h.toSoundIn
    · exact h0
  · rw [headerPhase_of_started (h.phase ▸ hp), startedPhase, if_neg hp]
    exact h

theorem trailer_leaves {p : Phase} {s : State} (h : AlignedIn p s) : Leaves (AlignedIn .ended) (trailer s) := by
  unfold trailer
  refine Leaves.bind (P := AlignedIn p) ?_ fun m hm => hm.withPhase .ended
  split
  · exact (writeRawBytes_leaves _ h.toSoundIn).bind fun m hm => writeRawBytes_leaves _ hm.toSoundIn
  · exact writeRawBytes_leaves _ h.toSoundIn
  · exact h

/-! ### FINISH (47_commands.md R133) -/

theorem closeBlock_leaves {p : Phase} {s : State} (h : SoundIn p s) :
    Leaves (fun m => ∃ q, SoundIn q m) (closeBlock s) := by
  unfold closeBlock
  split
  · exact (enqueue_leaves _ h).bind fun m hm => ⟨_, hm.withPhase .eob⟩
  · split
    · exact (enqueue_leaves _ h).bind fun m hm => ⟨_, hm.withPhase .done⟩
    · exact ⟨p, h⟩

theorem finalEmptyBlock_leaves {p : Phase} {s : State} (h : SoundIn p s) :
    Leaves (fun m => ∃ q, SoundIn q m) (finalEmptyBlock s) := by
  unfold finalEmptyBlock
  split
  · exact (enqueue_leaves _ h).bind fun m hm => (flushToByte_leaves hm).bind fun m hm =>
      (writeRawBytes_leaves _ hm.toSoundIn).bind fun m hm => (writeRawBytes_leaves _ hm.toSoundIn).bind fun m hm =>
        ⟨_, hm.toSoundIn.withPhase .done⟩
  · exact ⟨p, h⟩

/-- FINISH ends in END at a byte boundary. -/
theorem finishBody_leaves {p : Phase} {s : State} (h : SettledIn p (beginFinish s)) :
    Leaves (AlignedIn .ended) (finishBody s) :=
  (headerPhase_leaves h).bind fun _ hm => (closeBlock_leaves hm.toSoundIn).bind fun _ ⟨_, hm⟩ =>
    (finalEmptyBlock_leaves hm).bind fun _ ⟨_, hm⟩ => (flushToByte_leaves hm).bind fun _ hm => trailer_leaves hm

end Sys2Proof.Machine.StateProofs

end


/-! PROOFS. The match finder (44_match_finder.md): the bytes of a match, what one turn of the scan can do, and what the scan
keeps of the stream and of the match table. -/
section

namespace Sys2Proof.Machine.StateProofs

open Sys2Proof.Machine.Laws

/-! ### Words and bytes of the chunk (20_memory.md R36, R37) -/

theorem littleEndian_lt (bs : List Byte) : littleEndian bs < 256 ^ bs.length := by
  induction bs with
  | nil => exact Nat.one_pos
  | cons b rest ih =>
    have hb := b.isLt
    rw [littleEndian, List.length_cons, Nat.pow_succ]
    omega

/-- The number that bytes stand for determines them. -/
theorem littleEndian_inj {as bs : List Byte} (hlen : as.length = bs.length) (h : littleEndian as = littleEndian bs) :
    as = bs := by
  induction as generalizing bs with
  | nil => exact (List.length_eq_zero_iff.1 hlen.symm).symm
  | cons a as ih =>
    cases bs with
    | nil => cases hlen
    | cons b bs =>
      simp only [littleEndian] at h
      have ha := a.isLt
      have hb := b.isLt
      rw [BitVec.eq_of_toNat_eq (show a.toNat = b.toNat by omega), ih (Nat.succ.inj hlen) (by omega)]

/-- A word can be read only where four bytes are left. -/
theorem le_of_readWord {inp : List Byte} {i : Nat} {w : Word} (h : readWord inp i = some w) : i + 4 ≤ inp.length := by
  by_contra hlt
  simp [readWord, memRead, inBytes, hlt] at h

/-- Offsets that hold the same word hold the same four bytes. -/
theorem take_eq_of_readWord {inp : List Byte} {i j : Nat} {w : Word} (hi : readWord inp i = some w)
    (hj : readWord inp j = some w) : (inp.drop i).take 4 = (inp.drop j).take 4 := by
  have hil := le_of_readWord hi
  have hjl := le_of_readWord hj
  have hleni : ((inp.drop i).take 4).length = 4 := by
    rw [List.length_take, List.length_drop]
    omega
  have hlenj : ((inp.drop j).take 4).length = 4 := by
    rw [List.length_take, List.length_drop]
    omega
  refine littleEndian_inj (hleni.trans hlenj.symm) ?_
  have hlti := littleEndian_lt ((inp.drop i).take 4)
  have hltj := littleEndian_lt ((inp.drop j).take 4)
  rw [hleni] at hlti
  rw [hlenj] at hltj
  rw [readWord_of_le hil, ← hj, readWord_of_le hjl, Option.some.injEq] at hi
  have hmod := congrArg BitVec.toNat hi
  rw [BitVec.toNat_ofNat, BitVec.toNat_ofNat] at hmod
  omega

/-! ### Candidates and matches (R98, R100) -/

/-- A candidate is an earlier slot of the same word, at a distance that stays in the window and in the chunk (R98). -/
theorem slot_of_candidate {word : Word} {old : Option Slot} {abs pos dist offset : Nat}
    (h : candidate word old abs pos = .found dist offset) :
    ∃ slot, old = some slot ∧ slot.value = word ∧ slot.position.toNat + dist = abs ∧ 1 ≤ dist ∧ dist ≤ 32768 ∧
      offset + dist = pos := by
  cases old with
  | none => cases h
  | some slot =>
    by_cases hv : slot.value = word
    · simp only [candidate, hv, ne_eq, not_true_eq_false, if_false] at h
      split at h
      · cases h
      split at h
      · cases h
      split at h
      · cases h
      obtain ⟨rfl, rfl⟩ := Candidate.found.inj h
      simp only [window] at *
      exact ⟨slot, rfl, hv, by omega, by omega, by omega, by omega⟩
    · simp [candidate, hv] at h

/-- The bytes that the loop of EXTEND counts agree (R100). -/
theorem getElem?_eq_of_lt_agreeing {k j : Nat} {as bs : List Byte} (h : j < agreeing k as bs) : as[j]? = bs[j]? := by
  induction k generalizing as bs j with
  | zero => exact absurd h (Nat.not_lt_zero j)
  | succ k ih =>
    cases as with
    | nil => exact absurd h (Nat.not_lt_zero j)
    | cons a as =>
      cases bs with
      | nil => exact absurd h (Nat.not_lt_zero j)
      | cons b bs =>
        by_cases hab : a = b
        · rw [agreeing, if_pos hab] at h
          cases j with
          | zero => rw [hab]; rfl
          | succ j => exact ih (as := as) (bs := bs) (Nat.lt_of_succ_lt_succ h)
        · rw [agreeing, if_neg hab] at h
          exact absurd h (Nat.not_lt_zero j)

/-- A match stays in the chunk (R100). -/
theorem extend_le {inp : List Byte} {pos : Nat} (c : Nat) (h : pos + 4 ≤ inp.length) :
    pos + extend inp pos c ≤ inp.length := by
  have hle := agreeing_le (min maxMatch (inp.length - pos) - minWord) (inp.drop (pos + minWord))
    (inp.drop (c + minWord))
  simp only [extend, minWord, maxMatch] at *
  omega

/-- Where the same word stands at `pos` and at `c`, every byte that EXTEND covers agrees (R100). -/
theorem getElem?_eq_of_lt_extend {inp : List Byte} {pos c j : Nat} {word : Word} (hp : readWord inp pos = some word)
    (hc : readWord inp c = some word) (hj : j < extend inp pos c) : inp[pos + j]? = inp[c + j]? := by
  by_cases h4 : j < 4
  · have h := congrArg (fun bs => bs[j]?) (take_eq_of_readWord hp hc)
    simpa only [List.getElem?_take_of_lt h4, List.getElem?_drop] using h
  · obtain ⟨k, rfl⟩ := Nat.exists_eq_add_of_le (Nat.not_lt.1 h4)
    have h := getElem?_eq_of_lt_agreeing (Nat.lt_of_add_lt_add_left hj)
    simpa only [List.getElem?_drop, minWord, Nat.add_assoc] using h

/-- Settles O41: the slot of the word names an offset of this chunk, where the agreement of the table puts the word itself;
EXTEND compares the bytes after it. -/
theorem matchCopiesEqualBytes : Obligations.MatchCopiesEqualBytes := by
  intro inp base pos t word dist c hagree hword hcand
  obtain ⟨slot, hslot, hvalue, habs, hmin, hmax, hoffset⟩ := slot_of_candidate hcand
  obtain ⟨-, -, hread⟩ := hagree _ _ hslot
  have hc : readWord inp c = some word := by
    rw [← hvalue, ← hread (by omega)]
    congr 1
    omega
  exact ⟨hoffset, hmin, hmax, extend_le c (le_of_readWord hword), fun j hj => getElem?_eq_of_lt_extend hword hc hj⟩

/-! ### One turn of the scan (R97, R101 to R106) -/

/-- A turn takes at most one match. -/
theorem matchAccepted_unique {inp : List Byte} {s : State} {word : Word} {dist len dist' len' : Nat}
    (h : MatchAccepted inp s word dist len) (h' : MatchAccepted inp s word dist' len') : dist = dist' ∧ len = len' := by
  obtain ⟨offset, -, -, hcand, hlen, -⟩ := h
  obtain ⟨offset', -, -, hcand', hlen', -⟩ := h'
  obtain ⟨rfl, rfl⟩ := Candidate.found.inj (hcand.symm.trans hcand')
  exact ⟨rfl, hlen.trans hlen'.symm⟩

theorem shortRefused_iff {bit9 len : Nat} : shortRefused bit9 len = true ↔ 52 ≤ bit9 ∧ len < 6 := by
  rw [shortRefused, Bool.and_eq_true, decide_eq_true_iff, decide_eq_true_iff]
  exact Iff.rfl

theorem costRefused_iff {distBits lenBits len bit9 : Nat} :
    costRefused distBits lenBits len bit9 = true ↔ 8 * len + bit9 ≤ distBits + lenBits + 8 := by
  rw [costRefused, decide_eq_true_iff]
  exact Iff.rfl

/-- A turn that finds a match takes it (R106). -/
theorem scanStep_of_accepted {inp : List Byte} {s : State} {word : Word} {dist len : Nat}
    (hword : readWord inp s.work.pos.toNat = some word) (h : MatchAccepted inp s word dist len) :
    scanStep inp s = acceptMatch inp dist len (probe word s).2 := by
  obtain ⟨offset, df, lf, hcand, rfl, hdf, hlf, hshort, hcost⟩ := h
  simp [scanStep, hword, probe, hcand, judge, hdf, hlf, shortRefused_iff, hshort, costRefused_iff, hcost]

/-- A turn that finds no match sends a literal, unless the model refuses it (R106). -/
theorem scanStep_of_not_accepted {inp : List Byte} {s : State} {word : Word}
    (hword : readWord inp s.work.pos.toNat = some word) (h : ∀ dist len, ¬ MatchAccepted inp s word dist len) :
    scanStep inp s = literalStep inp (probe word s).2 ∨ ∃ r, scanStep inp s = .refused r := by
  cases hcand : candidate word (Table.slot s.ctx.table (hashWord word)) (s.work.base.toNat + s.work.pos.toNat)
      s.work.pos.toNat with
  | reject => exact .inl (by simp [scanStep, hword, probe, hcand])
  | notInThePast => exact .inr ⟨_, by simp [scanStep, hword, probe, hcand]; rfl⟩
  | found dist offset =>
    have hstep : scanStep inp s = judge inp dist offset (probe word s).2 := by simp [scanStep, hword, probe, hcand]
    rw [hstep]
    unfold judge
    dsimp only
    split
    · exact .inl rfl
    · rename_i hshort
      split
      · exact .inr ⟨_, rfl⟩
      · exact .inr ⟨_, rfl⟩
      · rename_i df lf hdf hlf
        split
        · exact .inl rfl
        · rename_i hcost
          refine absurd ⟨offset, df, lf, hcand, rfl, hdf, hlf, ?_, ?_⟩ (h dist _)
          · exact fun hs => hshort (shortRefused_iff.2 hs)
          · exact Nat.not_le.1 fun hc => hcost (costRefused_iff.2 hc)

/-- What a match that is sent leaves of the scan (R104): it moves past the match and starts a new run; the table is not
written. -/
theorem acceptMatch_run {inp : List Byte} {dist len : Nat} {s s' : State} (h : acceptMatch inp dist len s = .run s') :
    s'.ctx.table = s.ctx.table ∧ s'.work.pos = s.work.pos + BitVec.ofNat 32 len ∧ s'.work.plit = 0#32 ∧
      s'.work.bit9 = 0#32 := by
  simp only [acceptMatch, bind_eq_run, Flow.run.injEq] at h
  obtain ⟨a, ha, b, hb, c, hc, rfl⟩ := h
  have ea := flushPending_emits inp true s a (.inl ha)
  have eb := matchOpen_emits _ b (.inl hb)
  have ec := emitMatch_emits len dist b c (.inl hc)
  refine ⟨?_, ?_, ?_, rfl⟩
  · rw [withScan_ctx, ec.table, eb.table, withScan_ctx, ea.table]
  · rw [withScan_pos, ec.pos, eb.pos, withScan_pos, ea.pos]
  · rw [withScan_plit, ec.plit, eb.plit, withScan_plit]

/-- What one turn of the scan that runs has done: it has sent the match it found, or counted a literal. -/
theorem scanStep_run {inp : List Byte} {s s' : State} {word : Word} (hword : readWord inp s.work.pos.toNat = some word)
    (h : scanStep inp s = .run s') :
    (∃ dist len, MatchAccepted inp s word dist len ∧ acceptMatch inp dist len (probe word s).2 = .run s') ∨
      ((∀ dist len, ¬ MatchAccepted inp s word dist len) ∧ literalStep inp (probe word s).2 = .run s') := by
  by_cases hacc : ∃ dist len, MatchAccepted inp s word dist len
  · obtain ⟨dist, len, hm⟩ := hacc
    exact .inl ⟨dist, len, hm, scanStep_of_accepted hword hm ▸ h⟩
  · have hnone : ∀ dist len, ¬ MatchAccepted inp s word dist len := fun dist len hm => hacc ⟨dist, len, hm⟩
    refine .inr ⟨hnone, ?_⟩
    rcases scanStep_of_not_accepted hword hnone with hx | ⟨r, hx⟩ <;> rw [hx] at h
    · exact h
    · cases h

/-- An absolute position that the length check lets through does not wrap (R103; 47_commands.md R132). -/
theorem absolute_toNat {base : Position} {pos : Word} (h : base.toNat + pos.toNat < 2 ^ 64) :
    (base + pos.setWidth 64).toNat = base.toNat + pos.toNat := by
  rw [BitVec.toNat_add, BitVec.toNat_setWidth, Nat.mod_eq_of_lt (by omega : pos.toNat < 2 ^ 64), Nat.mod_eq_of_lt h]

/-- The scan's position does not wrap inside the chunk. -/
theorem advance_toNat {pos : Word} {n : Nat} (h : pos.toNat + n < 2 ^ 32) :
    (pos + BitVec.ofNat 32 n).toNat = pos.toNat + n := by
  rw [BitVec.toNat_add, BitVec.toNat_ofNat, Nat.mod_eq_of_lt (by omega : n < 2 ^ 32), Nat.mod_eq_of_lt h]

/-- A table that agrees with the chunk still does when the slot of the word at `pos` is written and the scan moves on
(10_state.md R24). -/
theorem tableAgrees_put {inp : List Byte} {base pos pos' : Nat} {t : Table} {word : Word} {p : Position}
    (h : TableAgrees inp base pos t) (hword : readWord inp pos = some word) (hp : p.toNat = base + pos) (hlt : pos < pos') :
    TableAgrees inp base pos' (Table.put t (hashWord word) ⟨p, word⟩) := by
  intro i x hx
  by_cases hi : i = hashWord word
  · subst hi
    rw [table_slot_put_same] at hx
    obtain rfl := Option.some.inj hx
    refine ⟨rfl, by rw [hp]; omega, fun _ => ?_⟩
    rw [hp, Nat.add_sub_cancel_left]
    exact hword
  · rw [table_slot_put_other t _ hi] at hx
    obtain ⟨hhash, hpast, hread⟩ := h i x hx
    exact ⟨hhash, by omega, hread⟩

/-- A state whose table is the one that the turn's probe left, and whose scan has moved on: one slot is written, the others
stay, and the table agrees with the chunk if it did (R97; 10_state.md R24). -/
theorem slots_of_probe {inp : List Byte} {s t : State} {word : Word} (hbase : s.work.base.toNat + inp.length < 2 ^ 64)
    (hword : readWord inp s.work.pos.toNat = some word) (htable : t.ctx.table = (probe word s).2.ctx.table)
    (hmoved : s.work.pos.toNat < t.work.pos.toNat) (hb : t.work.base = s.work.base) :
    Table.slot t.ctx.table (hashWord word) = some ⟨s.work.base + s.work.pos.setWidth 64, word⟩ ∧
      (∀ h, h ≠ hashWord word → Table.slot t.ctx.table h = Table.slot s.ctx.table h) ∧
      (TableAgrees inp s.work.base.toNat s.work.pos.toNat s.ctx.table →
        TableAgrees inp t.work.base.toNat t.work.pos.toNat t.ctx.table) := by
  have hpos := le_of_readWord hword
  rw [htable, hb]
  exact ⟨table_slot_put_same _ _ _, fun h hh => table_slot_put_other _ _ hh, fun hagree =>
    tableAgrees_put hagree hword (absolute_toNat (by omega)) hmoved⟩

/-- Settles O42: a turn is the acceptance of the match it finds or a literal step, each after the write of its one slot; either
way the scan moves on past the position that the slot names. -/
theorem scanStepWritesOneSlot : Obligations.ScanStepWritesOneSlot := by
  intro inp s s' hlen hbase hpos hrun
  obtain ⟨word, hword⟩ : ∃ word, readWord inp s.work.pos.toNat = some word := ⟨_, readWord_of_le hpos⟩
  obtain ⟨byte, hbyte⟩ : ∃ byte, inp[s.work.pos.toNat]? = some byte := ⟨_, List.getElem?_eq_getElem (by omega)⟩
  have hkept : s'.work.base = s.work.base := (scanStep_kept inp s s' (.inl hrun)).base
  rcases scanStep_run hword hrun with ⟨dist, len, hacc, haccept⟩ | ⟨hnone, hliteral⟩
  · obtain ⟨htable, hmoved, hplit, hbit9⟩ := acceptMatch_run haccept
    obtain ⟨h4, h258, hinside⟩ : 4 ≤ len ∧ len ≤ 258 ∧ s.work.pos.toNat + len ≤ inp.length := by
      obtain ⟨offset, -, -, -, rfl, -⟩ := hacc
      exact ⟨(extend_bounds inp _ offset).1, (extend_bounds inp _ offset).2, extend_le offset hpos⟩
    have hpos' : s'.work.pos.toNat = s.work.pos.toNat + len := by
      rw [hmoved]
      exact advance_toNat (pos := s.work.pos) (by omega)
    obtain ⟨hslot, hother, hagree⟩ := slots_of_probe hbase hword htable (by omega) hkept
    refine ⟨⟨word, byte, hword, hbyte, hslot, hother, fun dist' len' hacc' => ?_, fun hno => absurd hacc (hno dist len)⟩,
      hagree⟩
    obtain ⟨rfl, rfl⟩ := matchAccepted_unique hacc hacc'
    exact ⟨haccept, h4, h258, hinside, hpos', hplit, hbit9⟩
  · obtain ⟨b, hb, hs'⟩ := literalStep_eq_run.1 hliteral
    obtain rfl : byte = b := Option.some.inj (hbyte.symm.trans hb)
    have htable : s'.ctx.table = (probe word s).2.ctx.table := by rw [hs', withScan_ctx]
    have hpos' : s'.work.pos.toNat = s.work.pos.toNat + 1 := by
      rw [hs']
      exact advance_toNat (pos := s.work.pos) (n := 1) (by omega)
    obtain ⟨hslot, hother, hagree⟩ := slots_of_probe hbase hword htable (by omega) hkept
    exact ⟨⟨word, byte, hword, hbyte, hslot, hother, fun dist len hacc => absurd hacc (hnone dist len), fun _ =>
      ⟨hpos', hs'⟩⟩, hagree⟩

end Sys2Proof.Machine.StateProofs

end


/-! PROOFS. The scan inside an ENCODE: what it keeps of the stream and of the match table, from its first turn to its final
flush (44_match_finder.md R104 to R108). -/
section

namespace Sys2Proof.Machine.StateProofs

open Sys2Proof.Machine.Laws

/-! ### The stream while a chunk is encoded -/

/-- The stream after a flush under `more`: stored blocks or an open fixed-Huffman block ended it (R115 to R117). With `more`
set these are the two phases in which a scan runs, EOB and FIXED. -/
def Flushed (more : Bool) (s : State) : Prop := SettledIn (storedPhase more) s ∨ SettledIn (openPhase more) s

theorem SoundIn.withScan {p : Phase} {s : State} (h : SoundIn p s) (pos plit bit9 : Word) :
    SoundIn p (s.withScan pos plit bit9) := ⟨h.queueShort, h.queueClean, h.outWf, h.phase⟩

theorem SettledIn.withScan {p : Phase} {s : State} (h : SettledIn p s) (pos plit bit9 : Word) :
    SettledIn p (s.withScan pos plit bit9) := ⟨h.toSoundIn.withScan pos plit bit9, h.noPending⟩

theorem SettledIn.withSlot {p : Phase} {s : State} (h : SettledIn p s) (i : BitVec 13) (x : Slot) :
    SettledIn p (s.withSlot i x) := ⟨⟨h.queueShort, h.queueClean, h.outWf, h.phase⟩, h.noPending⟩

theorem Flushed.withScan {more : Bool} {s : State} (h : Flushed more s) (pos plit bit9 : Word) :
    Flushed more (s.withScan pos plit bit9) := h.imp (·.withScan pos plit bit9) (·.withScan pos plit bit9)

theorem Flushed.withSlot {more : Bool} {s : State} (h : Flushed more s) (i : BitVec 13) (x : Slot) :
    Flushed more (s.withSlot i x) := h.imp (·.withSlot i x) (·.withSlot i x)

theorem openPhase_blockClosed (more : Bool) : (openPhase more).blockClosed = false := by cases more <;> rfl

theorem storedPhase_blockClosed (more : Bool) : (storedPhase more).blockClosed = true := by cases more <;> rfl

/-- A stream that a scan can run in is in EOB or FIXED. -/
theorem Flushed.soundIn {s : State} (h : Flushed true s) : ∃ p, (p = .eob ∨ p = .fixed) ∧ SoundIn p s := by
  rcases h with h | h
  · exact ⟨.eob, .inl rfl, h.toSoundIn⟩
  · exact ⟨.fixed, .inr rfl, h.toSoundIn⟩

theorem flushLits_leaves (inp : List Byte) (i n b9 : Nat) (more : Bool) {s : State} (h : Flushed true s) :
    Leaves (Flushed more) (flushLits inp i n b9 more s) := by
  obtain ⟨p, hp, hs⟩ := h.soundIn
  unfold flushLits
  split
  · exact (stored_leaves inp i n more hs).mono fun m hm => .inl hm.settled
  · exact (huffLits_leaves hp inp i n more hs).mono fun m hm => .inr (hm.settled (openPhase_blockClosed more))

/-- The final flush sends nothing where no literal is pending (R108). -/
theorem flushPending_leaves (inp : List Byte) (more : Bool) {s : State} (h : Flushed true s) :
    Leaves (fun m => ∃ b, Flushed b m) (flushPending inp more s) := by
  unfold flushPending
  split
  · exact ⟨true, h⟩
  · exact (flushLits_leaves inp _ _ _ more h).mono fun m hm => ⟨more, hm⟩

theorem flushPending_true_leaves (inp : List Byte) {s : State} (h : Flushed true s) :
    Leaves (Flushed true) (flushPending inp true s) := by
  unfold flushPending
  split
  · exact h
  · exact flushLits_leaves inp _ _ _ true h

/-- A match is sent in the open fixed block (R104). -/
theorem acceptMatch_leaves (inp : List Byte) (dist len : Nat) {s : State} (h : Flushed true s) :
    Leaves (Flushed true) (acceptMatch inp dist len s) := by
  unfold acceptMatch
  refine (flushPending_true_leaves inp h).bind fun a ha => ?_
  obtain ⟨p, hp, hs⟩ := ha.soundIn
  exact (matchOpen_leaves hp (hs.withScan _ _ _)).bind fun b hb => (emitMatch_leaves len dist hb).bind fun c hc =>
    .inr ((hc.settled rfl).withScan _ _ _)

theorem literalStep_leaves (inp : List Byte) {s : State} (h : Flushed true s) :
    Leaves (Flushed true) (literalStep inp s) := by
  unfold literalStep
  split
  · trivial
  · exact h.withScan _ _ _

/-! ### The match table while a chunk is encoded (10_state.md R24, 44_match_finder.md R99) -/

/-- A table in its canonical form whose slots stand at the hash of their values and were written for four bytes of the first
`limit` bytes of the stream. -/
structure SlotsBefore (limit : Nat) (t : Table) : Prop where
  wf : Table.wf t
  hash : ∀ e ∈ t, e.1 = (hashWord e.2.value).toNat
  past : ∀ e ∈ t, e.2.position.toNat + 4 ≤ limit

theorem SlotsBefore.mono {a b : Nat} {t : Table} (h : SlotsBefore a t) (hab : a ≤ b) : SlotsBefore b t :=
  ⟨h.wf, h.hash, fun e he => (h.past e he).trans hab⟩

theorem SlotsBefore.put {limit : Nat} {t : Table} (h : SlotsBefore limit t) {p : Position} (word : Word)
    (hp : p.toNat + 4 ≤ limit) : SlotsBefore limit (Table.put t (hashWord word) ⟨p, word⟩) where
  wf := table_put_wf _ _ h.wf
  hash := fun e he => by
    rcases mem_setEntry he with rfl | he
    · rfl
    · exact h.hash e he
  past := fun e he => by
    rcases mem_setEntry he with rfl | he
    · exact hp
    · exact h.past e he

/-- What the scan of a chunk that starts at `base` keeps: the phase EOB or FIXED, and a table of slots of the stream up to the
end of the chunk. -/
structure Scanning (inp : List Byte) (base : Position) (s : State) : Prop where
  flushed : Flushed true s
  chunkBase : s.work.base = base
  slots : SlotsBefore (base.toNat + inp.length) s.ctx.table

/-- The scan writes the slot of a word that lies in the chunk (R97). -/
theorem Scanning.probe {inp : List Byte} {base : Position} {s : State} {word : Word} (h : Scanning inp base s)
    (hlen : base.toNat + inp.length < 2 ^ 64) (hword : readWord inp s.work.pos.toNat = some word) :
    Scanning inp base (Machine.probe word s).2 where
  flushed := h.flushed.withSlot _ _
  chunkBase := h.chunkBase
  slots := by
    have hpos := le_of_readWord hword
    refine h.slots.put word ?_
    rw [h.chunkBase, absolute_toNat (by omega)]
    omega

theorem scanning_literalStep {inp : List Byte} {base : Position} {s : State} (h : Scanning inp base s) :
    Leaves (Scanning inp base) (literalStep inp s) := by
  refine (literalStep_leaves inp h.flushed).mono_run fun m hm hf => ⟨hf, ?_, ?_⟩
  · rw [(literalStep_kept inp s m (.inl hm)).base, h.chunkBase]
  · obtain ⟨b, -, rfl⟩ := literalStep_eq_run.1 hm
    exact h.slots

theorem scanning_acceptMatch {inp : List Byte} {base : Position} {s : State} (dist len : Nat) (h : Scanning inp base s) :
    Leaves (Scanning inp base) (acceptMatch inp dist len s) := by
  refine (acceptMatch_leaves inp dist len h.flushed).mono_run fun m hm hf => ⟨hf, ?_, ?_⟩
  · rw [(acceptMatch_kept inp dist len s m (.inl hm)).base, h.chunkBase]
  · rw [(acceptMatch_run hm).1]
    exact h.slots

/-- One turn of the scan writes a slot of the chunk, and then sends a match or counts a literal. -/
theorem scanning_scanStep {inp : List Byte} {base : Position} {s : State} (hlen : base.toNat + inp.length < 2 ^ 64)
    (h : Scanning inp base s) : Leaves (Scanning inp base) (scanStep inp s) := by
  cases hword : readWord inp s.work.pos.toNat with
  | none => simp [scanStep, hword]
  | some word =>
    have hp : Scanning inp base (probe word s).2 := h.probe hlen hword
    by_cases hacc : ∃ dist len, MatchAccepted inp s word dist len
    · obtain ⟨dist, len, hm⟩ := hacc
      rw [scanStep_of_accepted hword hm]
      exact scanning_acceptMatch dist len hp
    · rcases scanStep_of_not_accepted hword fun dist len hm => hacc ⟨dist, len, hm⟩ with hx | ⟨r, hx⟩ <;> rw [hx]
      · exact scanning_literalStep hp
      · trivial

theorem scanning_scanLoop {inp : List Byte} {base : Position} (k : Nat) {s : State}
    (hlen : base.toNat + inp.length < 2 ^ 64) (h : Scanning inp base s) :
    Leaves (Scanning inp base) (scanLoop inp k s) := by
  induction k generalizing s with
  | zero => exact h
  | succ k ih =>
    unfold scanLoop
    split
    · exact (scanning_scanStep hlen h).bind fun m hm => ih hm
    · exact h

theorem scanning_tailLoop {inp : List Byte} {base : Position} (k : Nat) {s : State} (h : Scanning inp base s) :
    Leaves (Scanning inp base) (tailLoop inp k s) := by
  induction k generalizing s with
  | zero => exact h
  | succ k ih =>
    unfold tailLoop
    split
    · exact (scanning_literalStep h).bind fun m hm => ih hm
    · exact h

/-- After its final flush the scan has a stream in any phase that accepts FINISH, and its table (R108). -/
theorem scan_leaves {inp : List Byte} {base : Position} {s : State} (hlen : base.toNat + inp.length < 2 ^ 64)
    (h : Scanning inp base s) :
    Leaves (fun m => (∃ b, Flushed b m) ∧ SlotsBefore (base.toNat + inp.length) m.ctx.table) (scan inp s) := by
  unfold scan
  refine (scanning_scanLoop _ hlen h).bind fun a ha => (scanning_tailLoop _ ha).bind fun b hb => ?_
  refine (flushPending_leaves inp _ hb.flushed).mono_run fun m hm hf => ⟨hf, ?_⟩
  rw [(flushPending_emits inp _ b m (.inl hm)).table]
  exact hb.slots

end Sys2Proof.Machine.StateProofs

end


/-! PROOFS. The invariant of the core: legal contexts, what each command leaves, and the step. -/
section

namespace Sys2Proof.Machine.StateProofs

open Sys2Proof.Machine.Laws

/-! ### Adler-32 accumulators (42_checksums.md R80) -/

/-- Both halves of an accumulator are below 65521 (R80). -/
def AdlerReduced (r : Word) : Prop := adlerLow r < 65521 ∧ adlerHigh r < 65521

theorem adlerLow_eq (r : Word) : adlerLow r = r.toNat % 65536 := by
  simp [adlerLow, BitVec.extractLsb'_toNat]

theorem adlerHigh_eq (r : Word) : adlerHigh r = r.toNat / 65536 := by
  have hr := r.isLt
  rw [adlerHigh, BitVec.extractLsb'_toNat, Nat.shiftRight_eq_div_pow]
  omega

theorem adlerPack_toNat {a b : Nat} (ha : a < 65536) (hb : b < 65536) : (adlerPack a b).toNat = b * 65536 + a := by
  have hb' : b <<< 16 < 2 ^ 32 := by
    rw [Nat.shiftLeft_eq]
    omega
  rw [adlerPack, BitVec.toNat_or, BitVec.toNat_shiftLeft, BitVec.toNat_ofNat, BitVec.toNat_ofNat,
    Nat.mod_eq_of_lt (by omega : b < 2 ^ 32), Nat.mod_eq_of_lt (by omega : a < 2 ^ 32), Nat.mod_eq_of_lt hb',
    ← Nat.shiftLeft_add_eq_or_of_lt ha, Nat.shiftLeft_eq]

theorem adlerPack_reduced {a b : Nat} (ha : a < 65521) (hb : b < 65521) : AdlerReduced (adlerPack a b) := by
  rw [AdlerReduced, adlerLow_eq, adlerHigh_eq, adlerPack_toNat (by omega) (by omega)]
  omega

theorem adlerPack_low_high (r : Word) : adlerPack (adlerLow r) (adlerHigh r) = r := by
  have hr := r.isLt
  apply BitVec.eq_of_toNat_eq
  rw [adlerLow_eq, adlerHigh_eq, adlerPack_toNat (by omega) (by omega)]
  omega

theorem adlerByte_reduced (r : Word) (b : Byte) : AdlerReduced (adlerByte r b) :=
  adlerPack_reduced (Nat.mod_lt _ (by decide)) (Nat.mod_lt _ (by decide))

theorem adlerUpdate_reduced {r : Word} (bs : List Byte) (h : AdlerReduced r) : AdlerReduced (adlerUpdate r bs) := by
  induction bs generalizing r with
  | nil => exact h
  | cons b rest ih => exact ih (adlerByte_reduced r b)

/-- What holds of the checksum register of a format between commands (R19, R80, R84). -/
structure ChecksumOk (f : Format) (r : Word) : Prop where
  unused : f = .deflate → r = 0#32
  reduced : f = .zlib → AdlerReduced r

theorem checksumOk_crcSeed (f : Format) : ChecksumOk f (crcSeed f) where
  unused := fun hf => by rw [hf, crcSeed]
  reduced := fun hf => by
    rw [hf, crcSeed, AdlerReduced]
    decide

theorem ChecksumOk.checksum {f : Format} {r : Word} (h : ChecksumOk f r) (bs : List Byte) :
    ChecksumOk f (checksum f r bs) where
  unused := fun hf => by
    rw [h.unused hf, hf, Machine.checksum]
  reduced := fun hf => by
    have hr := h.reduced hf
    rw [hf, Machine.checksum]
    exact adlerUpdate_reduced bs hr

/-! ### Legal contexts -/

theorem legalLevel_eq_zero {c : Context} : legalLevel c = 0#1 ↔ c.level = 0#1 ∧ c.phase.blockClosed = true := by
  unfold legalLevel
  split <;> simp_all

theorem legalBitCount_le (c : Context) : (legalBitCount c).toNat ≤ 7 := by
  unfold legalBitCount
  split
  · exact Nat.zero_le 7
  · rw [BitVec.toNat_and]
    exact Nat.and_le_right

theorem legalSlot_of_mem {c : Context} {e : Nat × Slot} (he : e ∈ legalTable c) :
    e.1 = (hashWord e.2.value).toNat ∧ e.2.position.toNat + 4 ≤ (legalInputLen c).toNat := by
  unfold legalTable at he
  split at he
  · cases he
  · simpa only [legalSlot, Bool.and_eq_true, decide_eq_true_eq] using (List.mem_filter.1 he).2

/-- `legalContext` brings every register to a value that the rules let it hold. -/
theorem contextOk_legalContext {c : Context} (h : Table.wf c.table) : ContextOk (legalContext c) where
  queueShort := legalBitCount_le c
  queueClean := by
    have hmod := Nat.mod_lt c.bitQueue.toNat (Nat.two_pow_pos (legalBitCount c).toNat)
    exact (Nat.mod_le _ _).trans_lt hmod
  noPending := fun hclosed => if_pos hclosed
  tableWf := legalTable_wf h
  slotHash := fun e he => (legalSlot_of_mem he).1
  slotPast := fun e he => (legalSlot_of_mem he).2
  levelZeroTable := fun h0 => if_pos h0
  levelZeroPhase := fun h0 => (legalLevel_eq_zero.1 h0).2
  crcUnused := fun hf => by
    simp only [legalContext] at hf ⊢
    simp [legalCrc, hf]
  adlerReduced := fun hf => by
    simp only [legalContext] at hf ⊢
    simp only [legalCrc, hf]
    exact adlerPack_reduced (Nat.mod_lt _ (by decide)) (Nat.mod_lt _ (by decide))
  initFresh := fun hp => if_pos hp

section
variable {c : Context} (h : ContextOk c)
include h

theorem legalLevel_of_ok : legalLevel c = c.level := by
  unfold legalLevel
  split
  · rfl
  · rename_i hopen
    have hne : c.level ≠ 0#1 := fun h0 => hopen (h.levelZeroPhase h0)
    exact ((BitVec.eq_zero_or_eq_one c.level).resolve_left hne).symm

theorem legalCrc_of_ok : legalCrc c = c.crc := by
  unfold legalCrc
  split
  · rfl
  · rename_i hf
    obtain ⟨hlow, hhigh⟩ := h.adlerReduced hf
    rw [adlerMod, Nat.mod_eq_of_lt hlow, Nat.mod_eq_of_lt hhigh, adlerPack_low_high]
  · rename_i hf
    exact (h.crcUnused hf).symm

theorem legalInputLen_of_ok : legalInputLen c = c.inputLen := by
  unfold legalInputLen
  split
  · rename_i hp
    exact (h.initFresh hp).symm
  · rfl

theorem legalBitCount_of_ok : legalBitCount c = c.bitCount := by
  unfold legalBitCount
  split
  · rename_i hclosed
    exact (h.noPending hclosed).symm
  · apply BitVec.eq_of_toNat_eq
    rw [BitVec.toNat_and]
    exact (Nat.and_two_pow_sub_one_eq_mod _ 3).trans (Nat.mod_eq_of_lt (Nat.lt_succ_of_le h.queueShort))

theorem legalTable_of_ok : legalTable c = c.table := by
  unfold legalTable
  rw [legalLevel_of_ok h, legalInputLen_of_ok h]
  split
  · rename_i h0
    exact (h.levelZeroTable h0).symm
  · rw [List.filter_eq_self]
    intro e he
    simp only [legalSlot, Bool.and_eq_true, decide_eq_true_eq]
    exact ⟨h.slotHash e he, h.slotPast e he⟩

/-- `legalContext` leaves every good context as it is. -/
theorem legalContext_of_ok : legalContext c = c := by
  have hqueue : BitVec.ofNat 32 (c.bitQueue.toNat % 2 ^ c.bitCount.toNat) = c.bitQueue := by
    rw [Nat.mod_eq_of_lt h.queueClean, BitVec.ofNat_toNat, BitVec.setWidth_eq]
  rw [legalContext, legalLevel_of_ok h, legalCrc_of_ok h, legalInputLen_of_ok h, legalBitCount_of_ok h,
    legalTable_of_ok h, hqueue]

end

/-- Settles O47. -/
theorem legalContextsAreTheGoodOnes : Obligations.LegalContextsAreTheGoodOnes :=
  fun _ => ⟨contextOk_legalContext, legalContext_of_ok⟩

/-! ### The commands' next states and the invariant -/

theorem slotsBefore_nil (limit : Nat) : SlotsBefore limit [] where
  wf := reset_table_wf
  hash := fun _ he => absurd he List.not_mem_nil
  past := fun _ he => absurd he List.not_mem_nil

/-- A context in which no stream has started is good. -/
theorem contextOk_of_fresh {c : Context} (hclosed : c.phase.blockClosed = true) (hqueue : c.bitQueue = 0#32)
    (hcount : c.bitCount = 0#5) (htable : c.table = []) (hcrc : c.crc = crcSeed c.format)
    (hlen : c.inputLen = 0#64) : ContextOk c where
  queueShort := by simp [hcount]
  queueClean := by simp [hcount, hqueue]
  noPending := fun _ => hcount
  tableWf := htable ▸ (slotsBefore_nil 0).wf
  slotHash := htable ▸ (slotsBefore_nil 0).hash
  slotPast := htable ▸ (slotsBefore_nil _).past
  levelZeroTable := fun _ => htable
  levelZeroPhase := fun _ => hclosed
  crcUnused := hcrc ▸ (checksumOk_crcSeed c.format).unused
  adlerReduced := hcrc ▸ (checksumOk_crcSeed c.format).reduced
  initFresh := fun _ => hlen

theorem contextOk_reset : ContextOk Context.reset := contextOk_of_fresh rfl rfl rfl rfl rfl rfl

theorem contextOk_initContext (level : BitVec 1) (f : Format) : ContextOk (initContext level f) :=
  contextOk_of_fresh rfl rfl rfl rfl rfl rfl

/-- A context past INIT is good when its stream is settled, its slots are of the stream so far, its checksum register is as
its format asks, and level 0 has neither slots nor an open block. -/
theorem contextOk_of_settledIn {p : Phase} {s : State} (hs : SettledIn p s) (hp : p ≠ .init)
    (hslots : SlotsBefore s.ctx.inputLen.toNat s.ctx.table) (hcrc : ChecksumOk s.ctx.format s.ctx.crc)
    (hlevel : s.ctx.level = 0#1 → s.ctx.table = [] ∧ p.blockClosed = true) : ContextOk s.ctx where
  queueShort := hs.queueShort
  queueClean := hs.queueClean
  noPending := hs.phase ▸ hs.noPending
  tableWf := hslots.wf
  slotHash := hslots.hash
  slotPast := hslots.past
  levelZeroTable := fun h0 => (hlevel h0).1
  levelZeroPhase := fun h0 => hs.phase ▸ (hlevel h0).2
  crcUnused := hcrc.unused
  adlerReduced := hcrc.reduced
  initFresh := fun hi => absurd (hs.phase.symm.trans hi) hp

theorem slotsBefore_of_contextOk {c : Context} (h : ContextOk c) : SlotsBefore c.inputLen.toNat c.table :=
  ⟨h.tableWf, h.slotHash, h.slotPast⟩

theorem checksumOk_of_contextOk {c : Context} (h : ContextOk c) : ChecksumOk c.format c.crc :=
  ⟨h.crcUnused, h.adlerReduced⟩

/-- A good context's stream is settled in its phase. -/
theorem settledIn_of_contextOk {s : State} (h : ContextOk s.ctx) (ho : Memory.wf s.out) : SettledIn s.ctx.phase s :=
  ⟨⟨h.queueShort, h.queueClean, ho, rfl⟩, h.noPending⟩

/-- Settles O9. -/
theorem resetMeetsInvariant : Obligations.ResetMeetsInvariant where
  context := fun _ => contextOk_reset
  causeClear := fun _ => rfl
  causeKnown := fun hf => by cases hf
  tableWf := reset_table_wf
  outWf := reset_out_wf

/-- Every cause is one of the codes 1 to 8 (60_exceptions.md R135). -/
theorem cause_code_known (c : Cause) : 1 ≤ c.code.toNat ∧ c.code.toNat ≤ 8 := by
  cases c <;> decide

/-- A core that has faulted meets the invariant when its cause is known and its table and OUT are canonical. -/
theorem inv_of_faulted {s : State} (hf : s.faulted = true) (hc : 1 ≤ s.faultCause.toNat ∧ s.faultCause.toNat ≤ 8)
    (ht : Table.wf s.ctx.table) (ho : Memory.wf s.out) : s.Inv where
  context := fun h => absurd (hf.symm.trans h) (by decide)
  causeClear := fun h => absurd (hf.symm.trans h) (by decide)
  causeKnown := fun _ => hc
  tableWf := ht
  outWf := ho

/-- A core that is not faulted meets the invariant when its cause is 0, its context is good and OUT is canonical. -/
theorem inv_of_contextOk {s : State} (hf : s.faulted = false) (hc : s.faultCause = 0#4) (hk : ContextOk s.ctx)
    (ho : Memory.wf s.out) : s.Inv where
  context := fun _ => hk
  causeClear := fun _ => hc
  causeKnown := fun h => absurd (hf.symm.trans h) (by decide)
  tableWf := hk.tableWf
  outWf := ho

theorem inv_takeFault {s : State} (cause : Cause) (h : s.Inv) : (takeFault cause s).Inv :=
  inv_of_faulted rfl (cause_code_known cause) h.tableWf h.outWf

theorem inv_takeOverflow {s : State} (h : Memory.wf s.out) : (takeOverflow s).Inv :=
  inv_of_faulted rfl (cause_code_known .outputOverflow) (freeContext_table_wf s.draws) h

/-- The answer of a command is no part of the invariant. -/
theorem inv_refuseFaulted {s : State} (h : s.Inv) : (refuseFaulted s).Inv :=
  ⟨h.context, h.causeClear, h.causeKnown, h.tableWf, h.outWf⟩

theorem inv_complete {s : State} (h : s.Inv) : (complete s).Inv :=
  ⟨h.context, h.causeClear, h.causeKnown, h.tableWf, h.outWf⟩

theorem inv_acceptOperands {s : State} (o : Operands) (h : s.Inv) : (acceptOperands o s).Inv :=
  ⟨h.context, h.causeClear, h.causeKnown, h.tableWf, List.Pairwise.nil⟩

theorem inv_hardwareReset {s : State} (h : s.Inv) : (hardwareReset s).Inv :=
  inv_of_contextOk rfl rfl contextOk_reset h.outWf

theorem inv_breachedEncode {s : State} (hf : s.faulted = false) (h : s.Inv) : (breachedEncode s).Inv := by
  rcases breachedEncode_cases s with hx | hx <;> rw [hx]
  · exact inv_takeOverflow (freeWindow_wf _ _)
  · exact inv_of_contextOk hf (h.causeClear hf) (contextOk_legalContext (freeContext_table_wf s.draws))
      (freeWindow_wf _ _)

/-- A command whose body leaves a good state ends in one. -/
theorem inv_of_outcome {x : Flow} {t : State} (hx : Leaves State.Inv x) (h : x.outcome = .next t) : t.Inv := by
  rcases outcome_eq_next.1 h with ⟨m, rfl, rfl⟩ | ⟨m, rfl, rfl⟩
  · exact inv_complete hx
  · exact inv_takeOverflow hx

/-! ### INIT (47_commands.md R131) -/

theorem execInit_inv {level : BitVec 4} {format : BitVec 2} {s t : State} (h : s.Inv)
    (ht : execInit level format s = .next t) : t.Inv := by
  rcases execInit_cases level format s with ⟨-, hx⟩ | ⟨-, -, hx⟩ | ⟨-, -, -, hx⟩ | ⟨hf, -, f, -, hx⟩ <;>
    obtain rfl := Host.Outcome.next.inj (hx.symm.trans ht)
  · exact inv_refuseFaulted h
  · exact inv_takeFault _ h
  · exact inv_takeFault _ h
  · exact inv_of_contextOk hf (h.causeClear hf) (contextOk_initContext _ f) h.outWf

theorem execInit_of_badLevel {level : BitVec 4} {format : BitVec 2} {s : State} (hf : s.faulted = false)
    (hl : 1 < level.toNat) : execInit level format s = .next (takeFault .badLevel s) := by
  simp [execInit, hf, hl]

theorem execInit_of_badFormat {level : BitVec 4} {format : BitVec 2} {s : State} (hf : s.faulted = false)
    (hl : level.toNat ≤ 1) (hfmt : formatOfField format = none) :
    execInit level format s = .next (takeFault .badFormat s) := by
  simp [execInit, hf, Nat.not_lt.2 hl, hfmt]

theorem execInit_of_legal {level : BitVec 4} {format : BitVec 2} {f : Format} {s : State} (hf : s.faulted = false)
    (hl : level.toNat ≤ 1) (hfmt : formatOfField format = some f) :
    execInit level format s = .next (completeInit { s with ctx := initContext (level.setWidth 1) f }) := by
  simp [execInit, hf, Nat.not_lt.2 hl, hfmt]

theorem formatOfField_formatCode (f : Format) : formatOfField (formatCode f) = some f := by
  cases f <;> rfl

theorem crcSeed_eq (f : Format) : crcSeed f = if f = .zlib then 1#32 else 0#32 := by
  cases f <;> rfl

/-- Settles O12. -/
theorem initConfiguresStream : Obligations.InitConfiguresStream := by
  intro level format f s hf hl hcode
  subst hcode
  rw [← crcSeed_eq]
  exact execInit_of_legal hf hl (formatOfField_formatCode f)

/-! ### FINISH (47_commands.md R133) -/

/-- The body of FINISH leaves a good state: the stream has ended, and nothing else of the context has changed. -/
theorem finishBody_inv {s : State} (hf : s.faulted = false) (h : s.Inv) : Leaves State.Inv (finishBody s) := by
  have hc : ContextOk (beginFinish s).ctx := h.context hf
  refine (finishBody_leaves (settledIn_of_contextOk hc List.Pairwise.nil)).mono_run fun t ht ha => ?_
  have hemit := finishBody_emits s t (.inl ht)
  refine inv_of_contextOk (hemit.faulted.trans hf) (hemit.faultCause.trans (h.causeClear hf)) ?_ ha.outWf
  refine contextOk_of_settledIn ha.settled (by decide) ?_ ?_ fun h0 => ⟨?_, rfl⟩
  · rw [hemit.table, hemit.inputLen]
    exact slotsBefore_of_contextOk hc
  · rw [hemit.format, hemit.crc]
    exact checksumOk_of_contextOk hc
  · rw [hemit.table]
    exact hc.levelZeroTable (hemit.level.symm.trans h0)

theorem execFinish_inv {s t : State} (h : s.Inv) (ht : execFinish s = .next t) : t.Inv := by
  unfold execFinish at ht
  split at ht
  · exact Host.Outcome.next.inj ht ▸ inv_refuseFaulted h
  split at ht
  · exact Host.Outcome.next.inj ht ▸ inv_takeFault _ h
  split at ht
  · exact Host.Outcome.next.inj ht ▸ inv_takeFault _ h
  · rename_i hf _ _
    exact inv_of_outcome (finishBody_inv (Bool.eq_false_of_not_eq_true hf) h) ht

/-! ### ENCODE (47_commands.md R132) -/

theorem SettledIn.withCrc {p : Phase} {s : State} (h : SettledIn p s) (c : Word) : SettledIn p (s.withCrc c) :=
  ⟨⟨h.queueShort, h.queueClean, h.outWf, h.phase⟩, h.noPending⟩

theorem SettledIn.withInputLen {p : Phase} {s : State} (h : SettledIn p s) (n : Position) :
    SettledIn p (s.withInputLen n) := ⟨⟨h.queueShort, h.queueClean, h.outWf, h.phase⟩, h.noPending⟩

theorem length_chunkOf (o : Operands) : (chunkOf o).length = o.ilen.toNat := by
  rw [chunkOf, List.length_map, List.length_range]

/-- What the data of an ENCODE leaves: a settled stream past INIT, slots of the first `limit` bytes of the stream, and at level
0 no slot and no open block. -/
def Encoded (limit : Nat) (s : State) : Prop :=
  ∃ p, p ≠ .init ∧ SettledIn p s ∧ SlotsBefore limit s.ctx.table ∧
    (s.ctx.level = 0#1 → s.ctx.table = [] ∧ p.blockClosed = true)

theorem encoded_of_flushed {limit : Nat} {more : Bool} {s : State} (h : Flushed more s)
    (hslots : SlotsBefore limit s.ctx.table) (hlevel : s.ctx.level ≠ 0#1) : Encoded limit s := by
  rcases h with h | h
  · exact ⟨_, by cases more <;> decide, h, hslots, fun h0 => absurd h0 hlevel⟩
  · exact ⟨_, by cases more <;> decide, h, hslots, fun h0 => absurd h0 hlevel⟩

/-- The data phase: stored blocks at level 0, which touch no slot, and the scan at level 1. -/
theorem dataPhase_leaves {inp : List Byte} {base : Position} {s : State} (hlen : base.toNat + inp.length < 2 ^ 64)
    (h : Scanning inp base s) (hlevel : s.ctx.level = 0#1 → s.ctx.table = [] ∧ SettledIn .eob s) :
    Leaves (Encoded (base.toNat + inp.length)) (dataPhase inp s) := by
  by_cases h0 : s.ctx.level = 0#1
  · obtain ⟨htable, heob⟩ := hlevel h0
    have hclosed : Leaves (fun m => ∃ p, p ≠ .init ∧ p.blockClosed = true ∧ SettledIn p m) (dataPhase inp s) := by
      unfold dataPhase
      rw [if_pos h0]
      split
      · refine (stored_leaves inp 0 _ _ heob.toSoundIn).mono fun m hm => ?_
        exact ⟨_, by cases s.work.more <;> decide, storedPhase_blockClosed _, hm.settled⟩
      · exact ⟨.eob, by decide, rfl, heob⟩
    refine hclosed.mono_run fun m hm ⟨p, hp, hpc, hs⟩ => ?_
    have htable' := (dataPhase_levelZero_emits h0 m (.inl hm)).table
    exact ⟨p, hp, hs, htable' ▸ h.slots, fun _ => ⟨htable'.trans htable, hpc⟩⟩
  · have hscan : dataPhase inp s = scan inp s := if_neg h0
    rw [hscan]
    refine (scan_leaves hlen h).mono_run fun m hm ⟨⟨_, hf⟩, hslots⟩ => encoded_of_flushed hf hslots ?_
    rw [(scan_kept inp s m (.inl hm)).level]
    exact h0

/-- The header brings a stream that accepts ENCODE into a phase that a scan runs in, EOB or FIXED (R125). -/
theorem flushed_of_started {p : Phase} {s : State} (hp : p = .init ∨ p = .eob ∨ p = .fixed)
    (h : SettledIn (startedPhase p) s) : Flushed true s := by
  rcases hp with rfl | rfl | rfl
  · exact .inl h
  · exact .inl h
  · exact .inr h

theorem startedPhase_of_closed {p : Phase} (hp : p = .init ∨ p = .eob ∨ p = .fixed) (hc : p.blockClosed = true) :
    startedPhase p = .eob := by
  rcases hp with rfl | rfl | rfl
  · rfl
  · rfl
  · cases hc

/-- After the header of an ENCODE on a good context its scan can start: the stream is in EOB or FIXED, and at level 0 in EOB
with no slot. -/
theorem headerPhase_scanning {more : Bool} {s : State} (hc : ContextOk s.ctx)
    (hp : s.ctx.phase = .init ∨ s.ctx.phase = .eob ∨ s.ctx.phase = .fixed) (inp : List Byte) :
    Leaves (fun a => Emits (beginEncode more s) a ∧ Scanning inp s.ctx.inputLen (checksumPhase inp a) ∧
      ((checksumPhase inp a).ctx.level = 0#1 →
        (checksumPhase inp a).ctx.table = [] ∧ SettledIn .eob (checksumPhase inp a)))
      (headerPhase (beginEncode more s)) := by
  have hstart : SettledIn s.ctx.phase (beginEncode more s) :=
    settledIn_of_contextOk (s := beginEncode more s) hc List.Pairwise.nil
  refine (headerPhase_leaves hstart).mono_run fun a ha hs => ?_
  have hemit := headerPhase_emits _ a (.inl ha)
  have hs' : SettledIn (startedPhase s.ctx.phase) (checksumPhase inp a) := hs.withCrc _
  refine ⟨hemit, ⟨flushed_of_started hp hs', hemit.base, ?_⟩, fun h0 => ?_⟩
  · rw [checksumPhase_table, hemit.table]
    exact (slotsBefore_of_contextOk hc).mono (Nat.le_add_right _ _)
  · have h0' : s.ctx.level = 0#1 := hemit.level.symm.trans h0
    exact ⟨hemit.table.trans (hc.levelZeroTable h0'), startedPhase_of_closed hp (hc.levelZeroPhase h0') ▸ hs'⟩

/-- Once the data are sent, counting the chunk in `input_len` makes the state a good one (R132). -/
theorem inv_of_encoded {more : Bool} {s a d : State} (hf : s.faulted = false) (h : s.Inv)
    (hlen : s.ctx.inputLen.toNat + s.operands.ilen.toNat < 2 ^ 64) (hemit : Emits (beginEncode more s) a)
    (hkept : Kept (checksumPhase (chunkOf s.operands) a) d)
    (hd : Encoded (s.ctx.inputLen.toNat + s.operands.ilen.toNat) d) :
    (d.withInputLen (d.ctx.inputLen + d.work.ilen.setWidth 64)).Inv := by
  obtain ⟨p, hinit, hsettled, hslots, hzero⟩ := hd
  have hilen : d.work.ilen = s.operands.ilen := hkept.ilen.trans hemit.ilen
  have hinput : d.ctx.inputLen = s.ctx.inputLen := hkept.inputLen.trans hemit.inputLen
  have hcrc : ChecksumOk d.ctx.format d.ctx.crc := by
    rw [hkept.format, hkept.crc, checksumPhase_format, checksumPhase_crc, hemit.format, hemit.crc]
    exact (checksumOk_of_contextOk (h.context hf)).checksum _
  refine inv_of_contextOk (hkept.faulted.trans (hemit.faulted.trans hf))
    (hkept.faultCause.trans (hemit.faultCause.trans (h.causeClear hf))) ?_ hsettled.outWf
  refine contextOk_of_settledIn (hsettled.withInputLen _) hinit ?_ hcrc hzero
  rw [withInputLen_inputLen, hinput, hilen, absolute_toNat hlen]
  exact hslots

/-- The body of ENCODE leaves a good state: the header settles the stream, the data phase keeps it settled and writes slots of
the chunk alone, and `input_len` counts the chunk. -/
theorem encodeBody_inv {more : Bool} {s : State} (hf : s.faulted = false) (h : s.Inv)
    (hp : s.ctx.phase = .init ∨ s.ctx.phase = .eob ∨ s.ctx.phase = .fixed)
    (hlen : s.ctx.inputLen.toNat + s.operands.ilen.toNat < 2 ^ 64) : Leaves State.Inv (encodeBody more s) := by
  have hchunk := length_chunkOf s.operands
  unfold encodeBody
  refine (headerPhase_scanning (h.context hf) hp (chunkOf s.operands)).bind fun a ⟨hemit, hscan, hlevel⟩ => ?_
  have hdata := dataPhase_leaves (hchunk ▸ hlen) hscan hlevel
  refine (hdata.mono_run fun d hd he => And.intro he (dataPhase_kept _ _ d (.inl hd))).bind fun d ⟨he, hkept⟩ => ?_
  exact inv_of_encoded hf h hlen hemit hkept (hchunk ▸ he)

/-- The phases in which ENCODE passes its pre-checks (60_exceptions.md R137). -/
theorem accepting_phase {p : Phase} (hu : p ≠ .uninit) (hc : ¬ (p = .last ∨ p = .done ∨ p = .ended)) :
    p = .init ∨ p = .eob ∨ p = .fixed := by
  cases p <;> simp at hu hc ⊢

theorem execEncode_inv {more : Bool} {s t : State} (h : s.Inv) (ht : execEncode more s = .next t) : t.Inv := by
  unfold execEncode at ht
  split at ht
  · exact Host.Outcome.next.inj ht ▸ inv_refuseFaulted h
  split at ht
  · exact Host.Outcome.next.inj ht ▸ inv_takeFault _ h
  split at ht
  · exact Host.Outcome.next.inj ht ▸ inv_takeFault _ h
  split at ht
  · exact Host.Outcome.next.inj ht ▸ inv_takeFault _ h
  rename_i hf huninit hclosed hlong
  have hf' : s.faulted = false := Bool.eq_false_of_not_eq_true hf
  split at ht
  · exact Host.Outcome.next.inj ht ▸ inv_breachedEncode hf' h
  · exact inv_of_outcome (encodeBody_inv hf' h (accepting_phase huninit hclosed) (Nat.not_le.1 hlong)) ht

/-! ### The step -/

theorem exec_inv {i : Instr} {s t : State} (h : s.Inv) (ht : exec i s = .next t) : t.Inv := by
  cases i with
  | init level format => exact execInit_inv h ht
  | encode more => exact execEncode_inv h ht
  | finish => exact execFinish_inv h ht

theorem runWord_inv {w : Word} {s t : State} (h : s.Inv) (ht : runWord w s = .next t) : t.Inv := by
  unfold runWord at ht
  split at ht
  · exact exec_inv h ht
  · obtain rfl := Host.Outcome.next.inj ht
    split
    · exact inv_refuseFaulted h
    · exact inv_takeFault _ h

/-- What the host does next is no part of the invariant. -/
theorem inv_withHost {s : State} (rest : List HostEvent) (h : s.Inv) : ({ s with host := rest } : State).Inv :=
  ⟨h.context, h.causeClear, h.causeKnown, h.tableWf, h.outWf⟩

/-- Settles O10, by what a step can do: the core is idle, is reset, or runs the host's next command. -/
theorem stepKeepsInvariant : Obligations.StepKeepsInvariant := by
  intro s t h ht
  rcases step_cases s with ⟨-, hx⟩ | ⟨rest, -, hx⟩ | ⟨c, rest, -, hx⟩ <;> rw [hx] at ht
  · exact Host.Outcome.next.inj ht ▸ h
  · exact Host.Outcome.next.inj ht ▸ inv_hardwareReset (inv_withHost rest h)
  · exact runWord_inv (inv_acceptOperands c.operands (inv_withHost rest h)) ht

/-! ### Hardware reset (10_state.md R32, 70_reset_and_hazards.md R149) -/

/-- In UNINIT every command but INIT faults NotInitialized (60_exceptions.md R137). -/
theorem exec_of_uninit {i : Instr} {s : State} (hf : s.faulted = false) (hu : s.ctx.phase = .uninit)
    (hi : ∀ level format, i ≠ .init level format) : exec i s = .next (takeFault .notInitialized s) := by
  cases i with
  | init level format => exact absurd rfl (hi level format)
  | encode more => simp [exec, execEncode, hf, hu]
  | finish => simp [exec, execFinish, hf, hu]

/-- INIT reads nothing of the context: it faults and keeps it, or writes all of it (R131). -/
theorem execInit_withCtx {level : BitVec 4} {format : BitVec 2} {s : State} (c : Context) (hf : s.faulted = false) :
    ∃ t, execInit level format s = .next t ∧
      execInit level format { s with ctx := c } = .next (if t.faulted then { t with ctx := c } else t) := by
  by_cases hl : level.toNat ≤ 1
  · cases hfmt : formatOfField format with
    | none => exact ⟨_, execInit_of_badFormat hf hl hfmt, execInit_of_badFormat (s := { s with ctx := c }) hf hl hfmt⟩
    | some f =>
      refine ⟨_, execInit_of_legal hf hl hfmt, ?_⟩
      rw [completeInit_faulted, if_neg (by simp [hf])]
      exact execInit_of_legal (s := { s with ctx := c }) hf hl hfmt
  · have hl' : 1 < level.toNat := Nat.not_le.1 hl
    exact ⟨_, execInit_of_badLevel hf hl', execInit_of_badLevel (s := { s with ctx := c }) hf hl'⟩

/-- In UNINIT no command reads the other registers of the context. -/
theorem exec_withCtx_of_uninit {i : Instr} {s : State} {c : Context} (hf : s.faulted = false)
    (hu : s.ctx.phase = .uninit) (hc : c.phase = .uninit) :
    ∃ t, exec i s = .next t ∧ exec i { s with ctx := c } = .next (if t.faulted then { t with ctx := c } else t) := by
  cases i with
  | init level format => exact execInit_withCtx c hf
  | encode more => exact ⟨_, exec_of_uninit hf hu (by simp), exec_of_uninit (s := { s with ctx := c }) hf hc (by simp)⟩
  | finish => exact ⟨_, exec_of_uninit hf hu (by simp), exec_of_uninit (s := { s with ctx := c }) hf hc (by simp)⟩

/-- Settles O8. -/
theorem unspecifiedRegistersAreNeverRead : Obligations.UnspecifiedRegistersAreNeverRead := by
  refine ⟨⟨rfl, rfl, rfl⟩, fun s rest hhost => ?_, fun i s c hf hu hc => exec_withCtx_of_uninit hf hu hc,
    fun i s hf hu hi => ⟨_, exec_of_uninit hf hu hi, rfl, rfl⟩⟩
  refine ⟨hardwareReset { s with host := rest }, ?_, rfl, rfl, rfl, rfl, rfl, rfl⟩
  simp only [step, serveHost, hhost]

end Sys2Proof.Machine.StateProofs

end


/-! PROOFS. The fields of the fixed Huffman code (43_fixed_huffman.md R85 to R91): every byte, every match length and every
distance has one, and it fits the bit queue (41_bit_queue.md R65). -/
section

namespace Sys2Proof.Machine.MemoryProofs

/-! ### Fields that fit their width -/

/-- What ENQUEUE asks of a field (R65). -/
structure Fits (f : Field) : Prop where
  width : f.width ≤ 24
  value : f.value.toNat < 2 ^ f.width

theorem revBits_lt (n c : Nat) : revBits n c < 2 ^ n := by
  induction n generalizing c with
  | zero => exact Nat.one_pos
  | succ n ih =>
    have hbit : c % 2 * 2 ^ n ≤ 1 * 2 ^ n := Nat.mul_le_mul_right _ (Nat.le_of_lt_succ (Nat.mod_lt c (by decide)))
    have hrest := ih (c / 2)
    rw [revBits, Nat.pow_succ]
    omega

/-- A code with its extra bits above it stays below its width (R85). -/
theorem codeField_value_lt (c n : Nat) {extra ebits : Nat} (h : extra < 2 ^ ebits) :
    (codeField c n extra ebits).value.toNat < 2 ^ (n + ebits) := by
  have hcode : revBits n c < 2 ^ (n + ebits) :=
    (revBits_lt n c).trans_le (Nat.pow_le_pow_right (by decide) (Nat.le_add_right n ebits))
  have hextra : extra <<< n < 2 ^ (n + ebits) := by
    rw [Nat.shiftLeft_eq, Nat.pow_add, Nat.mul_comm (2 ^ n)]
    exact Nat.mul_lt_mul_of_pos_right h (Nat.two_pow_pos n)
  rw [codeField, BitVec.toNat_ofNat]
  exact (Nat.mod_le _ _).trans_lt (Nat.or_lt_two_pow hcode hextra)

theorem litField_width (b : Byte) : (litField b).width = if b.toNat ≤ 143 then 8 else 9 := by
  unfold litField codeField symbolCode
  split
  · rfl
  · rw [if_pos (Nat.le_of_lt_succ b.isLt)]

theorem litField_value_lt (b : Byte) : (litField b).value.toNat < 2 ^ (litField b).width :=
  codeField_value_lt _ _ Nat.one_pos

theorem litField_fits (b : Byte) : Fits (litField b) := by
  refine ⟨?_, litField_value_lt b⟩
  rw [litField_width]
  split <;> decide

/-! ### The tables of lengths and distances -/


/-- Rows that follow one another hold every value from the first of them to the last. -/
theorem exists_row_of_chain {rows : List CodeRow} {r : CodeRow} {x : Nat}
    (h : (r :: rows).IsChain fun a b => b.base = a.last + 1) (hx : r.base ≤ x)
    (hlast : x ≤ ((r :: rows).getLast (List.cons_ne_nil _ _)).last) : ∃ q ∈ r :: rows, q.base ≤ x ∧ x ≤ q.last := by
  induction rows generalizing r with
  | nil => exact ⟨r, List.mem_singleton_self r, hx, hlast⟩
  | cons r' rows ih =>
    obtain ⟨hnext, hchain⟩ := List.isChain_cons_cons.1 h
    by_cases hr : x ≤ r.last
    · exact ⟨r, List.mem_cons_self, hx, hr⟩
    · obtain ⟨q, hq, hq'⟩ := ih hchain (by omega) hlast
      exact ⟨q, List.mem_cons_of_mem _ hq, hq'⟩

/-- The row found is one of the table, and it holds the value. -/
theorem rowFor_of_exists {rows : List CodeRow} {x : Nat} (h : ∃ q ∈ rows, q.base ≤ x ∧ x ≤ q.last) :
    ∃ r ∈ rows, rowFor rows x = some r ∧ r.base ≤ x ∧ x ≤ r.last := by
  obtain ⟨q, hq, hbase, hlast⟩ := h
  obtain ⟨r, hr⟩ := Option.isSome_iff_exists.1
    (List.find?_isSome (p := fun r => decide (r.base ≤ x) && decide (x ≤ r.last)) |>.2 ⟨q, hq, by simp [hbase, hlast]⟩)
  have hfound := List.find?_some hr
  simp only [Bool.and_eq_true, decide_eq_true_eq] at hfound
  exact ⟨r, List.mem_of_find?_eq_some hr, hr, hfound⟩

/-- The length table holds every length 3 .. 258 (R88). -/
theorem lengthRow_of_le {len : Nat} (hmin : 3 ≤ len) (hmax : len ≤ 258) :
    ∃ r ∈ lengthRows, rowFor lengthRows len = some r ∧ r.base ≤ len ∧ len ≤ r.last :=
  rowFor_of_exists (exists_row_of_chain (by decide) hmin hmax)

/-- The distance table holds every distance 1 .. 32768 (R90). -/
theorem distanceRow_of_le {dist : Nat} (hmin : 1 ≤ dist) (hmax : dist ≤ 32768) :
    ∃ r ∈ distanceRows, rowFor distanceRows dist = some r ∧ r.base ≤ dist ∧ dist ≤ r.last :=
  rowFor_of_exists (exists_row_of_chain (by decide) hmin hmax)

/-- The extra bits of a length row hold the lengths of the row; its code has 7 or 8 bits, and 13 bits in all are enough (R88). -/
theorem lengthRows_widths : ∀ r ∈ lengthRows, r.last - r.base < 2 ^ r.ebits ∧ 7 ≤ (symbolCode r.symbol).2 ∧
    (symbolCode r.symbol).2 + r.ebits ≤ 13 := by decide

/-- The extra bits of a distance row hold the distances of the row, and are at most 13 (R90). -/
theorem distanceRows_widths : ∀ r ∈ distanceRows, r.last - r.base < 2 ^ r.ebits ∧ r.ebits ≤ 13 := by decide

/-- Every length 3 .. 258 has a field of 7 to 13 bits, which fits its width (R89). -/
theorem lenField_of_le {len : Nat} (hmin : 3 ≤ len) (hmax : len ≤ 258) :
    ∃ f, lenField len = some f ∧ 7 ≤ f.width ∧ f.width ≤ 13 ∧ f.value.toNat < 2 ^ f.width := by
  obtain ⟨r, hr, hrow, hbase, hlast⟩ := lengthRow_of_le hmin hmax
  obtain ⟨hextra, h7, h13⟩ := lengthRows_widths r hr
  refine ⟨codeField (symbolCode r.symbol).1 (symbolCode r.symbol).2 (len - r.base) r.ebits, by simp [lenField, hrow],
    h7.trans (Nat.le_add_right _ _), h13, codeField_value_lt _ _ (by omega)⟩

/-- Every distance 1 .. 32768 has a field of 5 to 18 bits, which fits its width (R91). -/
theorem distField_of_le {dist : Nat} (hmin : 1 ≤ dist) (hmax : dist ≤ 32768) :
    ∃ f, distField dist = some f ∧ 5 ≤ f.width ∧ f.width ≤ 18 ∧ f.value.toNat < 2 ^ f.width := by
  obtain ⟨r, hr, hrow, hbase, hlast⟩ := distanceRow_of_le hmin hmax
  obtain ⟨hextra, h13⟩ := distanceRows_widths r hr
  exact ⟨codeField r.symbol 5 (dist - r.base) r.ebits, by simp [distField, hrow], Nat.le_add_right _ _,
    Nat.add_le_add_left h13 5, codeField_value_lt _ _ (by omega)⟩

end Sys2Proof.Machine.MemoryProofs

end


/-! PROOFS. Progress: no operation of the core makes a call that the model refuses, nor reads IN out of range, from a state in
which the bit queue, the pending run and the match table are as the rules keep them (20_memory.md R36, 41_bit_queue.md R65,
R67, 44_match_finder.md R99; 93 U19 to U21). -/
section

namespace Sys2Proof.Machine.MemoryProofs

open Sys2Proof.Machine.Laws Sys2Proof.Machine.StateProofs

/-! ### Operations that end -/

/-- The operation runs to its end or overflows: it neither reads IN out of range nor makes a refused call. -/
def Proceeds : Flow → Prop
  | .run _ => True
  | .overflow _ => True
  | .stopped _ => False
  | .refused _ => False

/-- A sequence proceeds when its first part does and leaves what its second part needs. -/
theorem Proceeds.bind {P : State → Prop} {x : Flow} {f : State → Flow} (hx : Proceeds x) (hp : Leaves P x)
    (hf : ∀ m, P m → Proceeds (f m)) : Proceeds (x.bind f) := by
  cases x with
  | run m => exact hf m hp
  | overflow m => trivial
  | stopped e => exact hx
  | refused r => exact hx

/-- A sequence whose second part needs nothing of the first. -/
theorem Proceeds.bind_any {x : Flow} {f : State → Flow} (hx : Proceeds x) (hf : ∀ m, Proceeds (f m)) :
    Proceeds (x.bind f) := by
  cases x with
  | run m => exact hf m
  | overflow m => trivial
  | stopped e => exact hx
  | refused r => exact hx

/-- A command whose body proceeds gives a next state. -/
theorem Proceeds.outcome {x : Flow} (hx : Proceeds x) : ∃ t, x.outcome = .next t := by
  cases x with
  | run m => exact ⟨_, rfl⟩
  | overflow m => exact ⟨_, rfl⟩
  | stopped e => exact hx.elim
  | refused r => exact hx.elim

/-! ### The bit queue (41_bit_queue.md) -/

theorem outByte_proceeds (b : Byte) (s : State) : Proceeds (outByte b s) := by
  rcases outByte_cases b s with ⟨-, hx⟩ | ⟨-, hx⟩ <;> rw [hx] <;> trivial

theorem outBytes_proceeds (bs : List Byte) (s : State) : Proceeds (outBytes bs s) := by
  induction bs generalizing s with
  | nil => trivial
  | cons b rest ih => exact (outByte_proceeds b s).bind_any ih

theorem drain_proceeds (k : Nat) (s : State) : Proceeds (drain k s) := by
  induction k generalizing s with
  | zero => trivial
  | succ k ih =>
    unfold drain
    split
    · trivial
    · exact (outByte_proceeds _ s).bind_any fun m => ih _

/-- ENQUEUE is not refused for a field that fits, between two bit-queue operations (R65; 10_state.md R22). -/
theorem enqueue_proceeds {p : Phase} {f : Field} {s : State} (hf : Fits f) (h : SoundIn p s) : Proceeds (enqueue f s) := by
  rw [enqueue_of_fits hf.width hf.value h.queueShort]
  exact drain_proceeds 3 _

theorem flushToByte_proceeds (s : State) : Proceeds (flushToByte s) := by
  unfold flushToByte
  refine Proceeds.bind_any ?_ fun _ => trivial
  split
  · exact outByte_proceeds _ s
  · trivial

/-- The raw writers are not refused at a byte boundary (R67). -/
theorem writeRawBytes_proceeds {p : Phase} (bs : List Byte) {s : State} (h : AlignedIn p s) :
    Proceeds (writeRawBytes bs s) := by
  rw [writeRawBytes_aligned h.noBits]
  exact outBytes_proceeds bs s

/-- WRITE_RAW of bytes of the chunk reads no other (R71; 20_memory.md R36). -/
theorem writeRaw_proceeds {p : Phase} {inp : List Byte} {i n : Nat} {s : State} (hin : i + n ≤ inp.length)
    (h : AlignedIn p s) : Proceeds (writeRaw inp i n s) := by
  unfold writeRaw
  rw [inBytes_of_le hin]
  exact writeRawBytes_proceeds _ h

/-! ### Blocks (45_block_state_machine.md) -/

theorem endOfBlock_fits : Fits ⟨0#32, 7⟩ := ⟨by decide, by decide⟩

theorem blockHeader_stored_fits (final : Bool) : Fits (blockHeader final btypeStored) := by
  cases final <;> exact ⟨by decide, by decide⟩

theorem blockHeader_fixed_fits (final : Bool) : Fits (blockHeader final btypeFixed) := by
  cases final <;> exact ⟨by decide, by decide⟩

theorem emitEob_proceeds {p : Phase} {s : State} (h : SoundIn p s) : Proceeds (emitEob s) :=
  enqueue_proceeds endOfBlock_fits h

theorem openFixed_proceeds {p : Phase} (more : Bool) {s : State} (h : SoundIn p s) : Proceeds (openFixed more s) := by
  cases more
  · exact enqueue_proceeds (blockHeader_fixed_fits true) (h.withPhase .last)
  · exact enqueue_proceeds (blockHeader_fixed_fits false) (h.withPhase .fixed)

/-- The end of the block before a stored one, where one is open (R115). -/
theorem closeOpen_proceeds {p : Phase} {s : State} (h : SoundIn p s) :
    Proceeds (if s.ctx.phase = .eob then .run s else emitEob s) := by
  split
  · trivial
  · exact emitEob_proceeds h

theorem closeOpen_leaves {p : Phase} {s : State} (h : SoundIn p s) :
    Leaves (SoundIn p) (if s.ctx.phase = .eob then .run s else emitEob s) := by
  split
  · exact h
  · exact enqueue_leaves _ h

/-- A stored block is sent from the byte boundary that its flush leaves (R115). -/
theorem storedPiece_proceeds {p : Phase} {inp : List Byte} {i c : Nat} (final : Bool) {s : State}
    (hin : i + c ≤ inp.length) (h : SoundIn p s) : Proceeds (storedPiece inp i c final s) := by
  unfold storedPiece
  refine (closeOpen_proceeds h).bind (closeOpen_leaves h) fun m hm => ?_
  have hstart := hm.withPhase (if final then .done else .eob)
  refine (enqueue_proceeds (blockHeader_stored_fits final) hstart).bind (enqueue_leaves _ hstart) fun m hm => ?_
  refine (flushToByte_proceeds m).bind (flushToByte_leaves hm) fun m hm => ?_
  refine (writeRawBytes_proceeds _ hm).bind (writeRawBytes_leaves _ hm.toSoundIn) fun m hm => ?_
  refine (writeRawBytes_proceeds _ hm).bind (writeRawBytes_leaves _ hm.toSoundIn) fun m hm => ?_
  exact writeRaw_proceeds hin hm

theorem storedLoop_proceeds {p : Phase} {inp : List Byte} (more : Bool) (k : Nat) {i rem : Nat} {s : State}
    (hin : i + rem ≤ inp.length) (h : SoundIn p s) : Proceeds (storedLoop inp more k i rem s) := by
  induction k generalizing p i rem s with
  | zero => trivial
  | succ k ih =>
    have hpiece : min rem storedMax ≤ rem := Nat.min_le_left _ _
    unfold storedLoop
    refine (storedPiece_proceeds _ (by omega) h).bind (storedPiece_leaves inp i _ _ h) fun m hm => ?_
    split
    · trivial
    · exact ih (by omega) hm.toSoundIn

theorem stored_proceeds {p : Phase} {inp : List Byte} {i n : Nat} (more : Bool) {s : State} (hin : i + n ≤ inp.length)
    (h : SoundIn p s) : Proceeds (stored inp i n more s) :=
  storedLoop_proceeds more (n + 1) hin h

theorem emitLits_proceeds {p : Phase} (bs : List Byte) {s : State} (h : SoundIn p s) : Proceeds (emitLits bs s) := by
  induction bs generalizing s with
  | nil => trivial
  | cons b rest ih => exact (enqueue_proceeds (litField_fits b) h).bind (enqueue_leaves _ h) fun m hm => ih hm

theorem huffOpen_proceeds {p : Phase} (more : Bool) {s : State} (h : SoundIn p s) : Proceeds (huffOpen more s) := by
  unfold huffOpen
  split
  · exact openFixed_proceeds more h
  · split
    · trivial
    · exact (emitEob_proceeds h).bind (enqueue_leaves _ h) fun m hm => openFixed_proceeds false (hm.withPhase .eob)

theorem huffLits_proceeds {p : Phase} (hp : p = .eob ∨ p = .fixed) {inp : List Byte} {i n : Nat} (more : Bool) {s : State}
    (hin : i + n ≤ inp.length) (h : SoundIn p s) : Proceeds (huffLits inp i n more s) := by
  unfold huffLits
  rw [inBytes_of_le hin]
  exact (huffOpen_proceeds more h).bind (huffOpen_leaves hp more h) fun m hm => emitLits_proceeds _ hm

theorem matchOpen_proceeds {p : Phase} {s : State} (h : SoundIn p s) : Proceeds (matchOpen s) := by
  unfold matchOpen
  split
  · exact openFixed_proceeds true h
  · trivial

/-- A match of 3 to 258 bytes at a distance of 1 to 32768 has both of its fields (43_fixed_huffman.md R94). -/
theorem emitMatch_proceeds {p : Phase} {len dist : Nat} {s : State} (hlen : 3 ≤ len ∧ len ≤ 258)
    (hdist : 1 ≤ dist ∧ dist ≤ 32768) (h : SoundIn p s) : Proceeds (emitMatch len dist s) := by
  obtain ⟨lf, hlf, -, hlw, hlv⟩ := lenField_of_le hlen.1 hlen.2
  obtain ⟨df, hdf, -, hdw, hdv⟩ := distField_of_le hdist.1 hdist.2
  unfold emitMatch
  rw [hlf, hdf]
  exact (enqueue_proceeds ⟨by omega, hlv⟩ h).bind (enqueue_leaves _ h) fun m hm => enqueue_proceeds ⟨by omega, hdv⟩ hm

/-! ### Framing and FINISH (46_framing.md, 47_commands.md R133) -/

/-- The header is sent at a byte boundary: in INIT no bit is pending (10_state.md R22). -/
theorem headerPhase_proceeds {p : Phase} {s : State} (h : SettledIn p s) : Proceeds (headerPhase s) := by
  by_cases hp : p = .init
  · subst hp
    have h0 : AlignedIn .init s := h.aligned rfl
    unfold headerPhase
    rw [if_pos h.phase]
    refine Proceeds.bind_any ?_ fun _ => trivial
    split
    · exact writeRawBytes_proceeds _ h0
    · exact writeRawBytes_proceeds _ h0
    · trivial
  · rw [headerPhase_of_started (h.phase ▸ hp)]
    trivial

theorem trailer_proceeds {p : Phase} {s : State} (h : AlignedIn p s) : Proceeds (trailer s) := by
  unfold trailer
  refine Proceeds.bind_any ?_ fun _ => trivial
  split
  · exact (writeRawBytes_proceeds _ h).bind (writeRawBytes_leaves _ h.toSoundIn) fun m hm => writeRawBytes_proceeds _ hm
  · exact writeRawBytes_proceeds _ h
  · trivial

theorem closeBlock_proceeds {p : Phase} {s : State} (h : SoundIn p s) : Proceeds (closeBlock s) := by
  unfold closeBlock
  split
  · exact (emitEob_proceeds h).bind_any fun _ => trivial
  · split
    · exact (emitEob_proceeds h).bind_any fun _ => trivial
    · trivial

theorem finalEmptyBlock_proceeds {p : Phase} {s : State} (h : SoundIn p s) : Proceeds (finalEmptyBlock s) := by
  unfold finalEmptyBlock
  split
  · refine (enqueue_proceeds (blockHeader_stored_fits true) h).bind (enqueue_leaves _ h) fun m hm => ?_
    refine (flushToByte_proceeds m).bind (flushToByte_leaves hm) fun m hm => ?_
    refine (writeRawBytes_proceeds _ hm).bind (writeRawBytes_leaves _ hm.toSoundIn) fun m hm => ?_
    exact (writeRawBytes_proceeds _ hm).bind_any fun _ => trivial
  · trivial

theorem finishBody_proceeds {p : Phase} {s : State} (h : SettledIn p (beginFinish s)) : Proceeds (finishBody s) := by
  unfold finishBody
  refine (headerPhase_proceeds h).bind (headerPhase_leaves h) fun _ hm => ?_
  refine (closeBlock_proceeds hm.toSoundIn).bind (closeBlock_leaves hm.toSoundIn) fun _ ⟨_, hm⟩ => ?_
  refine (finalEmptyBlock_proceeds hm).bind (finalEmptyBlock_leaves hm) fun m ⟨_, hm⟩ => ?_
  exact (flushToByte_proceeds m).bind (flushToByte_leaves hm) fun _ hm => trailer_proceeds hm

end Sys2Proof.Machine.MemoryProofs

end


/-! PROOFS. The scan makes no refused call (44_match_finder.md R97 to R108): its position and its pending run stay in the chunk,
and every slot it probes was written earlier in the stream. -/
section

namespace Sys2Proof.Machine.MemoryProofs

open Sys2Proof.Machine.Laws Sys2Proof.Machine.StateProofs

/-! ### The pending run -/

/-- The scan stands in the chunk, and its pending literals lie before it (10_state.md R26, 44_match_finder.md R103). -/
structure InChunk (inp : List Byte) (s : State) : Prop where
  pos_le : s.work.pos.toNat ≤ inp.length
  plit_le : s.work.plit.toNat ≤ s.work.pos.toNat

theorem inChunk_of_start {inp : List Byte} {s : State} (hpos : s.work.pos = 0#32) (hplit : s.work.plit = 0#32) :
    InChunk inp s := by
  constructor <;> simp [hpos, hplit]

theorem flushLits_proceeds {inp : List Byte} {i n b9 : Nat} (more : Bool) {s : State} (hin : i + n ≤ inp.length)
    (h : Flushed true s) : Proceeds (flushLits inp i n b9 more s) := by
  obtain ⟨p, hp, hs⟩ := h.soundIn
  unfold flushLits
  split
  · exact stored_proceeds more hin hs
  · exact huffLits_proceeds hp more hin hs

/-- The pending run is read inside the chunk (R104, R108). -/
theorem flushPending_proceeds {inp : List Byte} (more : Bool) {s : State} (hin : InChunk inp s) (h : Flushed true s) :
    Proceeds (flushPending inp more s) := by
  have hpos := hin.pos_le
  have hplit := hin.plit_le
  unfold flushPending
  split
  · trivial
  · exact flushLits_proceeds more (by omega) h

theorem acceptMatch_proceeds {inp : List Byte} {dist len : Nat} {s : State} (hlen : 3 ≤ len ∧ len ≤ 258)
    (hdist : 1 ≤ dist ∧ dist ≤ 32768) (hin : InChunk inp s) (h : Flushed true s) :
    Proceeds (acceptMatch inp dist len s) := by
  unfold acceptMatch
  refine (flushPending_proceeds true hin h).bind (flushPending_true_leaves inp h) fun a ha => ?_
  obtain ⟨p, hp, hs⟩ := ha.soundIn
  have hs := hs.withScan a.work.pos 0#32 a.work.bit9
  refine (matchOpen_proceeds hs).bind (matchOpen_leaves hp hs) fun b hb => ?_
  exact (emitMatch_proceeds hlen hdist hb).bind_any fun _ => trivial

theorem literalStep_proceeds {inp : List Byte} {s : State} (h : s.work.pos.toNat < inp.length) :
    Proceeds (literalStep inp s) := by
  unfold literalStep
  rw [List.getElem?_eq_getElem h]
  trivial

/-- A literal step moves on by one byte, and the run it lengthens still ends there (R103). -/
theorem inChunk_literalStep {inp : List Byte} {s s' : State} (hlen : inp.length < 2 ^ 32)
    (hpos : s.work.pos.toNat < inp.length) (h : InChunk inp s) (hrun : literalStep inp s = .run s') : InChunk inp s' := by
  obtain ⟨b, -, rfl⟩ := literalStep_eq_run.1 hrun
  have hplit := h.plit_le
  have hpos' : (s.work.pos + 1#32).toNat = s.work.pos.toNat + 1 := advance_toNat (n := 1) (by omega)
  have hplit' : (s.work.plit + 1#32).toNat = s.work.plit.toNat + 1 := advance_toNat (n := 1) (by omega)
  constructor
  · rw [withScan_pos]
    omega
  · rw [withScan_plit, withScan_pos]
    omega

/-! ### One turn -/

/-- A slot that is earlier in the stream is a candidate or is rejected (R98, R99). -/
theorem candidate_ne_notInThePast {word : Word} {old : Option Slot} {abs pos : Nat}
    (h : ∀ slot, old = some slot → slot.position.toNat < abs) : candidate word old abs pos ≠ .notInThePast := by
  cases old with
  | none => simp
  | some slot =>
    have hpast := h slot rfl
    unfold candidate
    dsimp only
    split
    · simp
    · rw [if_neg (Nat.not_le.2 hpast)]
      split
      · simp
      · split <;> simp

/-- A candidate whose length and distance have fields is sent as a literal or as a match (R106). -/
theorem judge_cases {inp : List Byte} {dist offset : Nat} {s : State} {df lf : Field} (hdf : distField dist = some df)
    (hlf : lenField (extend inp s.work.pos.toNat offset) = some lf) :
    judge inp dist offset s = literalStep inp s ∨
      judge inp dist offset s = acceptMatch inp dist (extend inp s.work.pos.toNat offset) s := by
  unfold judge
  dsimp only
  rw [hdf, hlf]
  split
  · exact .inl rfl
  · dsimp only
    split
    · exact .inl rfl
    · exact .inr rfl

theorem judge_proceeds {inp : List Byte} {dist offset : Nat} {s : State} (hdist : 1 ≤ dist ∧ dist ≤ 32768)
    (hpos : s.work.pos.toNat < inp.length) (hin : InChunk inp s) (h : Flushed true s) :
    Proceeds (judge inp dist offset s) := by
  obtain ⟨hmin, hmax⟩ := extend_bounds inp s.work.pos.toNat offset
  obtain ⟨df, hdf, -⟩ := distField_of_le hdist.1 hdist.2
  obtain ⟨lf, hlf, -⟩ := lenField_of_le (Nat.le_of_succ_le hmin) hmax
  rcases judge_cases hdf hlf with hx | hx <;> rw [hx]
  · exact literalStep_proceeds hpos
  · exact acceptMatch_proceeds ⟨Nat.le_of_succ_le hmin, hmax⟩ hdist hin h

/-- What the scan keeps between two turns, besides the stream and the slots it leaves: the run in the chunk, and a table that
agrees with the chunk so far, so that every slot is in the past (R99). -/
structure Probing (inp : List Byte) (base : Position) (s : State) : Prop extends Scanning inp base s where
  inChunk : InChunk inp s
  agrees : TableAgrees inp base.toNat s.work.pos.toNat s.ctx.table

/-- A turn of the scan reads a word of the chunk and probes a slot in the past. -/
theorem scanStep_proceeds {inp : List Byte} {base : Position} {s : State} (hpos : s.work.pos.toNat + 4 ≤ inp.length)
    (h : Probing inp base s) : Proceeds (scanStep inp s) := by
  obtain ⟨word, hword⟩ : ∃ word, readWord inp s.work.pos.toNat = some word := ⟨_, readWord_of_le hpos⟩
  have hpast : ∀ slot, Table.slot s.ctx.table (hashWord word) = some slot →
      slot.position.toNat < s.work.base.toNat + s.work.pos.toNat := fun slot hslot => by
    rw [h.chunkBase]
    exact (h.agrees _ _ hslot).2.1
  have hflushed : Flushed true (probe word s).2 := h.flushed.withSlot _ _
  have hin : InChunk inp (probe word s).2 := ⟨h.inChunk.pos_le, h.inChunk.plit_le⟩
  have hpos' : (probe word s).2.work.pos.toNat < inp.length := Nat.lt_of_lt_of_le (Nat.lt_add_of_pos_right (by decide)) hpos
  unfold scanStep
  rw [hword]
  dsimp only
  split
  · exact literalStep_proceeds hpos'
  · rename_i hcand
    exact absurd hcand (candidate_ne_notInThePast hpast)
  · rename_i dist offset hcand
    obtain ⟨-, -, -, -, hmin, hmax, -⟩ := slot_of_candidate hcand
    exact judge_proceeds ⟨hmin, hmax⟩ hpos' hin hflushed

/-- The run stays in the chunk over a turn: a match is inside the chunk and leaves no run (R104). -/
theorem inChunk_scanStep {inp : List Byte} {s s' : State} (hlen : inp.length < 2 ^ 32)
    (hpos : s.work.pos.toNat + 4 ≤ inp.length) (h : InChunk inp s) (hrun : scanStep inp s = .run s') : InChunk inp s' := by
  obtain ⟨word, hword⟩ : ∃ word, readWord inp s.work.pos.toNat = some word := ⟨_, readWord_of_le hpos⟩
  rcases scanStep_run hword hrun with ⟨dist, len, ⟨offset, -, -, -, rfl, -⟩, haccept⟩ | ⟨-, hliteral⟩
  · obtain ⟨-, hmoved, hplit, -⟩ := acceptMatch_run haccept
    have hinside := extend_le offset hpos
    have hpos' : s'.work.pos.toNat = s.work.pos.toNat + extend inp s.work.pos.toNat offset := by
      rw [hmoved]
      exact advance_toNat (pos := s.work.pos) (by omega)
    exact ⟨hpos'.trans_le hinside, by simp [hplit]⟩
  · exact inChunk_literalStep (s := (probe word s).2) hlen (Nat.lt_of_lt_of_le (Nat.lt_add_of_pos_right (by decide)) hpos)
      ⟨h.pos_le, h.plit_le⟩ hliteral

/-- A turn keeps what the scan needs; that the table goes on agreeing is `scanStepWritesOneSlot`. -/
theorem probing_scanStep {inp : List Byte} {base : Position} {s : State} (hlen : inp.length < 2 ^ 32)
    (hbase : base.toNat + inp.length < 2 ^ 64) (hpos : s.work.pos.toNat + 4 ≤ inp.length) (h : Probing inp base s) :
    Leaves (Probing inp base) (scanStep inp s) := by
  refine (scanning_scanStep hbase h.toScanning).mono_run fun m hm hs => ⟨hs, inChunk_scanStep hlen hpos h.inChunk hm, ?_⟩
  have hagree := (scanStepWritesOneSlot inp s m hlen (h.chunkBase ▸ hbase) hpos hm).2
  rw [h.chunkBase, hs.chunkBase] at hagree
  exact hagree h.agrees

/-! ### The loops of the scan -/

theorem scanLoop_proceeds {inp : List Byte} {base : Position} (k : Nat) {s : State} (hlen : inp.length < 2 ^ 32)
    (hbase : base.toNat + inp.length < 2 ^ 64) (h : Probing inp base s) :
    Proceeds (scanLoop inp k s) ∧ Leaves (Probing inp base) (scanLoop inp k s) := by
  induction k generalizing s with
  | zero => exact ⟨trivial, h⟩
  | succ k ih =>
    have hin := h.inChunk.pos_le
    unfold scanLoop
    split
    · rename_i hleft
      have hpos : s.work.pos.toNat + 4 ≤ inp.length := by
        simp only [minWord] at hleft
        omega
      have hturn := probing_scanStep hlen hbase hpos h
      exact ⟨(scanStep_proceeds hpos h).bind hturn fun m hm => (ih hm).1, hturn.bind fun m hm => (ih hm).2⟩
    · exact ⟨trivial, h⟩

theorem tailLoop_proceeds {inp : List Byte} (k : Nat) {s : State} (hlen : inp.length < 2 ^ 32) (hin : InChunk inp s)
    (h : Flushed true s) :
    Proceeds (tailLoop inp k s) ∧ Leaves (fun m => InChunk inp m ∧ Flushed true m) (tailLoop inp k s) := by
  induction k generalizing s with
  | zero => exact ⟨trivial, hin, h⟩
  | succ k ih =>
    unfold tailLoop
    split
    · rename_i hpos
      have hturn : Leaves (fun m => InChunk inp m ∧ Flushed true m) (literalStep inp s) :=
        (literalStep_leaves inp h).mono_run fun m hm hf => ⟨inChunk_literalStep hlen hpos hin hm, hf⟩
      exact ⟨(literalStep_proceeds hpos).bind hturn fun m ⟨hm, hf⟩ => (ih hm hf).1,
        hturn.bind fun m ⟨hm, hf⟩ => (ih hm hf).2⟩
    · exact ⟨trivial, hin, h⟩

theorem scan_proceeds {inp : List Byte} {base : Position} {s : State} (hlen : inp.length < 2 ^ 32)
    (hbase : base.toNat + inp.length < 2 ^ 64) (h : Probing inp base s) : Proceeds (scan inp s) := by
  obtain ⟨hloop, hprobing⟩ := scanLoop_proceeds inp.length hlen hbase h
  unfold scan
  refine hloop.bind hprobing fun a ha => ?_
  obtain ⟨htail, hflushed⟩ := tailLoop_proceeds inp.length hlen ha.inChunk ha.flushed
  exact htail.bind hflushed fun b ⟨hb, hf⟩ => flushPending_proceeds _ hb hf

/-! ### ENCODE (47_commands.md R132) -/

theorem dataPhase_proceeds {inp : List Byte} {base : Position} {s : State} (hlen : inp.length < 2 ^ 32)
    (hbase : base.toNat + inp.length < 2 ^ 64) (h : Probing inp base s) : Proceeds (dataPhase inp s) := by
  obtain ⟨p, -, hs⟩ := h.flushed.soundIn
  unfold dataPhase
  split
  · split
    · exact stored_proceeds _ (Nat.zero_add _).le hs
    · trivial
  · exact scan_proceeds hlen hbase h

/-- Slots of the stream before a chunk agree with the chunk at its start: none was written in it (R99). -/
theorem tableAgrees_of_slotsBefore {inp : List Byte} {base : Nat} {t : Table} (h : SlotsBefore base t) :
    TableAgrees inp base 0 t := by
  intro i x hx
  have hmem : (i.toNat, x) ∈ t := mem_of_entryAt hx
  have hpast : x.position.toNat + 4 ≤ base := h.past _ hmem
  exact ⟨BitVec.eq_of_toNat_eq (h.hash _ hmem), by omega, fun hle => by omega⟩

/-- After the header and the checksum the scan of a chunk can start. -/
theorem headerPhase_probing {more : Bool} {s : State} (hc : ContextOk s.ctx)
    (hp : s.ctx.phase = .init ∨ s.ctx.phase = .eob ∨ s.ctx.phase = .fixed) (inp : List Byte) :
    Leaves (fun a => Probing inp s.ctx.inputLen (checksumPhase inp a)) (headerPhase (beginEncode more s)) := by
  refine (headerPhase_scanning hc hp inp).mono fun a ⟨hemit, hscan, _⟩ => ?_
  have hpos : (checksumPhase inp a).work.pos = 0#32 := hemit.pos
  have hplit : (checksumPhase inp a).work.plit = 0#32 := hemit.plit
  refine ⟨hscan, inChunk_of_start hpos hplit, ?_⟩
  rw [hpos, checksumPhase_table, hemit.table]
  exact tableAgrees_of_slotsBefore (slotsBefore_of_contextOk hc)

theorem encodeBody_proceeds {more : Bool} {s : State} (hc : ContextOk s.ctx)
    (hp : s.ctx.phase = .init ∨ s.ctx.phase = .eob ∨ s.ctx.phase = .fixed)
    (hlen : s.ctx.inputLen.toNat + s.operands.ilen.toNat < 2 ^ 64) : Proceeds (encodeBody more s) := by
  have hchunk := length_chunkOf s.operands
  have hstart : SettledIn s.ctx.phase (beginEncode more s) :=
    settledIn_of_contextOk (s := beginEncode more s) hc List.Pairwise.nil
  unfold encodeBody
  refine (headerPhase_proceeds hstart).bind (headerPhase_probing hc hp (chunkOf s.operands)) fun a ha => ?_
  exact (dataPhase_proceeds (hchunk ▸ s.operands.ilen.isLt) (hchunk ▸ hlen) ha).bind_any fun _ => trivial

/-! ### The step -/

theorem execInit_next (level : BitVec 4) (format : BitVec 2) (s : State) : ∃ t, execInit level format s = .next t := by
  rcases execInit_cases level format s with ⟨-, hx⟩ | ⟨-, -, hx⟩ | ⟨-, -, -, hx⟩ | ⟨-, -, f, -, hx⟩ <;> exact ⟨_, hx⟩

theorem execEncode_next (more : Bool) {s : State} (h : s.Inv) : ∃ t, execEncode more s = .next t := by
  unfold execEncode
  split
  · exact ⟨_, rfl⟩
  split
  · exact ⟨_, rfl⟩
  split
  · exact ⟨_, rfl⟩
  split
  · exact ⟨_, rfl⟩
  split
  · exact ⟨_, rfl⟩
  · rename_i hf huninit hclosed hlong _
    have hc := h.context (Bool.eq_false_of_not_eq_true hf)
    exact (encodeBody_proceeds hc (accepting_phase huninit hclosed) (Nat.not_le.1 hlong)).outcome

theorem execFinish_next {s : State} (h : s.Inv) : ∃ t, execFinish s = .next t := by
  unfold execFinish
  split
  · exact ⟨_, rfl⟩
  split
  · exact ⟨_, rfl⟩
  split
  · exact ⟨_, rfl⟩
  · rename_i hf _ _
    have hc : ContextOk (beginFinish s).ctx := h.context (Bool.eq_false_of_not_eq_true hf)
    exact (finishBody_proceeds (settledIn_of_contextOk hc List.Pairwise.nil)).outcome

theorem exec_next (i : Instr) {s : State} (h : s.Inv) : ∃ t, exec i s = .next t := by
  cases i with
  | init level format => exact execInit_next level format s
  | encode more => exact execEncode_next more h
  | finish => exact execFinish_next h

theorem runWord_next (w : Word) {s : State} (h : s.Inv) : ∃ t, runWord w s = .next t := by
  unfold runWord
  split
  · exact exec_next _ h
  · exact ⟨_, rfl⟩

/-- Settles O11, by what a step can do; a command meets the invariant when its operands have been handed over. -/
theorem goodStatesNeverStop : Obligations.GoodStatesNeverStop := by
  intro s h
  rcases step_cases s with ⟨-, hx⟩ | ⟨rest, -, hx⟩ | ⟨c, rest, -, hx⟩ <;> rw [hx]
  · exact ⟨_, rfl⟩
  · exact ⟨_, rfl⟩
  · exact runWord_next c.word (inv_acceptOperands c.operands (inv_withHost rest h))

end Sys2Proof.Machine.MemoryProofs

end


/-! PROOFS. What the bit queue sends: the bits sent and pending, as an operation appends to them (20_memory.md R41,
41_bit_queue.md R64). -/
section

namespace Sys2Proof.Machine.MemoryProofs

open Sys2Proof.Machine.Laws Sys2Proof.Machine.StateProofs

/-! ### Bits of words and of the queue -/

/-- The low bits of a word, bit 0 first. -/
def lowBits (n : Nat) (v : Word) : List Bool := (List.range n).map v.getLsbD

theorem pendingBits_eq (c : Context) : pendingBits c = lowBits c.bitCount.toNat c.bitQueue := rfl

theorem fieldBits_eq (f : Field) : fieldBits f = lowBits f.width f.value := rfl

/-- The low byte of a queue, then the bits above it, are the bits of the queue. -/
theorem byteBits_append_lowBits {q : Word} {n : Nat} (hn : 8 ≤ n) :
    byteBits (q.setWidth 8) ++ lowBits (n - 8) (q >>> 8) = lowBits n q := by
  obtain ⟨k, rfl⟩ := Nat.exists_eq_add_of_le hn
  have hlow : byteBits (q.setWidth 8) = (List.range 8).map q.getLsbD :=
    List.map_congr_left fun i hi => by simp [List.mem_range.1 hi]
  rw [hlow, Nat.add_sub_cancel_left, lowBits, lowBits, List.range_add, List.map_append, List.map_map]
  congr 1
  exact List.map_congr_left fun i _ => by simp

/-- A field put above the bits of a clean queue adds its bits after them. -/
theorem lowBits_or_shiftLeft {q v : Word} {n w : Nat} (hq : q.toNat < 2 ^ n) (hfit : n + w ≤ 32) :
    lowBits (n + w) (q ||| (v <<< n)) = lowBits n q ++ lowBits w v := by
  simp only [lowBits]
  rw [List.range_add, List.map_append, List.map_map]
  congr 1
  · refine List.map_congr_left fun i hi => ?_
    simp [List.mem_range.1 hi]
  · refine List.map_congr_left fun j hj => ?_
    have hj : j < w := List.mem_range.1 hj
    have hclean : q.getLsbD (n + j) = false :=
      Nat.testBit_lt_two_pow (hq.trans_le (Nat.pow_le_pow_right (by decide) (Nat.le_add_right n j)))
    have hword : n + j < 32 := by omega
    rw [Function.comp_apply, BitVec.getLsbD_or, hclean, Bool.false_or, BitVec.getLsbD_shiftLeft, Nat.add_sub_cancel_left]
    simp only [hword, Nat.not_lt.2 (Nat.le_add_right n j), decide_true, decide_false, Bool.not_false, Bool.true_and]

/-! ### Bytes sent -/

/-- A byte written where the cursor can move on is sent after the bytes before it. -/
theorem sentBytes_writeOut (b : Byte) {s : State} (hroom : s.work.cursor.toNat + 1 < 2 ^ 32) :
    sentBytes (s.writeOut b) = sentBytes s ++ [b] := by
  have hcursor : (s.writeOut b).work.cursor.toNat = s.work.cursor.toNat + 1 :=
    advance_toNat (pos := s.work.cursor) (n := 1) hroom
  have hbefore : ∀ i ∈ List.range s.work.cursor.toNat,
      (Memory.read (s.writeOut b).out i).getD 0#8 = (Memory.read s.out i).getD 0#8 := fun i hi => by
    rw [writeOut_out, memory_read_write_other _ _ (List.mem_range.1 hi).ne]
  rw [sentBytes, hcursor, List.range_succ, List.map_append, List.map_congr_left hbefore, List.map_singleton, writeOut_out,
    memory_read_write_same]
  rfl

theorem bitsOf_append (as bs : List Byte) : bitsOf (as ++ bs) = bitsOf as ++ bitsOf bs := List.flatMap_append

theorem bitsOf_singleton (b : Byte) : bitsOf [b] = byteBits b := List.append_nil _

/-! ### Operations that append bits -/

/-- An operation of the bit queue from `s` to `s'` appends `bits` to the bits sent and pending and sends `n` bytes; of the
context it writes the queue alone, and of OUT the offsets it sends. -/
structure Appends (bits : List Bool) (n : Nat) (s s' : State) : Prop where
  stream : bitStream s' = bitStream s ++ bits
  cursor : s'.work.cursor.toNat = s.work.cursor.toNat + n
  ocap : s'.work.ocap = s.work.ocap
  ctx : s'.ctx = { s.ctx with bitQueue := s'.ctx.bitQueue, bitCount := s'.ctx.bitCount }
  frame : ∀ a, a < s.work.cursor.toNat ∨ s'.work.cursor.toNat ≤ a → Memory.read s'.out a = Memory.read s.out a

theorem Appends.refl (s : State) : Appends [] 0 s s := ⟨(List.append_nil _).symm, rfl, rfl, rfl, fun _ _ => rfl⟩

theorem Appends.trans {as bs : List Bool} {m n : Nat} {a b c : State} (h : Appends as m a b) (g : Appends bs n b c) :
    Appends (as ++ bs) (m + n) a c where
  stream := by rw [g.stream, h.stream, List.append_assoc]
  cursor := by rw [g.cursor, h.cursor, Nat.add_assoc]
  ocap := g.ocap.trans h.ocap
  ctx := by rw [g.ctx, h.ctx]
  frame := fun i hi => by
    have hb := h.cursor
    have hc := g.cursor
    rw [g.frame i (by omega), h.frame i (by omega)]

/-- A new queue that holds the pending bits and some more after them. -/
theorem appends_withQueue {bits : List Bool} {s : State} {q : Word} {n : BitVec 5}
    (h : lowBits n.toNat q = pendingBits s.ctx ++ bits) : Appends bits 0 s (s.withQueue q n) where
  stream := (congrArg (bitsOf (sentBytes s) ++ ·) h).trans (List.append_assoc _ _ _).symm
  cursor := rfl
  ocap := rfl
  ctx := rfl
  frame := fun _ _ => rfl

/-! ### ENQUEUE (41_bit_queue.md R64) -/

/-- The state after one turn of the loop of ENQUEUE: the low byte of the queue has been sent. -/
def sendLow (s : State) : State :=
  (s.writeOut (s.ctx.bitQueue.setWidth 8)).withQueue (s.ctx.bitQueue >>> 8) (s.ctx.bitCount - 8#5)

theorem drain_of_room {k : Nat} {s : State} (hfull : 8 ≤ s.ctx.bitCount.toNat)
    (hroom : s.work.cursor.toNat < s.work.ocap.toNat) : drain (k + 1) s = drain k (sendLow s) := by
  have hne : s.work.cursor ≠ s.work.ocap := fun he => absurd hroom (he ▸ Nat.lt_irrefl _)
  rw [drain_of_full hfull, outByte_eq_run.2 ⟨hne, rfl⟩, bind_run]
  rfl

theorem sendLow_bitCount {s : State} (hfull : 8 ≤ s.ctx.bitCount.toNat) :
    (sendLow s).ctx.bitCount.toNat = s.ctx.bitCount.toNat - 8 := BitVec.toNat_sub_of_le hfull

/-- A turn sends a byte of pending bits and appends none. -/
theorem appends_sendLow {s : State} (hfull : 8 ≤ s.ctx.bitCount.toNat) (hroom : s.work.cursor.toNat < s.work.ocap.toNat) :
    Appends [] 1 s (sendLow s) := by
  have hcap := s.work.ocap.isLt
  have hcursor : (sendLow s).work.cursor.toNat = s.work.cursor.toNat + 1 :=
    advance_toNat (pos := s.work.cursor) (n := 1) (by omega)
  have hsent : sentBytes (sendLow s) = sentBytes s ++ [s.ctx.bitQueue.setWidth 8] := sentBytes_writeOut _ (by omega)
  have hpending : pendingBits (sendLow s).ctx = lowBits (s.ctx.bitCount.toNat - 8) (s.ctx.bitQueue >>> 8) := by
    rw [pendingBits_eq, sendLow_bitCount hfull]
    rfl
  refine ⟨?_, hcursor, rfl, rfl, fun a ha => memory_read_write_other s.out _ (by omega)⟩
  rw [bitStream, hsent, hpending, bitsOf_append, bitsOf_singleton, List.append_assoc, byteBits_append_lowBits hfull,
    List.append_nil, bitStream, pendingBits_eq]

/-- With turns and room enough for the complete bytes of a clean queue, the loop of ENQUEUE sends them and keeps the rest. -/
theorem drain_appends (k : Nat) {s : State} (hturns : s.ctx.bitCount.toNat ≤ 8 * k + 7)
    (hclean : s.ctx.bitQueue.toNat < 2 ^ s.ctx.bitCount.toNat)
    (hroom : s.work.cursor.toNat + s.ctx.bitCount.toNat / 8 ≤ s.work.ocap.toNat) :
    ∃ s', drain k s = .run s' ∧ Appends [] (s.ctx.bitCount.toNat / 8) s s' ∧
      s'.ctx.bitCount.toNat = s.ctx.bitCount.toNat % 8 ∧ s'.ctx.bitQueue.toNat < 2 ^ s'.ctx.bitCount.toNat := by
  induction k generalizing s with
  | zero =>
    rw [Nat.div_eq_of_lt (Nat.lt_succ_of_le hturns), Nat.mod_eq_of_lt (Nat.lt_succ_of_le hturns)]
    exact ⟨s, rfl, Appends.refl s, rfl, hclean⟩
  | succ k ih =>
    by_cases hshort : s.ctx.bitCount.toNat < 8
    · rw [Nat.div_eq_of_lt hshort, Nat.mod_eq_of_lt hshort]
      exact ⟨s, drain_of_short hshort, Appends.refl s, rfl, hclean⟩
    · have hfull : 8 ≤ s.ctx.bitCount.toNat := Nat.not_lt.1 hshort
      have hbyte : s.work.cursor.toNat < s.work.ocap.toNat := by omega
      have hcount := sendLow_bitCount hfull
      have hturn := appends_sendLow hfull hbyte
      have hcursor := hturn.cursor
      have hclean' : (sendLow s).ctx.bitQueue.toNat < 2 ^ (sendLow s).ctx.bitCount.toNat := by
        rw [hcount]
        exact queue_drop_lt hfull hclean
      obtain ⟨s', hrun, happ, hrest, hq⟩ := ih (s := sendLow s) (by omega) hclean' (by rw [hturn.ocap]; omega)
      have hdiv : s.ctx.bitCount.toNat / 8 = 1 + (sendLow s).ctx.bitCount.toNat / 8 := by omega
      have hmod : s.ctx.bitCount.toNat % 8 = (sendLow s).ctx.bitCount.toNat % 8 := by omega
      rw [hdiv, hmod, drain_of_room hfull hbyte]
      exact ⟨s', hrun, hturn.trans happ, hrest, hq⟩

/-- The state in which the loop of ENQUEUE starts: the field stands above the pending bits. -/
def putField (f : Field) (s : State) : State :=
  s.withQueue (s.ctx.bitQueue ||| (f.value <<< s.ctx.bitCount.toNat)) (s.ctx.bitCount + BitVec.ofNat 5 f.width)

theorem putField_bitCount {f : Field} {s : State} (hw : f.width ≤ 24) (hq : s.ctx.bitCount.toNat ≤ 7) :
    (putField f s).ctx.bitCount.toNat = s.ctx.bitCount.toNat + f.width := by
  rw [putField, withQueue_bitCount, BitVec.toNat_add, BitVec.toNat_ofNat]
  omega

theorem appends_putField {f : Field} {s : State} (hw : f.width ≤ 24) (hq : s.ctx.bitCount.toNat ≤ 7)
    (hclean : s.ctx.bitQueue.toNat < 2 ^ s.ctx.bitCount.toNat) : Appends (fieldBits f) 0 s (putField f s) := by
  have hcount := putField_bitCount hw hq
  rw [putField, withQueue_bitCount] at hcount
  refine appends_withQueue ?_
  rw [hcount, pendingBits_eq, fieldBits_eq]
  exact lowBits_or_shiftLeft hclean (by omega)

/-- Settles O26: the field goes above the pending bits, and the loop sends what is complete. -/
theorem enqueueAppendsBits : Obligations.EnqueueAppendsBits := by
  intro f s hw hv hshort hclean hroom
  have hcount := putField_bitCount hw hshort
  have hclean' : (putField f s).ctx.bitQueue.toNat < 2 ^ (putField f s).ctx.bitCount.toNat := by
    rw [hcount]
    exact queue_append_lt hclean hv
  obtain ⟨s', hrun, hsent, hrest, hq⟩ := drain_appends 3 (by omega) hclean' (hcount ▸ hroom)
  have happ := (appends_putField hw hshort hclean).trans hsent
  rw [hcount] at hrest happ
  rw [List.append_nil, Nat.zero_add] at happ
  exact ⟨s', (enqueue_of_fits hw hv hshort).trans hrun, happ.stream, hrest, hq, happ.cursor, happ.ctx, happ.frame⟩

end Sys2Proof.Machine.MemoryProofs

end


/-! PROOFS. An ENCODE whose host breaks a duty (20_memory.md R51, 70_reset_and_hazards.md R153): what it answers and leaves, and
that none of it comes from IN, from the context before or from MORE. -/
section

namespace Sys2Proof.Machine.MemoryProofs

open Sys2Proof.Machine.Laws Sys2Proof.Machine.StateProofs

/-- An ENCODE with no failing pre-check is in a phase that accepts it, and its bytes can be counted (60_exceptions.md R137). -/
theorem accepted_of_firstFailure {more : Bool} {s : State} (h : firstFailure (.encode more) s = none) :
    (s.ctx.phase = .init ∨ s.ctx.phase = .eob ∨ s.ctx.phase = .fixed) ∧
      s.ctx.inputLen.toNat + s.operands.ilen.toNat < 2 ^ 64 := by
  unfold firstFailure at h
  cases hp : s.ctx.phase <;> simp [hp] at h ⊢ <;> exact h

/-- Past its pre-checks such an ENCODE has the unspecified outcome (R51). -/
theorem exec_of_breached {more : Bool} {s : State} (hf : s.faulted = false) (h : firstFailure (.encode more) s = none)
    (hb : breached s.operands = true) : exec (.encode more) s = .next (breachedEncode s) := by
  obtain ⟨hphase, hlen⟩ := accepted_of_firstFailure h
  exact execEncode_of_breached hf hphase hlen hb

/-- Which duty is broken does not rest on the bytes of IN. -/
theorem breached_withInput (o : Operands) (input : List Host.Cell) : breached { o with input := input } = breached o := rfl

/-- The bytes of a free window. -/
def freeBytes (draw n : Nat) : List Byte := (List.range n).map (Config.freeByte draw)

theorem length_freeBytes (draw n : Nat) : (freeBytes draw n).length = n := by
  rw [freeBytes, List.length_map, List.length_range]

theorem freeWindow_eq (draw n : Nat) : freeWindow draw n = windowOf (freeBytes draw n) := by
  rw [windowOf, length_freeBytes]
  exact List.map_prod_left_eq_zip

/-- Nothing of the context and of IN goes into what a breached ENCODE leaves. -/
theorem breachedEncode_withCtx (s : State) (c : Context) (input : List Host.Cell) :
    breachedEncode { s with ctx := c, operands := { s.operands with input := input } } =
      { breachedEncode s with operands := { s.operands with input := input } } := by
  unfold breachedEncode
  split <;> rfl

/-- Settles O46, by the two answers of a breached ENCODE. -/
theorem breachedEncodeIsUnspecified : Obligations.BreachedEncodeIsUnspecified := by
  intro more s hf hpre hb
  refine ⟨?_, fun more' c input hpre' => ?_⟩
  · rw [exec_of_breached hf hpre hb]
    rcases breachedEncode_cases s with hx | hx <;> rw [hx]
    · exact ⟨_, _, _, rfl, rfl, rfl, freeWindow_eq _ _, .inr ⟨rfl, rfl, rfl, length_freeBytes _ _⟩⟩
    · exact ⟨_, _, _, rfl, rfl, rfl, freeWindow_eq _ _, .inl ⟨rfl, hf, rfl,
        contextOk_legalContext (freeContext_table_wf s.draws), length_freeBytes _ _, freeCount_le _ _⟩⟩
  · have hb' := (breached_withInput s.operands input).trans hb
    exact ⟨_, exec_of_breached hf hpre hb, (exec_of_breached (s := { s with ctx := c, operands := _ }) hf hpre' hb').trans
      (congrArg Host.Outcome.next (breachedEncode_withCtx s c input))⟩

end Sys2Proof.Machine.MemoryProofs

end


/-! PROOFS. The command word (30_encoding.md R52 to R59): the row of the opcode map a word is of, the fields it carries, and
that encoding and decoding undo each other; then how a delivered word is run (R56, 60_exceptions.md R137). -/
section

namespace Sys2Proof.Machine.EncodingProofs

/-! ### Rows of the opcode map (R58) -/

theorem covers_iff {r : OpcodeRow} {w : Word} : r.covers w = true ↔ w &&& r.mask = r.pattern := decide_eq_true_iff

/-- Two rows whose patterns differ on a bit that both fix share no word. -/
theorem not_covers_of_covers {r q : OpcodeRow} {w : Word} (hdiffer : r.pattern &&& q.mask ≠ q.pattern &&& r.mask)
    (hr : r.covers w = true) : ¬ q.covers w = true := fun hq => by
  refine hdiffer ?_
  rw [← covers_iff.1 hr, ← covers_iff.1 hq, BitVec.and_assoc, BitVec.and_assoc, BitVec.and_comm r.mask]

theorem rowInit_differs_rowEncode : rowInit.pattern &&& rowEncode.mask ≠ rowEncode.pattern &&& rowInit.mask := by decide

theorem rowInit_differs_rowFinish : rowInit.pattern &&& rowFinish.mask ≠ rowFinish.pattern &&& rowInit.mask := by decide

theorem rowEncode_differs_rowFinish : rowEncode.pattern &&& rowFinish.mask ≠ rowFinish.pattern &&& rowEncode.mask := by
  decide

/-! ### What a word decodes to -/

theorem decode_of_rowInit {w : Word} (h : rowInit.covers w = true) :
    decode w = .command (.init (w.extractLsb' 4 4) (w.extractLsb' 8 2)) := if_pos h

theorem decode_of_rowEncode {w : Word} (h : rowEncode.covers w = true) : decode w = .command (.encode (w.getLsbD 4)) := by
  have hinit := not_covers_of_covers rowInit_differs_rowEncode.symm h
  rw [decode, if_neg hinit, if_pos h]

theorem decode_of_rowFinish {w : Word} (h : rowFinish.covers w = true) : decode w = .command .finish := by
  have hinit := not_covers_of_covers rowInit_differs_rowFinish.symm h
  have hencode := not_covers_of_covers rowEncode_differs_rowFinish.symm h
  rw [decode, if_neg hinit, if_neg hencode, if_pos h]

theorem decode_of_noRow {w : Word} (hinit : ¬ rowInit.covers w = true) (hencode : ¬ rowEncode.covers w = true)
    (hfinish : ¬ rowFinish.covers w = true) : decode w = .illegal (rejectReason w) := by
  rw [decode, if_neg hinit, if_neg hencode, if_neg hfinish]

/-! ### A word from its pattern and its fields (R53 to R55) -/

/-- A field of `n` bits taken out at bit `k` and put back there is the part of the word under the field's mask. -/
theorem field_in_place (w : Word) (k n : Nat) :
    (w.extractLsb' k n).setWidth 32 <<< k = w &&& ((BitVec.allOnes n).setWidth 32 <<< k) := by
  ext j hj
  by_cases hk : j < k
  · simp [hk]
  · simp [hk, Nat.add_sub_cancel' (Nat.not_lt.1 hk), BitVec.getLsbD_eq_getElem hj, Bool.and_comm]

theorem eq_encode_init {w : Word} (h : rowInit.covers w = true) :
    w = encode (.init (w.extractLsb' 4 4) (w.extractLsb' 8 2)) := by
  have hmasks : rowInit.mask ||| ((BitVec.allOnes 4).setWidth 32 <<< 4) ||| ((BitVec.allOnes 2).setWidth 32 <<< 8) =
      BitVec.allOnes 32 := by decide
  calc w = w &&& BitVec.allOnes 32 := BitVec.and_allOnes.symm
    _ = (w &&& rowInit.mask) ||| (w &&& ((BitVec.allOnes 4).setWidth 32 <<< 4)) |||
          (w &&& ((BitVec.allOnes 2).setWidth 32 <<< 8)) := by
        rw [← hmasks, BitVec.and_or_distrib_left, BitVec.and_or_distrib_left]
    _ = encode (.init (w.extractLsb' 4 4) (w.extractLsb' 8 2)) := by
        rw [covers_iff.1 h, ← field_in_place, ← field_in_place]
        rfl

theorem eq_encode_encode {w : Word} (h : rowEncode.covers w = true) : w = encode (.encode (w.getLsbD 4)) := by
  have hmasks : rowEncode.mask ||| ((BitVec.allOnes 1).setWidth 32 <<< 4) = BitVec.allOnes 32 := by decide
  have hmore : w.extractLsb' 4 1 = BitVec.ofBool (w.getLsbD 4) := by
    ext j hj
    simp [Nat.lt_one_iff.1 hj]
  calc w = w &&& BitVec.allOnes 32 := BitVec.and_allOnes.symm
    _ = (w &&& rowEncode.mask) ||| (w &&& ((BitVec.allOnes 1).setWidth 32 <<< 4)) := by
        rw [← hmasks, BitVec.and_or_distrib_left]
    _ = encode (.encode (w.getLsbD 4)) := by
        rw [covers_iff.1 h, ← field_in_place, hmore]
        rfl

theorem eq_encode_finish {w : Word} (h : rowFinish.covers w = true) : w = encode .finish :=
  BitVec.and_allOnes.symm.trans (covers_iff.1 h)

/-- The fields of the word of an INIT are its operands. -/
theorem encode_init_fields (level : BitVec 4) (format : BitVec 2) :
    (encode (.init level format)).extractLsb' 4 4 = level ∧ (encode (.init level format)).extractLsb' 8 2 = format := by
  revert level format
  decide

/-- Bit 4 of the word of an ENCODE is MORE. -/
theorem encode_encode_more (more : Bool) : (encode (.encode more)).getLsbD 4 = more := by
  cases more <;> rfl

/-! ### Encoding and decoding undo each other -/

/-- The word of a command is of the command's row, and carries its fields. -/
theorem decode_encode (i : Instr) : decode (encode i) = .command i := by
  cases i with
  | init level format =>
    obtain ⟨hlevel, hformat⟩ := encode_init_fields level format
    rw [decode_of_rowInit (Laws.EncodingFitsRow.init level format), hlevel, hformat]
  | encode more => rw [decode_of_rowEncode (Laws.EncodingFitsRow.encode more), encode_encode_more]
  | finish => exact decode_of_rowFinish Laws.EncodingFitsRow.finish

/-- A word spells a command by the row it is of, and is then the word of that command. -/
theorem eq_encode_of_decode {w : Word} {i : Instr} (h : decode w = .command i) : w = encode i := by
  by_cases hinit : rowInit.covers w = true
  · cases (decode_of_rowInit hinit).symm.trans h
    exact eq_encode_init hinit
  by_cases hencode : rowEncode.covers w = true
  · cases (decode_of_rowEncode hencode).symm.trans h
    exact eq_encode_encode hencode
  by_cases hfinish : rowFinish.covers w = true
  · cases (decode_of_rowFinish hfinish).symm.trans h
    exact eq_encode_finish hfinish
  · cases (decode_of_noRow hinit hencode hfinish).symm.trans h

/-- Settles O2. -/
theorem decodeAndEncodeAgree : Obligations.DecodeAndEncodeAgree :=
  fun i _ => ⟨eq_encode_of_decode, fun h => h ▸ decode_encode i⟩

/-! ### A delivered word (R56, 60_exceptions.md R137) -/

theorem runWord_of_command {w : Word} {i : Instr} (h : decode w = .command i) (s : State) : runWord w s = exec i s := by
  rw [runWord, h]

/-- A word that spells no command faults IllegalCommand on a core that is not faulted. -/
theorem runWord_of_illegal {w : Word} {why : Reject} {s : State} (h : decode w = .illegal why) (hf : s.faulted = false) :
    runWord w s = .next (takeFault .illegalCommand s) := by
  simp [runWord, h, hf]

theorem step_of_command {s : State} {c : HostCommand} {rest : List HostEvent} (h : s.host = .command c :: rest) :
    step s = runWord c.word (acceptOperands c.operands { s with host := rest }) := by
  simp only [step, serveHost, h, runCommand]

/-- Settles O3: one row at a time, then the three pairs of rows, then a word of none. -/
theorem decodeFollowsOpcodeMap : Obligations.DecodeFollowsOpcodeMap := by
  intro w
  refine ⟨fun h => decode_of_rowInit (covers_iff.2 h), fun h => decode_of_rowEncode (covers_iff.2 h),
    fun h => decode_of_rowFinish (covers_iff.2 h),
    fun ⟨h, g⟩ => not_covers_of_covers rowInit_differs_rowEncode (covers_iff.2 h) (covers_iff.2 g),
    fun ⟨h, g⟩ => not_covers_of_covers rowInit_differs_rowFinish (covers_iff.2 h) (covers_iff.2 g),
    fun ⟨h, g⟩ => not_covers_of_covers rowEncode_differs_rowFinish (covers_iff.2 h) (covers_iff.2 g),
    fun hinit hencode hfinish => ?_⟩
  have hillegal := decode_of_noRow (mt covers_iff.1 hinit) (mt covers_iff.1 hencode) (mt covers_iff.1 hfinish)
  exact ⟨fun i hi => Decoded.noConfusion (hillegal.symm.trans hi),
    fun s hf => ⟨_, _, runWord_of_illegal hillegal hf, rfl, rfl, rfl⟩⟩

/-- Settles O1: the first eight are the words of the commands they spell, and the last four are of no row. -/
theorem sampleWordsDecode : Obligations.SampleWordsDecode :=
  ⟨decode_encode (.init 1#4 0#2), decode_encode (.init 0#4 1#2), decode_encode (.init 1#4 2#2),
    decode_encode (.init 15#4 0#2), decode_encode (.init 0#4 3#2), decode_encode (.encode false),
    decode_encode (.encode true), decode_encode .finish,
    decode_of_noRow (by decide) (by decide) (by decide), decode_of_noRow (by decide) (by decide) (by decide),
    decode_of_noRow (by decide) (by decide) (by decide), decode_of_noRow (by decide) (by decide) (by decide)⟩

/-- Settles O4. -/
theorem stepRunsDecodedCommand : Obligations.StepRunsDecodedCommand :=
  fun _ _ _ _ hhost hdecode => (step_of_command hhost).trans (runWord_of_command hdecode _)

end Sys2Proof.Machine.EncodingProofs

end


/-! PROOFS. The bit queue's own operations (41_bit_queue.md): OutByte, FLUSH_TO_BYTE and the raw writers, what each stores at the
cursor and what it leaves unchanged; and the widths of the fields ENQUEUE is given. -/
section

namespace Sys2Proof.Machine.QueueProofs

open Sys2Proof.Machine.Laws Sys2Proof.Machine.StateProofs Sys2Proof.Machine.MemoryProofs

/-! ### OutByte (R63) -/

/-- Settles O25. -/
theorem outByteWritesAtCursor : Obligations.OutByteWritesAtCursor := fun b s =>
  ⟨fun hfull => outByte_eq_overflow.2 ⟨hfull, rfl⟩, fun hroom =>
    ⟨s.writeOut b, outByte_eq_run.2 ⟨hroom, rfl⟩, memory_read_write_same _ _ _, rfl,
      fun _ ha => memory_read_write_other _ _ ha, rfl⟩⟩

/-- Below OCAP the cursor moves on without wrapping. -/
theorem writeOut_cursor_toNat (b : Byte) {s : State} (h : s.work.cursor.toNat < s.work.ocap.toNat) :
    (s.writeOut b).work.cursor.toNat = s.work.cursor.toNat + 1 :=
  advance_toNat (pos := s.work.cursor) (n := 1) (by omega)

/-! ### Calls outside a precondition (R65, R67) -/

theorem enqueue_of_out_of_range {f : Field} {s : State} (h : 24 < f.width ∨ 2 ^ f.width ≤ f.value.toNat) :
    enqueue f s = .refused .enqueueOutOfRange := if_pos h

theorem writeRawBytes_of_pending {bs : List Byte} {s : State} (h : s.ctx.bitCount ≠ 0#5) :
    writeRawBytes bs s = .refused .rawWriterUnaligned := if_neg h

/-- Settles O29. -/
theorem forbiddenQueueCallsAreRefused : Obligations.ForbiddenQueueCallsAreRefused :=
  ⟨fun _ _ => enqueue_of_out_of_range, fun _ _ => writeRawBytes_of_pending⟩

/-! ### The fields that are enqueued (43_fixed_huffman.md R87, R89, R91) -/

/-- Settles O34. -/
theorem fieldsFitTheQueue : Obligations.FieldsFitTheQueue :=
  ⟨fun b => ⟨litField_width b, litField_value_lt b⟩, fun _ hmin hmax => lenField_of_le (Nat.le_of_succ_le hmin) hmax,
    fun _ => distField_of_le⟩

/-! ### FLUSH_TO_BYTE (R66) -/

/-- The state of a queue that is taken to hold a whole byte: the bits above the pending ones stand for the padding. -/
def padQueue (s : State) : State := s.withQueue s.ctx.bitQueue 8#5

/-- The low bits of a clean word past its highest set bit are zero bits. -/
theorem lowBits_of_clean {q : Word} {n m : Nat} (hq : q.toNat < 2 ^ n) (hnm : n ≤ m) :
    lowBits m q = lowBits n q ++ List.replicate (m - n) false := by
  obtain ⟨k, rfl⟩ := Nat.exists_eq_add_of_le hnm
  rw [lowBits, List.range_add, List.map_append, List.map_map, Nat.add_sub_cancel_left]
  refine congrArg (lowBits n q ++ ·) (List.eq_replicate_iff.2 ⟨by simp, fun b hb => ?_⟩)
  obtain ⟨j, -, rfl⟩ := List.mem_map.1 hb
  exact Nat.testBit_lt_two_pow (hq.trans_le (Nat.pow_le_pow_right (by decide) (Nat.le_add_right n j)))

theorem appends_padQueue {s : State} (hshort : s.ctx.bitCount.toNat ≤ 7)
    (hclean : s.ctx.bitQueue.toNat < 2 ^ s.ctx.bitCount.toNat) :
    Appends (List.replicate (8 - s.ctx.bitCount.toNat) false) 0 s (padQueue s) :=
  appends_withQueue (lowBits_of_clean hclean (m := 8) (by omega))

/-- With no bit pending, a flush only clears the queue. -/
theorem flushToByte_of_empty {s : State} (h : s.ctx.bitCount = 0#5) : flushToByte s = .run (s.withQueue 0#32 0#5) := by
  simp [flushToByte, h]

/-- The state after the byte of a flush: the pending bits and their padding have been sent. -/
def flushed (s : State) : State := (s.writeOut (s.ctx.bitQueue.setWidth 8)).withQueue 0#32 0#5

/-- With bits pending and room for a byte, a flush sends the low byte of the queue. -/
theorem flushToByte_of_pending {s : State} (hpending : 0 < s.ctx.bitCount.toNat)
    (hroom : s.work.cursor.toNat < s.work.ocap.toNat) : flushToByte s = .run (flushed s) := by
  have hne : s.work.cursor ≠ s.work.ocap := fun he => absurd hroom (he ▸ Nat.lt_irrefl _)
  rw [flushToByte, if_pos hpending, outByte_eq_run.2 ⟨hne, rfl⟩, bind_run, flushed]

/-- A flush sends what a turn of ENQUEUE would send of the padded queue: a clean queue of at most 8 bits is empty then. -/
theorem sendLow_padQueue {s : State} (hshort : s.ctx.bitCount.toNat ≤ 7)
    (hclean : s.ctx.bitQueue.toNat < 2 ^ s.ctx.bitCount.toNat) : sendLow (padQueue s) = flushed s := by
  have hbyte : s.ctx.bitQueue.toNat < 2 ^ 8 := hclean.trans_le (Nat.pow_le_pow_right (by decide) (by omega))
  have hempty : s.ctx.bitQueue >>> 8 = 0#32 := BitVec.eq_of_toNat_eq (by
    rw [BitVec.toNat_ushiftRight, Nat.shiftRight_eq_div_pow, Nat.div_eq_of_lt hbyte, BitVec.toNat_ofNat, Nat.zero_mod])
  rw [sendLow, padQueue, withQueue_bitQueue, withQueue_bitCount, hempty, BitVec.sub_self]
  rfl

/-- Settles O27: an empty queue stays as it is, and another is padded to the one byte that is sent. -/
theorem flushPadsWithZeros : Obligations.FlushPadsWithZeros := by
  intro s hshort hclean hroom
  by_cases hempty : s.ctx.bitCount = 0#5
  · have hpending : pendingBits s.ctx = [] := by rw [pendingBits_eq, hempty]; rfl
    have happ : Appends [] 0 s (s.withQueue 0#32 0#5) := appends_withQueue (by rw [hpending]; rfl)
    refine ⟨_, flushToByte_of_empty hempty, ?_, ?_, rfl⟩
    · rw [happ.stream, hempty]
      rfl
    · rw [happ.cursor, hempty]
      rfl
  · have hpending : 0 < s.ctx.bitCount.toNat := Nat.pos_of_ne_zero fun h => hempty (BitVec.eq_of_toNat_eq h)
    have hbyte : s.work.cursor.toNat < s.work.ocap.toNat := by omega
    have happ := (appends_padQueue hshort hclean).trans (appends_sendLow (s := padQueue s) (Nat.le_refl 8) hbyte)
    rw [sendLow_padQueue hshort hclean] at happ
    refine ⟨_, flushToByte_of_pending hpending hbyte, ?_, ?_, rfl⟩
    · rw [happ.stream, List.append_nil, Nat.mod_eq_of_lt (by omega)]
    · rw [happ.cursor]
      omega

/-! ### The raw writers (R67 to R72) -/

/-- Bytes stored from the cursor on: the cursor moves past them, and of the state only OUT and the cursor change. -/
structure StoresAt (bs : List Byte) (s s' : State) : Prop where
  cursor : s'.work.cursor.toNat = s.work.cursor.toNat + bs.length
  stored : ∀ k, k < bs.length → Memory.read s'.out (s.work.cursor.toNat + k) = bs[k]?
  frame : ∀ a, a < s.work.cursor.toNat ∨ s'.work.cursor.toNat ≤ a → Memory.read s'.out a = Memory.read s.out a
  rest : s' = { s with out := s'.out, work := { s.work with cursor := s'.work.cursor } }

theorem storesAt_writeAll {bs : List Byte} {s : State} (h : s.work.cursor.toNat + bs.length ≤ s.work.ocap.toNat) :
    StoresAt bs s (writeAll bs s) := by
  induction bs generalizing s with
  | nil => exact ⟨rfl, fun k hk => absurd hk (Nat.not_lt_zero k), fun _ _ => rfl, rfl⟩
  | cons b rest ih =>
    rw [List.length_cons] at h
    have hcursor := writeOut_cursor_toNat b (s := s) (by omega)
    obtain ⟨hmoved, hstored, hframe, hrest⟩ := ih (s := s.writeOut b) (by rw [hcursor, writeOut_ocap]; omega)
    rw [hcursor] at hmoved hstored hframe
    refine ⟨?_, fun k hk => ?_, fun a ha => ?_, hrest⟩
    · rw [writeAll, hmoved, List.length_cons, Nat.add_assoc, Nat.add_comm 1]
    · cases k with
      | zero =>
        rw [writeAll, Nat.add_zero, hframe _ (.inl (Nat.lt_succ_self _)), writeOut_out, memory_read_write_same]
        rfl
      | succ k =>
        have hk' : k < rest.length := Nat.lt_of_succ_lt_succ hk
        rw [writeAll, Nat.add_comm k, ← Nat.add_assoc, hstored k hk', Nat.add_comm 1, List.getElem?_cons_succ]
    · rw [writeAll] at ha ⊢
      rw [hframe a (by omega), writeOut_out, memory_read_write_other _ _ (by omega)]

theorem writeRaw_of_le {inp : List Byte} {i n : Nat} (s : State) (h : i + n ≤ inp.length) :
    writeRaw inp i n s = writeBytes ((inp.drop i).take n) s := by
  rw [writeRaw, inBytes_of_le h, writeBytes]

/-- Settles O28. -/
theorem rawWritersStoreInOrder : Obligations.RawWritersStoreInOrder := by
  refine ⟨fun bs s hempty hroom => ?_, fun _ _ => rfl, fun _ _ => rfl, fun _ _ => rfl, fun _ _ _ s => writeRaw_of_le s⟩
  obtain ⟨hcursor, hstored, hframe, hrest⟩ := storesAt_writeAll hroom
  exact ⟨_, (writeRawBytes_aligned hempty).trans (outBytes_fits hroom), hcursor, hstored, hframe, hrest⟩

end Sys2Proof.Machine.QueueProofs

end


/-! PROOFS. The output capacity decides nothing but where the bytes of a command are cut off (41_bit_queue.md R63,
60_exceptions.md R138, R139). Every operation of the core is shown to be OutByte of a list of bytes and then a write of
registers, the same bytes and registers whatever the capacity. -/
section

namespace Sys2Proof.Machine.QueueProofs

open Sys2Proof.Machine.Laws Sys2Proof.Machine.StateProofs Sys2Proof.Machine.MemoryProofs

/-! ### Registers beside the window -/

/-- The state inside a command whose output capacity is `k`. -/
def withCap (k : Word) (s : State) : State :=
  { s with operands := { s.operands with ocap := k }, work := { s.work with ocap := k } }

@[simp] theorem withCap_ctx (k : Word) (s : State) : (withCap k s).ctx = s.ctx := rfl
@[simp] theorem withCap_pos (k : Word) (s : State) : (withCap k s).work.pos = s.work.pos := rfl
@[simp] theorem withCap_base (k : Word) (s : State) : (withCap k s).work.base = s.work.base := rfl

/-- The context and the transient registers replaced, but for the cursor and the capacity. -/
def setRegisters (c : Context) (w : Transient) (s : State) : State :=
  { s with ctx := c, work := { w with cursor := s.work.cursor, ocap := s.work.ocap } }

theorem writeAll_withCap (bs : List Byte) (k : Word) (s : State) :
    writeAll bs (withCap k s) = withCap k (writeAll bs s) := by
  induction bs generalizing s with
  | nil => rfl
  | cons b rest ih => exact ih (s.writeOut b)

theorem eq_writeAll_of_run {bs : List Byte} {s s' : State} (h : outBytes bs s = .run s') : s' = writeAll bs s := by
  induction bs generalizing s with
  | nil => exact (Flow.run.inj h).symm
  | cons b rest ih =>
    obtain ⟨m, hm, hrest⟩ := bind_eq_run.1 h
    obtain ⟨-, rfl⟩ := outByte_eq_run.1 hm
    exact ih hrest

/-! ### Operations up to what an overflow leaves -/

/-- An outcome with the registers of an overflow forgotten: the command leaves them unspecified (R139). -/
def observed : Flow → Flow
  | .run s => .run s
  | .overflow s => .overflow { s with ctx := Context.reset, work := Transient.reset }
  | .stopped e => .stopped e
  | .refused r => .refused r

/-- What a command answers does not rest on the registers of an overflow. -/
theorem outcome_observed (x : Flow) : (observed x).outcome = x.outcome := by cases x <;> rfl

theorem observed_bind (x : Flow) (f : State → Flow) : observed (x.bind f) = (observed x).bind fun s => observed (f s) := by
  cases x <;> rfl

theorem outcome_eq_of_observed {x y : Flow} (h : observed x = observed y) : x.outcome = y.outcome := by
  rw [← outcome_observed x, h, outcome_observed]

theorem observed_bind_congr {x y : Flow} (f : State → Flow) (h : observed x = observed y) :
    observed (x.bind f) = observed (y.bind f) := by
  rw [observed_bind, h, observed_bind]

/-- How an operation ends when its bytes have been sent: it has written registers, or it stops the model. -/
inductive Ending
  | sets (c : Context) (w : Transient)
  | stops (e : Fault)
  | refuses (r : Refusal)

/-- The ending as an operation. -/
def Ending.flow : Ending → State → Flow
  | .sets c w, s => .run (setRegisters c w s)
  | .stops e, _ => .stopped e
  | .refuses r, _ => .refused r

/-- An ending writes the registers, so what they held before makes no difference. -/
theorem observed_outBytes_setRegisters (bs : List Byte) (e : Ending) (c : Context) (w : Transient) (s : State) :
    observed ((outBytes bs (setRegisters c w s)).bind e.flow) = observed ((outBytes bs s).bind e.flow) := by
  induction bs generalizing s with
  | nil => cases e <;> rfl
  | cons b rest ih =>
    rw [outBytes_cons, outBytes_cons, bind_assoc, bind_assoc]
    rcases outByte_cases b s with ⟨hfull, hx⟩ | ⟨hroom, hx⟩
    · rw [hx, (outByte_eq_overflow (s := setRegisters c w s)).2 ⟨hfull, rfl⟩]
      rfl
    · rw [hx, (outByte_eq_run (s := setRegisters c w s)).2 ⟨hroom, rfl⟩]
      exact ih (s.writeOut b)

/-- The operation `f` at `s` sends a list of bytes and then ends, both the same at every capacity. -/
def Streams (f : State → Flow) (s : State) : Prop :=
  ∃ bs e, ∀ k, observed (f (withCap k s)) = observed ((outBytes bs (withCap k s)).bind (Ending.flow e))

theorem Streams.congr {f g : State → Flow} {s : State} (hg : Streams g s)
    (h : ∀ k, f (withCap k s) = g (withCap k s)) : Streams f s := by
  obtain ⟨bs, e, hg⟩ := hg
  exact ⟨bs, e, fun k => by rw [h, hg]⟩

/-- A choice that the capacity has no part in. -/
theorem Streams.ite {p : State → Prop} {d : ∀ m, Decidable (p m)} {f g : State → Flow} {s : State}
    (hf : p s → Streams f s) (hg : ¬ p s → Streams g s) (hp : ∀ k, p (withCap k s) = p s := by exact fun _ => rfl) :
    Streams (fun m => if p m then f m else g m) s := by
  by_cases h : p s
  · exact (hf h).congr fun k => if_pos ((hp k).symm ▸ h)
  · exact (hg h).congr fun k => if_neg ((hp k).symm ▸ h)

/-- A sequence sends the bytes of its parts, and ends as its second part does. -/
theorem Streams.bind {f g : State → Flow} {s : State} (hf : Streams f s) (hg : ∀ m, Streams g m) :
    Streams (fun m => (f m).bind g) s := by
  obtain ⟨as, e, hf⟩ := hf
  cases e with
  | stops e => exact ⟨as, .stops e, fun k => by rw [observed_bind_congr g (hf k), bind_assoc]; rfl⟩
  | refuses r => exact ⟨as, .refuses r, fun k => by rw [observed_bind_congr g (hf k), bind_assoc]; rfl⟩
  | sets c w =>
    obtain ⟨bs, e, hg⟩ := hg (setRegisters c w (writeAll as s))
    refine ⟨as ++ bs, e, fun k => ?_⟩
    rw [observed_bind_congr g (hf k), bind_assoc, outBytes_append, bind_assoc]
    cases hx : outBytes as (withCap k s) with
    | run m =>
      obtain rfl := eq_writeAll_of_run hx
      rw [bind_run, bind_run, ← observed_outBytes_setRegisters bs e c w, writeAll_withCap]
      exact hg k
    | overflow m => rfl
    | stopped e => rfl
    | refused r => rfl

/-- A write of registers sends nothing. -/
theorem streams_set {r : State → State} {s : State}
    (h : ∀ k, r (withCap k s) = setRegisters (r s).ctx (r s).work (withCap k s)) : Streams (fun m => .run (r m)) s :=
  ⟨[], .sets (r s).ctx (r s).work, fun k => congrArg (fun m => observed (.run m)) (h k)⟩

theorem streams_run (s : State) : Streams .run s := streams_set (r := fun m => m) fun _ => rfl

theorem streams_stopped (e : Fault) (s : State) : Streams (fun _ => .stopped e) s := ⟨[], .stops e, fun _ => rfl⟩

theorem streams_refused (r : Refusal) (s : State) : Streams (fun _ => .refused r) s := ⟨[], .refuses r, fun _ => rfl⟩

/-- An operation after a write of registers. -/
theorem Streams.after {r : State → State} {f : State → Flow} {s : State}
    (h : ∀ k, r (withCap k s) = setRegisters (r s).ctx (r s).work (withCap k s)) (hf : ∀ m, Streams f m) :
    Streams (fun m => f (r m)) s := (streams_set h).bind hf

/-! ### The bit queue (41_bit_queue.md) -/

theorem outByte_streams (b : Byte) (s : State) : Streams (outByte b) s := by
  refine ⟨[b], .sets s.ctx s.work, fun k => ?_⟩
  rw [outBytes_cons, bind_assoc]
  rcases outByte_cases b (withCap k s) with ⟨-, hx⟩ | ⟨-, hx⟩ <;> rw [hx] <;> rfl

theorem outBytes_streams (bs : List Byte) (s : State) : Streams (outBytes bs) s := by
  induction bs generalizing s with
  | nil => exact streams_run s
  | cons b rest ih => exact (outByte_streams b s).bind ih

theorem drain_streams (n : Nat) (s : State) : Streams (drain n) s := by
  induction n generalizing s with
  | zero => exact streams_run s
  | succ n ih =>
    refine .ite (fun _ => streams_run s) fun _ => .congr (.bind (outByte_streams (s.ctx.bitQueue.setWidth 8) s) fun m => ?_)
      fun _ => rfl
    exact .after (r := fun m => m.withQueue (m.ctx.bitQueue >>> 8) (m.ctx.bitCount - 8#5)) (fun _ => rfl) ih

theorem enqueue_streams (f : Field) (s : State) : Streams (enqueue f) s := by
  unfold enqueue
  exact .ite (fun _ => streams_refused _ s) fun _ => .ite (fun _ => streams_refused _ s) fun _ =>
    .after (r := putField f) (fun _ => rfl) (drain_streams 3)

theorem flushToByte_streams (s : State) : Streams flushToByte s := by
  refine .bind (.ite (fun _ => ?_) fun _ => streams_run s) fun m => streams_set fun _ => rfl
  exact (outByte_streams (s.ctx.bitQueue.setWidth 8) s).congr fun _ => rfl

theorem writeRawBytes_streams (bs : List Byte) (s : State) : Streams (writeRawBytes bs) s := by
  unfold writeRawBytes
  exact .ite (fun _ => outBytes_streams bs s) fun _ => streams_refused _ s

theorem writeRaw_streams (inp : List Byte) (i n : Nat) (s : State) : Streams (writeRaw inp i n) s := by
  unfold writeRaw
  cases inBytes inp i n with
  | none => exact streams_stopped _ s
  | some bs => exact writeRawBytes_streams bs s

/-! ### The Huffman emitters and the blocks (43_fixed_huffman.md, 45_block_state_machine.md) -/

theorem emitMatch_streams (len dist : Nat) (s : State) : Streams (emitMatch len dist) s := by
  unfold emitMatch
  cases lenField len with
  | none => exact streams_refused _ s
  | some lf =>
    cases distField dist with
    | none => exact streams_refused _ s
    | some df => exact (enqueue_streams lf s).bind (enqueue_streams df)

/-- ENQUEUE after a write of `state`. -/
theorem enqueue_withPhase_streams (f : Field) (p : Phase) (s : State) :
    Streams (fun m => enqueue f (m.withPhase p)) s :=
  .after (r := fun m => m.withPhase p) (fun _ => rfl) (enqueue_streams f)

theorem openFixed_streams (more : Bool) (s : State) : Streams (openFixed more) s := by
  unfold openFixed
  exact .ite (fun _ => enqueue_withPhase_streams _ _ s) fun _ => enqueue_withPhase_streams _ _ s

theorem matchOpen_streams (s : State) : Streams matchOpen s := by
  unfold matchOpen
  exact .ite (fun _ => openFixed_streams true s) fun _ => streams_run s

theorem storedPiece_streams (inp : List Byte) (i c : Nat) (final : Bool) (s : State) :
    Streams (storedPiece inp i c final) s :=
  .bind (.ite (fun _ => streams_run s) fun _ => enqueue_streams _ s) fun m =>
    (enqueue_withPhase_streams _ _ m).bind fun m => (flushToByte_streams m).bind fun m =>
      (writeRawBytes_streams _ m).bind fun m => (writeRawBytes_streams _ m).bind fun m => writeRaw_streams inp i c m

theorem storedLoop_streams (inp : List Byte) (more : Bool) (n i rem : Nat) (s : State) :
    Streams (storedLoop inp more n i rem) s := by
  induction n generalizing i rem s with
  | zero => exact streams_run s
  | succ n ih =>
    exact .bind (storedPiece_streams inp i _ _ s) fun m => .ite (fun _ => streams_run m) fun _ => ih _ _ m

theorem emitLits_streams (bs : List Byte) (s : State) : Streams (emitLits bs) s := by
  induction bs generalizing s with
  | nil => exact streams_run s
  | cons b rest ih => exact (enqueue_streams _ s).bind ih

theorem huffOpen_streams (more : Bool) (s : State) : Streams (huffOpen more) s := by
  unfold huffOpen
  exact .ite (fun _ => openFixed_streams more s) fun _ => .ite (fun _ => streams_run s) fun _ =>
    .bind (enqueue_streams _ s) fun _ =>
      .after (r := fun m => m.withPhase .eob) (fun _ => rfl) (openFixed_streams false)

theorem huffLits_streams (inp : List Byte) (i n : Nat) (more : Bool) (s : State) :
    Streams (huffLits inp i n more) s := by
  unfold huffLits
  cases inBytes inp i n with
  | none => exact streams_stopped _ s
  | some bs => exact (huffOpen_streams more s).bind (emitLits_streams bs)

theorem flushLits_streams (inp : List Byte) (i n b9 : Nat) (more : Bool) (s : State) :
    Streams (flushLits inp i n b9 more) s := by
  unfold flushLits
  exact .ite (fun _ => storedLoop_streams inp more _ i n s) fun _ => huffLits_streams inp i n more s

/-! ### The match finder (44_match_finder.md) -/

theorem literalStep_streams (inp : List Byte) (s : State) : Streams (literalStep inp) s := by
  cases hbyte : inp[s.work.pos.toNat]? with
  | none => exact (streams_stopped .readOutsideInput s).congr fun _ => by simp [literalStep, hbyte]
  | some b =>
    have hset := streams_set (s := s) (r := fun m => m.withScan (m.work.pos + 1#32) (m.work.plit + 1#32)
      (if nineBitLiteral ≤ b.toNat then m.work.bit9 + 1#32 else m.work.bit9)) fun _ => rfl
    exact hset.congr fun _ => by simp [literalStep, hbyte]

theorem flushPending_streams (inp : List Byte) (more : Bool) (s : State) : Streams (flushPending inp more) s := by
  unfold flushPending
  refine .ite (fun _ => streams_run s) fun _ => .congr (flushLits_streams inp (s.work.pos.toNat - s.work.plit.toNat)
    s.work.plit.toNat s.work.bit9.toNat more s) fun _ => rfl

theorem acceptMatch_streams (inp : List Byte) (dist len : Nat) (s : State) : Streams (acceptMatch inp dist len) s := by
  refine (flushPending_streams inp true s).bind fun m =>
    .bind (.after (r := fun m => m.withScan m.work.pos 0#32 m.work.bit9) (fun _ => rfl) matchOpen_streams) fun m =>
      (emitMatch_streams len dist m).bind fun m => streams_set fun _ => rfl

theorem judge_streams (inp : List Byte) (dist offset : Nat) (s : State) : Streams (judge inp dist offset) s := by
  unfold judge
  refine .ite (fun _ => literalStep_streams inp s) fun _ => ?_
  cases hdf : distField dist with
  | none => exact (streams_refused .noDistanceCode s).congr fun _ => rfl
  | some df =>
    cases hlf : lenField (extend inp s.work.pos.toNat offset) with
    | none => exact (streams_refused .noLengthCode s).congr fun _ => by simp [hlf]
    | some lf =>
      have hjudge : Streams (fun m =>
          if costRefused df.width lf.width (extend inp s.work.pos.toNat offset) m.work.bit9.toNat then literalStep inp m
          else acceptMatch inp dist (extend inp s.work.pos.toNat offset) m) s :=
        .ite (fun _ => literalStep_streams inp s) fun _ => acceptMatch_streams inp dist _ s
      exact hjudge.congr fun _ => by simp only [withCap_pos, hlf]; rfl

/-- One turn of the scan: what it does, the chunk and the match table decide. -/
theorem scanStep_streams (inp : List Byte) (s : State) : Streams (scanStep inp) s := by
  cases hword : readWord inp s.work.pos.toNat with
  | none => exact (streams_stopped .readOutsideInput s).congr fun _ => by simp [scanStep, hword]
  | some word =>
    have hprobe {f : State → Flow} (hf : ∀ m, Streams f m) : Streams (fun m => f (probe word m).2) s :=
      .after (r := fun m => (probe word m).2) (fun _ => rfl) hf
    cases hcand : candidate word (Table.slot s.ctx.table (hashWord word)) (s.work.base.toNat + s.work.pos.toNat)
        s.work.pos.toNat with
    | reject =>
      exact (hprobe (literalStep_streams inp)).congr fun _ => by simp [scanStep, probe, hword, hcand]
    | notInThePast =>
      exact (streams_refused .slotNotInThePast s).congr fun _ => by simp [scanStep, probe, hword, hcand]
    | found dist offset =>
      exact (hprobe (judge_streams inp dist offset)).congr fun _ => by
        simp [scanStep, probe, hword, hcand]

theorem scanLoop_streams (inp : List Byte) (n : Nat) (s : State) : Streams (scanLoop inp n) s := by
  induction n generalizing s with
  | zero => exact streams_run s
  | succ n ih =>
    exact .ite (fun _ => (scanStep_streams inp s).bind ih) fun _ => streams_run s

theorem tailLoop_streams (inp : List Byte) (n : Nat) (s : State) : Streams (tailLoop inp n) s := by
  induction n generalizing s with
  | zero => exact streams_run s
  | succ n ih =>
    exact .ite (fun _ => (literalStep_streams inp s).bind ih) fun _ => streams_run s

theorem scan_streams (inp : List Byte) (s : State) : Streams (scan inp) s :=
  (scanLoop_streams inp _ s).bind fun m => (tailLoop_streams inp _ m).bind fun m =>
    (flushPending_streams inp m.work.more m).congr fun _ => rfl

/-! ### The commands (46_framing.md, 47_commands.md) -/

theorem headerPhase_streams (s : State) : Streams headerPhase s := by
  unfold headerPhase
  refine .ite (fun _ => .bind ?_ fun m => streams_set fun _ => rfl) fun _ => streams_run s
  cases hfmt : s.ctx.format with
  | gzip => exact (writeRawBytes_streams (headerBytes .gzip) s).congr fun _ => by simp [hfmt, writeBytes]
  | zlib => exact (writeRawBytes_streams (headerBytes .zlib) s).congr fun _ => by simp [hfmt, writeBytes]
  | deflate => exact (streams_run s).congr fun _ => by simp [hfmt]

theorem trailer_streams (s : State) : Streams trailer s := by
  unfold trailer
  refine .bind ?_ fun m => streams_set fun _ => rfl
  cases hfmt : s.ctx.format with
  | gzip =>
    have hboth : Streams (fun m => (writeU32LE s.ctx.crc m).bind fun m => writeU32LE (m.ctx.inputLen.setWidth 32) m) s :=
      (writeRawBytes_streams _ s).bind fun m => (writeRawBytes_streams (bytes32LE (m.ctx.inputLen.setWidth 32)) m).congr
        fun _ => rfl
    exact hboth.congr fun _ => by simp [hfmt]
  | zlib => exact (writeRawBytes_streams (bytes32BE s.ctx.crc) s).congr fun _ => by simp [hfmt, writeU32BE]
  | deflate => exact (streams_run s).congr fun _ => by simp [hfmt]

theorem dataPhase_streams (inp : List Byte) (s : State) : Streams (dataPhase inp) s := by
  unfold dataPhase
  refine .ite (fun _ => .ite (fun _ => ?_) fun _ => streams_run s) fun _ => scan_streams inp s
  exact (storedLoop_streams inp s.work.more _ 0 inp.length s).congr fun _ => rfl

theorem closeBlock_streams (s : State) : Streams closeBlock s := by
  unfold closeBlock
  exact .ite (fun _ => (enqueue_streams _ s).bind fun m => streams_set fun _ => rfl) fun _ =>
    .ite (fun _ => (enqueue_streams _ s).bind fun m => streams_set fun _ => rfl) fun _ => streams_run s

theorem finalEmptyBlock_streams (s : State) : Streams finalEmptyBlock s := by
  unfold finalEmptyBlock
  exact .ite (fun _ => (enqueue_streams _ s).bind fun m => (flushToByte_streams m).bind fun m =>
    (writeRawBytes_streams _ m).bind fun m => (writeRawBytes_streams _ m).bind fun m => streams_set fun _ => rfl)
    fun _ => streams_run s

/-- The body of an ENCODE of the chunk `inp`, from its start (R132). -/
def encodeFrom (inp : List Byte) (s : State) : Flow :=
  (headerPhase s).bind fun s => (dataPhase inp (checksumPhase inp s)).bind fun s =>
    .run (s.withInputLen (s.ctx.inputLen + s.work.ilen.setWidth 64))

/-- The body of a FINISH, from its start (R133). -/
def finishFrom (s : State) : Flow :=
  (headerPhase s).bind fun s => (closeBlock s).bind fun s => (finalEmptyBlock s).bind fun s =>
    (flushToByte s).bind trailer

theorem encodeBody_eq (more : Bool) (s : State) :
    encodeBody more s = encodeFrom (chunkOf s.operands) (beginEncode more s) := rfl

theorem finishBody_eq (s : State) : finishBody s = finishFrom (beginFinish s) := rfl

theorem encodeFrom_streams (inp : List Byte) (s : State) : Streams (encodeFrom inp) s :=
  (headerPhase_streams s).bind fun _ =>
    .bind (.after (r := checksumPhase inp) (fun _ => rfl) (dataPhase_streams inp)) fun _ => streams_set fun _ => rfl

theorem finishFrom_streams (s : State) : Streams finishFrom s :=
  (headerPhase_streams s).bind fun m => (closeBlock_streams m).bind fun m => (finalEmptyBlock_streams m).bind fun m =>
    (flushToByte_streams m).bind trailer_streams

end Sys2Proof.Machine.QueueProofs

end


/-! PROOFS. What a command leaves of OUT at a given output capacity, and that the capacity decides only whether the command
overflows, and then where its bytes are cut off (41_bit_queue.md R63, 60_exceptions.md R138, R139). -/
section

namespace Sys2Proof.Machine.QueueProofs

open Sys2Proof.Machine.Laws Sys2Proof.Machine.StateProofs Sys2Proof.Machine.MemoryProofs

/-! ### Windows -/

/-- An entry whose key is above every key of the list goes to its end. -/
theorem setEntry_of_above {α : Type} {m : List (Nat × α)} {k : Nat} (x : α) (h : ∀ e ∈ m, e.1 < k) :
    setEntry m k x = m ++ [(k, x)] := by
  induction m with
  | nil => rfl
  | cons e rest ih =>
    obtain ⟨hk, hrest⟩ := List.forall_mem_cons.1 h
    rw [setEntry, if_neg (Nat.lt_asymm hk), if_neg (Nat.ne_of_gt hk), ih hrest, List.cons_append]

theorem windowOf_write (bs : List Byte) (b : Byte) : Memory.write (windowOf bs) bs.length b = windowOf (bs ++ [b]) := by
  have hbelow : ∀ e ∈ windowOf bs, e.1 < bs.length := fun e he => List.mem_range.1 (List.of_mem_zip he).1
  rw [Memory.write, setEntry_of_above b hbelow, windowOf, windowOf, List.length_append, List.length_singleton,
    List.range_succ, List.zip_append List.length_range]
  rfl

theorem windowOf_take (bs : List Byte) (n : Nat) : (windowOf bs).take n = windowOf (bs.take n) := by
  rw [windowOf, windowOf, List.zip, List.take_zipWith, List.take_range, List.length_take]

/-- The command has sent exactly the bytes `bs`. -/
structure Sent (bs : List Byte) (s : State) : Prop where
  out : s.out = windowOf bs
  cursor : s.work.cursor.toNat = bs.length

theorem Sent.writeAll {as bs : List Byte} {s : State} (h : Sent as s) (hroom : as.length + bs.length < 2 ^ 32) :
    Sent (as ++ bs) (writeAll bs s) := by
  induction bs generalizing as s with
  | nil => rwa [List.append_nil]
  | cons b rest ih =>
    rw [List.length_cons] at hroom
    have hcursor : (s.writeOut b).work.cursor.toNat = s.work.cursor.toNat + 1 :=
      advance_toNat (pos := s.work.cursor) (n := 1) (by rw [h.cursor]; omega)
    have hnext : Sent (as ++ [b]) (s.writeOut b) :=
      ⟨by rw [writeOut_out, h.out, h.cursor, windowOf_write], by rw [hcursor, h.cursor, List.length_append]; rfl⟩
    rw [List.append_cons]
    exact ih hnext (by rw [List.length_append, List.length_singleton]; omega)

/-- Without room for all of them, the bytes that fit are written and the next one overflows (R63). -/
theorem outBytes_overflows {bs : List Byte} {s : State} (hcap : s.work.cursor.toNat ≤ s.work.ocap.toNat)
    (hmany : s.work.ocap.toNat < s.work.cursor.toNat + bs.length) :
    outBytes bs s = .overflow (Laws.writeAll (bs.take (s.work.ocap.toNat - s.work.cursor.toNat)) s) := by
  induction bs generalizing s with
  | nil => exact absurd hcap (Nat.not_le.2 hmany)
  | cons b rest ih =>
    rw [List.length_cons] at hmany
    rw [outBytes_cons]
    rcases outByte_cases b s with ⟨hfull, hx⟩ | ⟨hroom, hx⟩ <;> rw [hx]
    · rw [bind_overflow, hfull, Nat.sub_self, List.take_zero]
      rfl
    · have hlt : s.work.cursor.toNat < s.work.ocap.toNat :=
        Nat.lt_of_le_of_ne hcap fun he => hroom (BitVec.eq_of_toNat_eq he)
      have hcursor := writeOut_cursor_toNat b hlt
      have hleft : s.work.ocap.toNat - s.work.cursor.toNat = s.work.ocap.toNat - (s.work.cursor.toNat + 1) + 1 := by omega
      rw [bind_run, ih (by rw [hcursor, writeOut_ocap]; omega) (by rw [hcursor, writeOut_ocap]; omega), hcursor,
        writeOut_ocap, hleft, List.take_succ_cons, Laws.writeAll]

/-! ### A command's body at every capacity -/

/-- What the body of a command answers at the capacity `k`: it sends the bytes `bs` and ends in `e`, or, where they are more
than `k`, it overflows with the first `k` of them in OUT. -/
structure Answers (bs : List Byte) (e : Ending) (s : State) (k : Word) (x : Host.Outcome State Fault Refusal) : Prop where
  fits : bs.length ≤ k.toNat → x = (e.flow (withCap k (writeAll bs s))).outcome
  overflows : k.toNat < bs.length → x = .next (takeOverflow (withCap k (writeAll (bs.take k.toNat) s)))

theorem answers_of_streams {f : State → Flow} {s : State} (h : Streams f s) (hs : Sent [] s) :
    ∃ bs e, ∀ k, Answers bs e s k (f (withCap k s)).outcome := by
  obtain ⟨bs, e, h⟩ := h
  have hcursor : ∀ k, (withCap k s).work.cursor.toNat = 0 := fun _ => hs.cursor
  refine ⟨bs, e, fun k => ⟨fun hfits => ?_, fun hmany => ?_⟩⟩ <;> rw [outcome_eq_of_observed (h k)]
  · rw [outBytes_fits (by rw [hcursor, Nat.zero_add]; exact hfits), bind_run, writeAll_withCap]
  · rw [outBytes_overflows (by rw [hcursor]; exact Nat.zero_le _) (by rw [hcursor, Nat.zero_add]; exact hmany), bind_overflow,
      outcome_overflow, writeAll_withCap, hcursor]
    rfl

/-- A body that ends answers OK. -/
theorem complete_of_ending {e : Ending} {s t : State} (h : (e.flow s).outcome = .next t) :
    ∃ c w, e = .sets c w ∧ t = complete (setRegisters c w s) := by
  cases e with
  | sets c w => exact ⟨c, w, rfl, (Host.Outcome.next.inj h).symm⟩
  | stops e => cases h
  | refuses r => cases h

section
variable {bs : List Byte} {e : Ending} {s t : State} {j n : Word} {x : Host.Outcome State Fault Refusal}

/-- A body that has answered OutputOverflow had more bytes to send than the window holds. -/
theorem Answers.of_overflow (h : Answers bs e s j x) (hx : x = .next t) (h7 : t.response = some ⟨7#4, n⟩) :
    j.toNat < bs.length ∧ t = takeOverflow (withCap j (writeAll (bs.take j.toNat) s)) := by
  by_cases hfits : bs.length ≤ j.toNat
  · obtain ⟨c, w, -, rfl⟩ := complete_of_ending ((h.fits hfits).symm.trans hx)
    cases h7
  · have hmany := Nat.not_le.1 hfits
    exact ⟨hmany, Host.Outcome.next.inj (hx.symm.trans (h.overflows hmany))⟩

/-- A body that has answered OK had room for its bytes, and has written registers after them. -/
theorem Answers.of_ok (h : Answers bs e s j x) (hx : x = .next t) (h0 : t.response = some ⟨0#4, n⟩) :
    bs.length ≤ j.toNat ∧ ∃ c w, e = .sets c w ∧ t = complete (setRegisters c w (withCap j (writeAll bs s))) := by
  by_cases hfits : bs.length ≤ j.toNat
  · exact ⟨hfits, complete_of_ending ((h.fits hfits).symm.trans hx)⟩
  · obtain rfl := Host.Outcome.next.inj (hx.symm.trans (h.overflows (Nat.not_le.1 hfits)))
    cases h0
end

/-- From a fresh window, bytes that the window has room for are all of OUT. -/
theorem sent_writeAll {bs : List Byte} {s : State} {j : Word} (hs : Sent [] s) (hfits : bs.length ≤ j.toNat) :
    Sent bs (writeAll bs s) :=
  hs.writeAll (by rw [List.length_nil, Nat.zero_add]; exact hfits.trans_lt j.isLt)

theorem writeAll_emits (bs : List Byte) (s : State) : Emits s (writeAll bs s) := by
  induction bs generalizing s with
  | nil => exact Emits.refl s
  | cons b rest ih => exact (emits_writeOut s b).trans (ih (s.writeOut b))

/-- An overflow has filled the window, and leaves the operands and the host as they were. -/
theorem window_of_overflow {f : State → Flow} {s t : State} {j n : Word} (h : Streams f s) (hs : Sent [] s)
    (ht : (f (withCap j s)).outcome = .next t) (h7 : t.response = some ⟨7#4, n⟩) :
    t.faulted = true ∧ t.faultCause = 7#4 ∧ t.operands = (withCap j s).operands ∧ t.host = s.host ∧
      ∃ bs, t.out = windowOf bs ∧ bs.length = j.toNat := by
  obtain ⟨bs, e, hanswers⟩ := answers_of_streams h hs
  obtain ⟨hmany, rfl⟩ := (hanswers j).of_overflow ht h7
  have hlen : (bs.take j.toNat).length = j.toNat := List.length_take_of_le hmany.le
  have hemit := writeAll_emits (bs.take j.toNat) s
  exact ⟨rfl, rfl, congrArg (fun o => { o with ocap := j }) hemit.operands, hemit.host, _, (sent_writeAll hs hlen.le).out,
    hlen⟩

/-- What a body answers at the capacity `j` with OK it answers at every capacity with room for its bytes; a smaller capacity
cuts them off. -/
theorem capacity_of_streams {f : State → Flow} {s t : State} {j n : Word} (k : Word) (h : Streams f s) (hs : Sent [] s)
    (ht : (f (withCap j s)).outcome = .next t) (h0 : t.response = some ⟨0#4, n⟩) :
    (n.toNat ≤ k.toNat → (f (withCap k s)).outcome = .next (t.withOcap k)) ∧
      (k.toNat < n.toNat → ∃ u m, (f (withCap k s)).outcome = .next u ∧ u.response = some ⟨7#4, m⟩ ∧ u.faulted = true ∧
        u.faultCause = 7#4 ∧ u.out = t.out.take k.toNat) := by
  obtain ⟨bs, e, hanswers⟩ := answers_of_streams h hs
  obtain ⟨hfits, c, w, rfl, rfl⟩ := (hanswers j).of_ok ht h0
  obtain ⟨hout, hcursor⟩ := sent_writeAll hs hfits
  have hn : n.toNat = bs.length := by
    obtain rfl : (writeAll bs s).work.cursor = n := congrArg Response.bytesWritten (Option.some.inj h0)
    exact hcursor
  rw [hn]
  refine ⟨(hanswers k).fits, fun hmany => ⟨_, _, (hanswers k).overflows hmany, rfl, rfl, rfl, ?_⟩⟩
  have hcut := sent_writeAll hs (List.length_take_of_le hmany.le).le
  exact hcut.out.trans ((windowOf_take bs k.toNat).symm.trans (congrArg (List.take k.toNat) hout.symm))

/-! ### The commands -/

/-- A command past its pre-checks runs as the operation `f` from `s₀`, a state with a fresh window, at every capacity at which
the host keeps its duties. -/
structure RunsBody (i : Instr) (s : State) (f : State → Flow) (s₀ : State) : Prop where
  streams : Streams f s₀
  fresh : Sent [] s₀
  operands : s₀.operands = s.operands
  host : s₀.host = s.host
  runs : ∀ k, (∀ more, i = .encode more → breached (s.withOcap k).operands = false) →
    exec i (s.withOcap k) = (f (withCap k s₀)).outcome

theorem sent_nil {s : State} (hout : s.out = []) (hcursor : s.work.cursor = 0#32) : Sent [] s :=
  ⟨hout, by rw [hcursor]; rfl⟩

/-- The pre-checks of ENCODE: a fault, or a phase that accepts it and a length that can be counted (60_exceptions.md R137). -/
theorem execEncode_prechecks (more : Bool) {s : State} (hf : s.faulted = false) :
    (∃ cause, cause ≠ .outputOverflow ∧ execEncode more s = .next (takeFault cause s)) ∨
      ((s.ctx.phase = .init ∨ s.ctx.phase = .eob ∨ s.ctx.phase = .fixed) ∧
        s.ctx.inputLen.toNat + s.operands.ilen.toNat < 2 ^ 64) := by
  unfold execEncode
  rw [if_neg (by simp [hf])]
  split
  · exact .inl ⟨_, by decide, rfl⟩
  split
  · exact .inl ⟨_, by decide, rfl⟩
  split
  · exact .inl ⟨_, by decide, rfl⟩
  · rename_i huninit hclosed hlong
    exact .inr ⟨accepting_phase huninit hclosed, Nat.not_le.1 hlong⟩

theorem runsBody_encode {more : Bool} {s : State} (hf : s.faulted = false)
    (hp : s.ctx.phase = .init ∨ s.ctx.phase = .eob ∨ s.ctx.phase = .fixed)
    (hlen : s.ctx.inputLen.toNat + s.operands.ilen.toNat < 2 ^ 64) :
    RunsBody (.encode more) s (encodeFrom (chunkOf s.operands)) (beginEncode more s) where
  streams := encodeFrom_streams _ _
  fresh := sent_nil rfl rfl
  operands := rfl
  host := rfl
  runs := fun k hkept => execEncode_of_accepted (s := s.withOcap k) hf hp hlen (hkept more rfl)

theorem runsBody_finish {s : State} (hf : s.faulted = false) (hu : s.ctx.phase ≠ .uninit) (he : s.ctx.phase ≠ .ended) :
    RunsBody .finish s finishFrom (beginFinish s) where
  streams := finishFrom_streams _
  fresh := sent_nil rfl rfl
  operands := rfl
  host := rfl
  runs := fun k _ => execFinish_of_accepted (s := s.withOcap k) hf hu he

/-- What a command of a core that is not faulted can do: fault in a pre-check, open a stream, do what R51 leaves unspecified,
or run its body. -/
theorem exec_cases (i : Instr) {s : State} (hf : s.faulted = false) :
    (∃ cause, cause ≠ .outputOverflow ∧ exec i s = .next (takeFault cause s)) ∨
      (∃ c, ∀ k, exec i (s.withOcap k) = .next (completeInit { s.withOcap k with ctx := c })) ∨
      (∃ more, i = .encode more ∧ breached s.operands = true ∧ exec i s = .next (breachedEncode s)) ∨
      ((∀ more, i = .encode more → breached s.operands = false) ∧ ∃ f s₀, RunsBody i s f s₀) := by
  cases i with
  | init level format =>
    rcases execInit_cases level format s with ⟨hf', -⟩ | ⟨-, -, hx⟩ | ⟨-, -, -, hx⟩ | ⟨-, hl, f, hfmt, -⟩
    · exact absurd (hf.symm.trans hf') (by decide)
    · exact .inl ⟨_, by decide, hx⟩
    · exact .inl ⟨_, by decide, hx⟩
    · exact .inr (.inl ⟨_, fun k => execInit_of_legal (s := s.withOcap k) hf hl hfmt⟩)
  | encode more =>
    rcases execEncode_prechecks more hf with hfault | ⟨hp, hlen⟩
    · exact .inl hfault
    · cases hb : breached s.operands with
      | false => exact .inr (.inr (.inr ⟨fun _ _ => rfl, _, _, runsBody_encode hf hp hlen⟩))
      | true => exact .inr (.inr (.inl ⟨more, rfl, rfl, execEncode_of_breached hf hp hlen hb⟩))
  | finish =>
    by_cases hu : s.ctx.phase = .uninit
    · exact .inl ⟨.notInitialized, by decide, by simp [exec, execFinish, hf, hu]⟩
    by_cases he : s.ctx.phase = .ended
    · exact .inl ⟨.finishAfterEnd, by decide, by simp [exec, execFinish, hf, he]⟩
    · exact .inr (.inr (.inr ⟨fun _ h => Instr.noConfusion h, _, _, runsBody_finish hf hu he⟩))

/-- A pre-check that faults answers its cause, which is neither OK nor OutputOverflow (60_exceptions.md R135). -/
theorem status_of_precheck {cause : Cause} {s : State} {status : BitVec 4} {n : Word} (hc : cause ≠ .outputOverflow)
    (h : (takeFault cause s).response = some ⟨status, n⟩) : status ≠ 0#4 ∧ status ≠ 7#4 := by
  obtain rfl : cause.code = status := congrArg Response.status (Option.some.inj h)
  revert hc
  cases cause <;> decide

/-- Settles O23: a body has filled its window when it overflows, and a breached ENCODE gives OUT that many free bytes. -/
theorem overflowFillsWindow : Obligations.OverflowFillsWindow := by
  intro i s t n hf ht h7
  rcases exec_cases i hf with ⟨cause, hc, hx⟩ | ⟨c, hx⟩ | ⟨more, -, -, hx⟩ | ⟨hkept, f, s₀, hbody⟩
  · obtain rfl := Host.Outcome.next.inj (hx.symm.trans ht)
    exact absurd rfl (status_of_precheck hc h7).2
  · obtain rfl := Host.Outcome.next.inj ((hx s.operands.ocap).symm.trans ht)
    cases h7
  · obtain rfl := Host.Outcome.next.inj (hx.symm.trans ht)
    rcases breachedEncode_cases s with hy | hy <;> rw [hy] at h7 ⊢
    · exact ⟨rfl, rfl, rfl, rfl, _, freeWindow_eq _ _, length_freeBytes _ _⟩
    · cases h7
  · have hrun := (hbody.runs s.operands.ocap hkept).symm.trans ht
    obtain ⟨hfaulted, hcause, hoperands, hhost, hwindow⟩ := window_of_overflow hbody.streams hbody.fresh hrun h7
    refine ⟨hfaulted, hcause, ?_, hhost.trans hbody.host, hwindow⟩
    exact hoperands.trans (congrArg (fun o => { o with ocap := s.operands.ocap }) hbody.operands)

/-- Settles O24: INIT reads no capacity, and a body sends the same bytes and writes the same registers at every one. -/
theorem capacityDecidesOverflowOnly : Obligations.CapacityDecidesOverflowOnly := by
  intro i s t n k hf hduty ht h0
  rcases exec_cases i hf with ⟨cause, hc, hx⟩ | ⟨c, hx⟩ | ⟨more, hi, hb, -⟩ | ⟨hkept, f, s₀, hbody⟩
  · obtain rfl := Host.Outcome.next.inj (hx.symm.trans ht)
    exact absurd rfl (status_of_precheck hc h0).1
  · obtain rfl := Host.Outcome.next.inj ((hx s.operands.ocap).symm.trans ht)
    obtain rfl : 0#32 = n := congrArg Response.bytesWritten (Option.some.inj h0)
    exact ⟨fun _ => hx k, fun hk => absurd hk (Nat.not_lt_zero _)⟩
  · exact absurd (hb.symm.trans (hduty more hi).1) (by decide)
  · rw [hbody.runs k fun more hi => (hduty more hi).2]
    exact capacity_of_streams k hbody.streams hbody.fresh ((hbody.runs s.operands.ocap hkept).symm.trans ht) h0

end Sys2Proof.Machine.QueueProofs

end


/-! PROOFS. The checksum engines (42_checksums.md): the folded CRC byte, the Adler-32 byte, the deferred-modulus Adler
datapath, and the composition of an engine over chunks. -/
section

namespace Sys2Proof.Machine.ChecksumProofs

open Sys2Proof.Machine.StateProofs

/-! ### CRC-32 on the held register (R75, R76) -/

/-- The register's inversion reaches the table index as `0xFF`. -/
theorem setWidth_not_xor (r : Word) (b : Byte) :
    (r ^^^ 0xFFFFFFFF#32).setWidth 8 ^^^ b = (r.setWidth 8 ^^^ b) ^^^ 0xFF#8 := by
  rw [BitVec.setWidth_xor, BitVec.xor_assoc, BitVec.xor_comm _ b, ← BitVec.xor_assoc]
  rfl

/-- The two inversions cancel on the three bytes that stay in the register and leave `0xFF` at its top. -/
theorem not_ushiftRight_xor_not (r : Word) :
    ((r ^^^ 0xFFFFFFFF#32) >>> 8) ^^^ 0xFFFFFFFF#32 = 0xFF000000#32 ^^^ (r >>> 8) := by
  rw [BitVec.ushiftRight_xor_distrib, BitVec.xor_assoc, BitVec.xor_comm]
  rfl

theorem crcByte_eq_folded (r : Word) (b : Byte) : crcByte r b = crcByteFolded r b := by
  rw [crcByte, crcByteFolded, crcTableFolded, setWidth_not_xor, BitVec.xor_assoc, not_ushiftRight_xor_not,
    ← BitVec.xor_assoc]

/-- Settles O30: the inversions of R75 move into the table. -/
theorem foldedCrcTableAgrees : Obligations.FoldedCrcTableAgrees := by
  intro r b
  have hindex : (r ^^^ b.setWidth 32).setWidth 8 = r.setWidth 8 ^^^ b := by
    rw [BitVec.setWidth_xor, BitVec.setWidth_setWidth_of_le _ (by decide), BitVec.setWidth_eq]
  rw [hindex]
  exact crcByte_eq_folded r b

/-! ### ADLER_BYTE (R80) -/

theorem adlerLow_adlerPack {a b : Nat} (ha : a < 65536) (hb : b < 65536) : adlerLow (adlerPack a b) = a := by
  rw [adlerLow_eq, adlerPack_toNat ha hb]
  omega

theorem adlerHigh_adlerPack {a b : Nat} (ha : a < 65536) (hb : b < 65536) : adlerHigh (adlerPack a b) = b := by
  rw [adlerHigh_eq, adlerPack_toNat ha hb]
  omega

theorem mod_adlerMod_lt (x : Nat) : x % adlerMod < 65536 := (Nat.mod_lt x (by decide)).trans (by decide)

/-- Settles O31: the low half, the high half with the new low half, and R80's bound on both. -/
theorem adlerByteAddsModulo : Obligations.AdlerByteAddsModulo :=
  ⟨by decide, fun r b =>
    ⟨adlerLow_adlerPack (mod_adlerMod_lt _) (mod_adlerMod_lt _),
      adlerHigh_adlerPack (mod_adlerMod_lt _) (mod_adlerMod_lt _), adlerByte_reduced r b⟩⟩

/-! ### The deferred modulus (R82, R83) -/

/-- A byte on an accumulator that holds residues gives the residues of the exact sums. -/
theorem adlerByte_adlerPack_mod (a b : Nat) (x : Byte) :
    adlerByte (adlerPack (a % adlerMod) (b % adlerMod)) x =
      adlerPack ((a + x.toNat) % adlerMod) ((b + (a + x.toNat)) % adlerMod) := by
  rw [adlerByte, adlerLow_adlerPack (mod_adlerMod_lt a) (mod_adlerMod_lt b),
    adlerHigh_adlerPack (mod_adlerMod_lt a) (mod_adlerMod_lt b), Nat.mod_add_mod, ← Nat.add_mod]

/-- The byte-serial update holds the residues of the exact sums throughout. -/
theorem adlerUpdate_adlerPack_mod (a b : Nat) (bs : List Byte) :
    adlerUpdate (adlerPack (a % adlerMod) (b % adlerMod)) bs =
      adlerPack ((adlerSums a b bs).1 % adlerMod) ((adlerSums a b bs).2 % adlerMod) := by
  induction bs generalizing a b with
  | nil => rfl
  | cons x rest ih =>
    rw [adlerUpdate, List.foldl_cons, adlerByte_adlerPack_mod]
    exact ih _ _

theorem adlerUpdate_eq_sums_mod {r : Word} (h : AdlerReduced r) (bs : List Byte) :
    adlerUpdate r bs =
      adlerPack ((adlerSums (adlerLow r) (adlerHigh r) bs).1 % adlerMod)
        ((adlerSums (adlerLow r) (adlerHigh r) bs).2 % adlerMod) := by
  obtain ⟨hlow, hhigh⟩ := h
  have hlow_mod : adlerLow r % adlerMod = adlerLow r := Nat.mod_eq_of_lt hlow
  have hhigh_mod : adlerHigh r % adlerMod = adlerHigh r := Nat.mod_eq_of_lt hhigh
  rw [← adlerUpdate_adlerPack_mod, hlow_mod, hhigh_mod, adlerPack_low_high]

/-- What a block can raise the two exact sums to, reached by bytes that are all 255. -/
theorem adlerSums_le (a b : Nat) (bs : List Byte) :
    (adlerSums a b bs).1 ≤ a + 255 * bs.length ∧
      2 * (adlerSums a b bs).2 ≤ 2 * b + bs.length * (2 * a + 255 * (bs.length + 1)) := by
  induction bs generalizing a b with
  | nil => simp [adlerSums]
  | cons x rest ih =>
    obtain ⟨hlow, hhigh⟩ := ih (a + x.toNat) (b + (a + x.toNat))
    have hx := x.isLt
    rw [adlerSums, List.length_cons]
    refine ⟨by omega, ?_⟩
    have hmul : rest.length * (2 * (a + x.toNat) + 255 * (rest.length + 1)) ≤
        rest.length * (2 * a + 255 * (rest.length + 1 + 1) + 255) := Nat.mul_le_mul_left _ (by omega)
    rw [Nat.mul_add _ _ 255] at hmul
    rw [Nat.add_one_mul rest.length]
    omega

/-- R82's bounds on the exact sums of one block. -/
theorem adlerSums_block_lt {a b : Nat} {bs : List Byte} (ha : a < 65521) (hb : b < 65521) (hlen : bs.length ≤ 4096) :
    (adlerSums a b bs).1 < 1110001 ∧ (adlerSums a b bs).2 < 2 ^ 32 := by
  obtain ⟨hlow, hhigh⟩ := adlerSums_le a b bs
  have hmul : bs.length * (2 * a + 255 * (bs.length + 1)) ≤ 4096 * (2 * 65520 + 255 * 4097) :=
    Nat.mul_le_mul hlen (by omega)
  omega

/-- R82's congruence: 65536 is 15 modulo 65521, so a correction round keeps the residue. -/
theorem adlerRound_mod (x : Nat) : adlerRound x % adlerMod = x % adlerMod := by
  rw [adlerRound, adlerMod]
  omega

/-- Below twice the modulus R83's one subtraction gives the residue. -/
theorem adlerFinal_eq_mod {x : Nat} (h : x < 2 * adlerMod) : adlerFinal x = x % adlerMod := by
  unfold adlerFinal
  split
  · next hge => rw [Nat.mod_eq_sub_mod hge, Nat.mod_eq_of_lt (by omega)]
  · next hlt => exact (Nat.mod_eq_of_lt (Nat.lt_of_not_le hlt)).symm

/-- One round is enough for a sum below R82's bound on `s1`. -/
theorem adlerRound_lt {x : Nat} (h : x < 1110001) : adlerRound x < 2 * adlerMod := by
  rw [adlerRound, adlerMod]
  omega

/-- Two rounds are enough for a sum of 32 bits. -/
theorem adlerRound_adlerRound_lt {x : Nat} (h : x < 2 ^ 32) : adlerRound (adlerRound x) < 2 * adlerMod :=
  adlerRound_lt (by rw [adlerRound]; omega)

/-- Settles O32: the block's exact sums stay small enough for R82's rounds and R83's subtraction to give their residues,
which are what the byte-serial update holds. -/
theorem deferredAdlerAgrees : Obligations.DeferredAdlerAgrees := by
  intro r bs hlow hhigh hlen
  obtain ⟨hlow_round, hhigh_rounds⟩ := adlerSums_block_lt hlow hhigh hlen
  rw [adlerUpdate_eq_sums_mod ⟨hlow, hhigh⟩, adlerBlockUpdate, adlerFinal_eq_mod (adlerRound_lt hlow_round),
    adlerFinal_eq_mod (adlerRound_adlerRound_lt hhigh_rounds), adlerRound_mod, adlerRound_mod, adlerRound_mod]

/-! ### Chunks (R79, R81, R84) -/

/-- Settles O33: both engines are byte-serial folds, and DEFLATE runs none. -/
theorem checksumComposesOverChunks : Obligations.ChecksumComposesOverChunks := by
  intro f r as bs
  cases f with
  | gzip => exact List.foldl_append.symm
  | zlib => exact List.foldl_append.symm
  | deflate => rfl

end Sys2Proof.Machine.ChecksumProofs

end


/-! PROOFS. The fixed Huffman code tells what it codes: no literal/length code begins another (43_fixed_huffman.md R85, R86),
a field tells its code and its extra bits, and the tables tell the length and the distance (R88 to R91). -/
section

namespace Sys2Proof.Machine.HuffmanProofs

open Sys2Proof.Machine.MemoryProofs

/-! ### The literal/length code (R86) -/

/-- The four ranges of symbols, each with its codes. -/
theorem symbolCode_cases (v : Nat) :
    (v ≤ 143 ∧ symbolCode v = (0x30 + v, 8)) ∨
    (144 ≤ v ∧ v ≤ 255 ∧ symbolCode v = (0x190 + (v - 144), 9)) ∨
    (256 ≤ v ∧ v ≤ 279 ∧ symbolCode v = (v - 256, 7)) ∨
    (280 ≤ v ∧ symbolCode v = (0xC0 + (v - 280), 8)) := by
  unfold symbolCode
  split_ifs with h143 h255 h279
  · exact .inl ⟨h143, rfl⟩
  · exact .inr (.inl ⟨Nat.lt_of_not_le h143, h255, rfl⟩)
  · exact .inr (.inr (.inl ⟨Nat.lt_of_not_le h255, h279, rfl⟩))
  · exact .inr (.inr (.inr ⟨Nat.lt_of_not_le h279, rfl⟩))

/-- The code has room for its symbol, and has at least the seven bits that `lengthOfLead` reads. -/
theorem symbolCode_fits {v : Nat} (hv : v < 288) :
    (symbolCode v).1 < 2 ^ (symbolCode v).2 ∧ 7 ≤ (symbolCode v).2 := by
  obtain ⟨_, h⟩ | ⟨_, _, h⟩ | ⟨_, _, h⟩ | ⟨_, h⟩ := symbolCode_cases v <;> rw [h] <;> dsimp only <;> omega

/-- The number of bits of a literal/length code, told by its first seven bits. -/
def lengthOfLead (lead : Nat) : Nat :=
  if lead < 24 then 7 else if lead < 100 then 8 else 9

theorem lengthOfLead_symbolCode {v : Nat} (hv : v < 288) :
    lengthOfLead ((symbolCode v).1 / 2 ^ ((symbolCode v).2 - 7)) = (symbolCode v).2 := by
  obtain ⟨_, h⟩ | ⟨_, _, h⟩ | ⟨_, _, h⟩ | ⟨_, h⟩ := symbolCode_cases v <;> rw [h, lengthOfLead] <;> dsimp only <;>
    split_ifs <;> omega

theorem symbolCode_injective : Function.Injective symbolCode := by
  intro u v h
  unfold symbolCode at h
  split_ifs at h <;> rw [Prod.mk.injEq] at h <;> omega

/-- A code that begins another is that other one: the first seven bits are common, so the lengths agree, and codes of one
length differ. -/
theorem symbol_eq_of_code_prefix {u v : Nat} (hu : u < 288) (hv : v < 288) (hle : (symbolCode u).2 ≤ (symbolCode v).2)
    (h : (symbolCode v).1 / 2 ^ ((symbolCode v).2 - (symbolCode u).2) = (symbolCode u).1) : u = v := by
  have hlead : (symbolCode u).1 / 2 ^ ((symbolCode u).2 - 7) = (symbolCode v).1 / 2 ^ ((symbolCode v).2 - 7) := by
    rw [← h, Nat.div_div_eq_div_mul, ← Nat.pow_add, Nat.sub_add_sub_cancel hle (symbolCode_fits hu).2]
  have hlen : (symbolCode u).2 = (symbolCode v).2 := by
    rw [← lengthOfLead_symbolCode hu, hlead, lengthOfLead_symbolCode hv]
  rw [hlen, Nat.sub_self, Nat.pow_zero, Nat.div_one] at h
  exact symbolCode_injective (Prod.ext h.symm hlen)

/-- Settles O35, by the length that the first seven bits tell. -/
theorem literalLengthCodesArePrefixFree : Obligations.LiteralLengthCodesArePrefixFree :=
  fun _ _ hu hv hne hle h => hne (symbol_eq_of_code_prefix hu hv hle h)

/-! ### A field tells its code and its extra bits (R85) -/

theorem revBits_injOn {n c d : Nat} (hc : c < 2 ^ n) (hd : d < 2 ^ n) (h : revBits n c = revBits n d) : c = d := by
  induction n generalizing c d with
  | zero => omega
  | succ n ih =>
    have hc' := revBits_lt n (c / 2)
    have hd' := revBits_lt n (d / 2)
    rw [revBits, revBits] at h
    have hbit : c % 2 = d % 2 := by
      obtain hc2 | hc2 := Nat.mod_two_eq_zero_or_one c <;> obtain hd2 | hd2 := Nat.mod_two_eq_zero_or_one d <;>
        rw [hc2, hd2] at h <;> omega
    have hrest : c / 2 = d / 2 := ih (by omega) (by omega) (by rw [hbit] at h; exact Nat.add_left_cancel h)
    omega

/-- The first bits of a code, most significant first, are the low bits of its reversal. -/
theorem revBits_mod_two_pow (n k c : Nat) : revBits (n + k) c % 2 ^ n = revBits n (c / 2 ^ k) := by
  induction k generalizing c with
  | zero => rw [Nat.pow_zero, Nat.div_one, Nat.add_zero, Nat.mod_eq_of_lt (revBits_lt n c)]
  | succ k ih =>
    rw [← Nat.add_assoc, revBits, Nat.pow_add, ← Nat.mul_assoc, Nat.mul_right_comm, Nat.mul_add_mod_self_right, ih,
      Nat.div_div_eq_div_mul, Nat.pow_succ']

/-- What the tables keep of a code of n bits and its extra bits. -/
structure CodeFits (c n extra ebits : Nat) : Prop where
  code : c < 2 ^ n
  extra : extra < 2 ^ ebits
  width : n + ebits ≤ 32

theorem codeField_value {c n extra ebits : Nat} (h : CodeFits c n extra ebits) :
    (codeField c n extra ebits).value.toNat = 2 ^ n * extra + revBits n c := by
  have hlow := revBits_lt n c
  have hor : revBits n c ||| extra <<< n = 2 ^ n * extra + revBits n c := by
    rw [Nat.or_comm, ← Nat.shiftLeft_add_eq_or_of_lt hlow, Nat.shiftLeft_eq, Nat.mul_comm]
  have hlt : 2 ^ n * extra + revBits n c < 2 ^ 32 :=
    calc 2 ^ n * extra + revBits n c < 2 ^ n * (extra + 1) := by rw [Nat.mul_succ]; omega
      _ ≤ 2 ^ n * 2 ^ ebits := Nat.mul_le_mul_left _ h.extra
      _ = 2 ^ (n + ebits) := (Nat.pow_add ..).symm
      _ ≤ 2 ^ 32 := Nat.pow_le_pow_right (by decide) h.width
  rw [codeField, BitVec.toNat_ofNat, hor, Nat.mod_eq_of_lt hlt]

/-- Of two codes with one field, the shorter is the beginning of the longer. -/
theorem code_prefix_of_codeField_eq {c n extra ebits c' n' extra' ebits' : Nat} (h : CodeFits c n extra ebits)
    (h' : CodeFits c' n' extra' ebits') (hle : n ≤ n') (heq : codeField c n extra ebits = codeField c' n' extra' ebits') :
    c' / 2 ^ (n' - n) = c := by
  obtain ⟨k, rfl⟩ := Nat.exists_eq_add_of_le hle
  have hvalue := congrArg (fun f => f.value.toNat % 2 ^ n) heq
  simp only [codeField_value h, codeField_value h', Nat.pow_add, Nat.mul_assoc, Nat.mul_add_mod_self_left,
    revBits_mod_two_pow, Nat.mod_eq_of_lt (revBits_lt n c)] at hvalue
  rw [Nat.add_sub_cancel_left]
  exact (revBits_injOn h.code (Nat.div_lt_of_lt_mul (by rw [← Nat.pow_add, Nat.add_comm]; exact h'.code)) hvalue).symm

/-- Two fields of one code that are equal have equal extra bits. -/
theorem extra_eq_of_codeField_eq {c n extra ebits extra' ebits' : Nat} (h : CodeFits c n extra ebits)
    (h' : CodeFits c n extra' ebits') (heq : codeField c n extra ebits = codeField c n extra' ebits') :
    extra = extra' := by
  have hvalue := congrArg (fun f => f.value.toNat) heq
  simp only [codeField_value h, codeField_value h'] at hvalue
  exact Nat.eq_of_mul_eq_mul_left (Nat.two_pow_pos n) (Nat.add_right_cancel hvalue)

/-! ### The tables of lengths and distances (R88, R90) -/

theorem rowFor_eq_some {rows : List CodeRow} {x : Nat} {r : CodeRow} (h : rowFor rows x = some r) :
    r ∈ rows ∧ r.base ≤ x ∧ x ≤ r.last :=
  ⟨List.mem_of_find?_eq_some h, by simpa using List.find?_some h⟩

/-- The field a table of rows gives a value, in a code of its symbols. -/
def tableField (code : Nat → Nat × Nat) (rows : List CodeRow) (x : Nat) : Option Field :=
  (rowFor rows x).map fun r => codeField (code r.symbol).1 (code r.symbol).2 (x - r.base) r.ebits

theorem lenField_eq_tableField (len : Nat) : lenField len = tableField symbolCode lengthRows len := rfl

theorem distField_eq_tableField (dist : Nat) : distField dist = tableField (fun d => (d, 5)) distanceRows dist := rfl

theorem tableField_isSome {code : Nat → Nat × Nat} {rows : List CodeRow} {x : Nat} :
    (tableField code rows x).isSome ↔ ∃ r ∈ rows, r.base ≤ x ∧ x ≤ r.last := by
  simp [tableField, rowFor]

/-- A table whose rows fit their fields and of whose codes none begins another. -/
structure PrefixFreeTable (code : Nat → Nat × Nat) (rows : List CodeRow) : Prop where
  fits : ∀ r ∈ rows, ∀ x ≤ r.last, CodeFits (code r.symbol).1 (code r.symbol).2 (x - r.base) r.ebits
  prefixFree : ∀ r ∈ rows, ∀ q ∈ rows, (code r.symbol).2 ≤ (code q.symbol).2 →
    (code q.symbol).1 / 2 ^ ((code q.symbol).2 - (code r.symbol).2) = (code r.symbol).1 → r = q

/-- A field of such a table tells its value: the code tells the row, and the extra bits tell the place in it. -/
theorem PrefixFreeTable.tableField_inj {code : Nat → Nat × Nat} {rows : List CodeRow} (h : PrefixFreeTable code rows)
    {a b : Nat} {f : Field} (ha : tableField code rows a = some f) (hb : tableField code rows b = some f) : a = b := by
  obtain ⟨r, hrow_a, hfield_a⟩ := Option.map_eq_some_iff.1 ha
  obtain ⟨q, hrow_b, hfield_b⟩ := Option.map_eq_some_iff.1 hb
  obtain ⟨hr, hbase_a, hlast_a⟩ := rowFor_eq_some hrow_a
  obtain ⟨hq, hbase_b, hlast_b⟩ := rowFor_eq_some hrow_b
  have hfit_a := h.fits r hr a hlast_a
  have hfit_b := h.fits q hq b hlast_b
  have heq := hfield_a.trans hfield_b.symm
  have hsame : r = q := by
    obtain hle | hle := Nat.le_total (code r.symbol).2 (code q.symbol).2
    · exact h.prefixFree r hr q hq hle (code_prefix_of_codeField_eq hfit_a hfit_b hle heq)
    · exact (h.prefixFree q hq r hr hle (code_prefix_of_codeField_eq hfit_b hfit_a hle heq.symm)).symm
  subst hsame
  exact (tsub_left_inj hbase_a hbase_b).1 (extra_eq_of_codeField_eq hfit_a hfit_b heq)

theorem lengthRows_symbols : ∀ r ∈ lengthRows, r.symbol < 288 := by decide

theorem lengthRows_symbol_injOn : ∀ r ∈ lengthRows, ∀ q ∈ lengthRows, r.symbol = q.symbol → r = q := by decide

theorem distanceRows_symbols : ∀ r ∈ distanceRows, r.symbol < 2 ^ 5 := by decide

theorem distanceRows_symbol_injOn : ∀ r ∈ distanceRows, ∀ q ∈ distanceRows, r.symbol = q.symbol → r = q := by decide

/-- The length table inherits this from the literal/length code (R86). -/
theorem lengthRows_prefixFree : PrefixFreeTable symbolCode lengthRows where
  fits r hr x hx := by
    obtain ⟨hextra, -, hwidth⟩ := lengthRows_widths r hr
    exact ⟨(symbolCode_fits (lengthRows_symbols r hr)).1, by omega, by omega⟩
  prefixFree r hr q hq hle h := lengthRows_symbol_injOn r hr q hq
    (symbol_eq_of_code_prefix (lengthRows_symbols r hr) (lengthRows_symbols q hq) hle h)

/-- The distance codes all have 5 bits, so one begins another only when they are equal. -/
theorem distanceRows_prefixFree : PrefixFreeTable (fun d => (d, 5)) distanceRows where
  fits r hr x hx := by
    obtain ⟨hextra, hebits⟩ := distanceRows_widths r hr
    exact ⟨distanceRows_symbols r hr, by omega, Nat.le_trans (Nat.add_le_add_left hebits 5) (by decide)⟩
  prefixFree r hr q hq _ h := distanceRows_symbol_injOn r hr q hq (h.symm.trans (Nat.div_one q.symbol))

theorem lengthRows_range : ∀ r ∈ lengthRows, 3 ≤ r.base ∧ r.last ≤ 258 := by decide

theorem distanceRows_range : ∀ r ∈ distanceRows, 1 ≤ r.base ∧ r.last ≤ 32768 := by decide

theorem lenField_isSome (len : Nat) : (lenField len).isSome ↔ 3 ≤ len ∧ len ≤ 258 := by
  rw [lenField_eq_tableField, tableField_isSome]
  constructor
  · rintro ⟨r, hr, hbase, hlast⟩
    obtain ⟨hmin, hmax⟩ := lengthRows_range r hr
    exact ⟨hmin.trans hbase, hlast.trans hmax⟩
  · rintro ⟨hmin, hmax⟩
    obtain ⟨r, hr, -, hin⟩ := lengthRow_of_le hmin hmax
    exact ⟨r, hr, hin⟩

theorem distField_isSome (dist : Nat) : (distField dist).isSome ↔ 1 ≤ dist ∧ dist ≤ 32768 := by
  rw [distField_eq_tableField, tableField_isSome]
  constructor
  · rintro ⟨r, hr, hbase, hlast⟩
    obtain ⟨hmin, hmax⟩ := distanceRows_range r hr
    exact ⟨hmin.trans hbase, hlast.trans hmax⟩
  · rintro ⟨hmin, hmax⟩
    obtain ⟨r, hr, -, hin⟩ := distanceRow_of_le hmin hmax
    exact ⟨r, hr, hin⟩

/-- Settles O36: in both tables no code begins another, and their rows cover the two ranges. -/
theorem matchFieldsAreDistinct : Obligations.MatchFieldsAreDistinct :=
  ⟨fun _ _ _ => lengthRows_prefixFree.tableField_inj, fun _ _ _ => distanceRows_prefixFree.tableField_inj,
    lenField_isSome, distField_isSome⟩

end Sys2Proof.Machine.HuffmanProofs

end


/-! PROOFS. The rules of the match finder that speak of one operation (44_match_finder.md): HASH (R96), CANDIDATE and its window
boundary (R98, R110), EXTEND (R100), and the chunk too short for a probe (R107). -/
section

namespace Sys2Proof.Machine.MatchFinderProofs

open Sys2Proof.Machine.Laws Sys2Proof.Machine.StateProofs Sys2Proof.Machine.QueueProofs

/-! ### HASH (R96) -/

/-- The hash takes the top 13 bits of a product mod 2^32: the shifts and the difference multiply by 2^19 + 2^6 - 1. -/
theorem hashWord_toNat (w : Word) : (hashWord w).toNat = ((w.toNat * 0x8003F) % 2 ^ 32) / 2 ^ 19 := by
  have hmul : w <<< 19 + w <<< 6 - w = w * 0x8003F#32 := by bv_omega
  have hfit : ((w.toNat * 0x8003F) % 2 ^ 32) / 2 ^ 19 < 2 ^ 13 := by omega
  rw [hashWord, hmul, BitVec.toNat_setWidth, BitVec.toNat_ushiftRight, BitVec.toNat_mul, Nat.shiftRight_eq_div_pow]
  exact Nat.mod_eq_of_lt hfit

/-- Settles O37: both forms are the product by `0x8003F`, and the corner values are computed. -/
theorem hashIsMultiplicative : Obligations.HashIsMultiplicative := by
  refine ⟨hashWord_toNat, fun w => ?_, by decide, by decide, by decide, by decide, by decide⟩
  have hform : w.toNat * 2 ^ 19 + w.toNat * 2 ^ 6 - w.toNat = w.toNat * 0x8003F := by omega
  rw [hform]
  exact hashWord_toNat w

/-! ### CANDIDATE (R98, R110) -/

/-- A slot of another word is no candidate. -/
theorem candidate_of_value_ne {word : Word} {slot : Slot} (abs pos : Nat) (h : slot.value ≠ word) :
    candidate word (some slot) abs pos = .reject := by
  simp [candidate, h]

theorem candidate_of_not_past {word : Word} {slot : Slot} {abs : Nat} (pos : Nat) (hv : slot.value = word)
    (h : abs ≤ slot.position.toNat) : candidate word (some slot) abs pos = .notInThePast := by
  simp [candidate, hv, h]

/-- A slot of the word at a distance of at most 32768 that stays in the chunk is a candidate. -/
theorem candidate_of_near {word : Word} {slot : Slot} {abs pos dist offset : Nat} (hv : slot.value = word)
    (habs : slot.position.toNat + dist = abs) (hmin : 1 ≤ dist) (hmax : dist ≤ 32768) (hoffset : offset + dist = pos) :
    candidate word (some slot) abs pos = .found dist offset := by
  have hpast : ¬ abs ≤ slot.position.toNat := by omega
  have hwindow : ¬ window ≤ abs - slot.position.toNat - 1 := by simp only [window]; omega
  have hchunk : ¬ pos ≤ abs - slot.position.toNat - 1 := by omega
  simp only [candidate, hv, ne_eq, not_true_eq_false, if_false, hpast, hwindow, hchunk, Candidate.found.injEq]
  omega

/-- An earlier slot of the word is rejected exactly when it lies outside the window or outside the chunk. -/
theorem candidate_eq_reject_of_past {word : Word} {slot : Slot} {abs pos : Nat} (hv : slot.value = word)
    (hpast : slot.position.toNat < abs) : candidate word (some slot) abs pos = .reject ↔
      32768 ≤ abs - slot.position.toNat - 1 ∨ pos ≤ abs - slot.position.toNat - 1 := by
  simp only [candidate, hv, ne_eq, not_true_eq_false, if_false, Nat.not_le.2 hpast, window]
  by_cases hfar : 32768 ≤ abs - slot.position.toNat - 1
  · simp only [hfar, if_true, true_or]
  by_cases hout : pos ≤ abs - slot.position.toNat - 1
  · simp only [hout, if_true, or_true, ite_self]
  · simp only [hfar, hout, if_false, reduceCtorEq, or_self]

/-- Settles O38, by the slot that was read: none, of another word, of the word but not earlier, or of the word and earlier. -/
theorem candidateIsEarlierEqualWord : Obligations.CandidateIsEarlierEqualWord := by
  refine fun word old abs pos => ⟨fun dist offset => ⟨fun h => ?_, ?_⟩, ?_⟩
  · obtain ⟨slot, hold, hv, habs, hmin, hmax, hoffset⟩ := slot_of_candidate h
    exact ⟨slot, hold, hv, habs, hmin, hmax, hoffset ▸ Nat.le_add_left dist offset, hoffset⟩
  · rintro ⟨slot, rfl, hv, habs, hmin, hmax, -, hoffset⟩
    exact candidate_of_near hv habs hmin hmax hoffset
  · cases old with
    | none => simp
    | some slot =>
      simp only [Option.some.injEq, forall_eq']
      by_cases hv : slot.value = word
      · by_cases hpast : slot.position.toNat < abs
        · simpa only [hv, hpast, true_and, forall_const] using candidate_eq_reject_of_past hv hpast
        · simp [candidate_of_not_past pos hv (Nat.not_lt.1 hpast), hv, hpast]
      · simp [candidate_of_value_ne abs pos hv, hv]

/-- Settles O39: the two sides of the window bound. -/
theorem windowBoundaryIsExact : Obligations.WindowBoundaryIsExact := fun word p pos hpos =>
  ⟨candidate_of_near rfl rfl (by decide) (Nat.le_refl _) (by omega),
    (candidate_eq_reject_of_past rfl (Nat.lt_add_of_pos_right (by decide))).2 (.inl (by dsimp only; omega))⟩

/-! ### EXTEND (R100) -/

/-- The loop of EXTEND stops at its limit or at bytes that differ, when the first suffix is long enough for the limit. -/
theorem agreeing_maximal {k : Nat} {as bs : List Byte} (hlen : k ≤ as.length) :
    agreeing k as bs = k ∨ as[agreeing k as bs]? ≠ bs[agreeing k as bs]? := by
  induction k generalizing as bs with
  | zero => exact .inl rfl
  | succ k ih =>
    cases as with
    | nil => exact absurd hlen (Nat.not_succ_le_zero k)
    | cons a as =>
      cases bs with
      | nil => exact .inr (by simp [agreeing])
      | cons b bs =>
        by_cases hab : a = b
        · rw [agreeing, if_pos hab]
          exact (ih (as := as) (bs := bs) (Nat.le_of_succ_le_succ hlen)).imp (congrArg (· + 1)) id
        · rw [agreeing, if_neg hab]
          exact .inr (by simpa using hab)

/-- Settles O40: the loop compares the bytes after the 4 of the word. -/
theorem extendMeasuresTheMatch : Obligations.ExtendMeasuresTheMatch := by
  intro inp pos c hpos _
  have hlen : min maxMatch (inp.length - pos) - minWord ≤ (inp.drop (pos + minWord)).length := by
    simp only [List.length_drop, minWord, maxMatch]
    omega
  refine ⟨_, rfl, agreeing_le _ _ _, fun j hj => ?_, ?_⟩
  · simpa only [List.getElem?_drop, minWord] using getElem?_eq_of_lt_agreeing hj
  · simpa only [List.getElem?_drop, minWord, maxMatch] using agreeing_maximal (bs := inp.drop (c + minWord)) hlen

/-! ### A chunk of fewer than 4 bytes (R95, R107) -/

/-- The match table of the second state is that of the first. -/
def SameTable (s s' : State) : Prop := s'.ctx.table = s.ctx.table

theorem SameTable.trans {a b c : State} (h : SameTable a b) (g : SameTable b c) : SameTable a c := Eq.trans g h

theorem sameTable_bind {s : State} {x : Flow} {f : State → Flow} (hx : Ends SameTable s x)
    (hf : ∀ m, Ends SameTable m (f m)) : Ends SameTable s (x.bind f) :=
  ends_bind (R := SameTable) (fun _ _ _ => SameTable.trans) hx hf

theorem sameTable_of_emits {s : State} {x : Flow} (h : Ends Emits s x) : Ends SameTable s x := fun t ht => (h t ht).table

/-- A literal makes no probe (R103). -/
theorem literalStep_sameTable (inp : List Byte) (s : State) : Ends SameTable s (literalStep inp s) := by
  unfold literalStep
  split
  · exact ends_stopped s _
  · exact ends_run rfl

theorem tailLoop_sameTable (inp : List Byte) (k : Nat) (s : State) : Ends SameTable s (tailLoop inp k s) := by
  induction k generalizing s with
  | zero => exact ends_run rfl
  | succ k ih =>
    unfold tailLoop
    split
    · exact sameTable_bind (literalStep_sameTable inp s) ih
    · exact ends_run rfl

/-- The main loop makes no turn on a chunk of fewer than 4 bytes (R107). -/
theorem scanLoop_of_short {inp : List Byte} (k : Nat) (s : State) (h : inp.length < 4) : scanLoop inp k s = .run s := by
  cases k with
  | zero => rfl
  | succ k => exact if_neg (Nat.not_le.2 (Nat.lt_of_le_of_lt (Nat.sub_le _ _) h))

theorem scan_sameTable_of_short {inp : List Byte} (s : State) (h : inp.length < 4) : Ends SameTable s (scan inp s) := by
  rw [scan, scanLoop_of_short _ s h, bind_run]
  exact sameTable_bind (tailLoop_sameTable inp _ s) fun m => sameTable_of_emits (flushPending_emits inp _ m)

theorem dataPhase_sameTable_of_short {inp : List Byte} (s : State) (h : inp.length < 4) :
    Ends SameTable s (dataPhase inp s) := by
  by_cases hlevel : s.ctx.level = 0#1
  · exact sameTable_of_emits (dataPhase_levelZero_emits hlevel)
  · rw [dataPhase, if_neg hlevel]
    exact scan_sameTable_of_short s h

/-- An ENCODE that answers OK, of a host that keeps its duties, has run its body to the end (R132). -/
theorem encodeBody_of_ok {more : Bool} {s t : State} {n : Word} (hf : s.faulted = false)
    (hkept : breached s.operands = false) (ht : exec (.encode more) s = .next t) (hok : t.response = some ⟨0#4, n⟩) :
    ∃ m, encodeBody more s = .run m ∧ t = complete m := by
  change execEncode more s = .next t at ht
  rcases execEncode_prechecks more hf with ⟨cause, hc, hx⟩ | ⟨hp, hlen⟩
  · obtain rfl := Host.Outcome.next.inj (hx.symm.trans ht)
    exact absurd rfl (status_of_precheck hc hok).1
  · rw [execEncode_of_accepted hf hp hlen hkept] at ht
    rcases outcome_eq_next.1 ht with hrun | ⟨m, -, rfl⟩
    · exact hrun
    · cases hok

/-- Settles O18: the header and the count of the chunk do not touch the table, nor do the data of so short a chunk. -/
theorem shortChunkTouchesNoSlot : Obligations.ShortChunkTouchesNoSlot := by
  intro more s t n hf hkept hshort ht hok
  obtain ⟨m, hrun, rfl⟩ := encodeBody_of_ok hf hkept ht hok
  obtain ⟨a, d, ha, hd, rfl⟩ := encodeBody_eq_run.1 hrun
  have hheader : a.ctx.table = s.ctx.table := (headerPhase_emits _ a (.inl ha)).table
  have hdata : d.ctx.table = a.ctx.table :=
    dataPhase_sameTable_of_short (checksumPhase (chunkOf s.operands) a) ((length_chunkOf s.operands).trans_lt hshort) d
      (.inl hd)
  exact hdata.trans hheader

end Sys2Proof.Machine.MatchFinderProofs

end


/-! PROOFS. What an ENCODE sends as a deflate stream (45_block_state_machine.md R111 to R118, 46_framing.md R128): the bytes
written and the bits pending, and the data they stand for after every operation of the bit queue and of the blocks. -/
section

namespace Sys2Proof.Machine.StreamProofs

open Sys2Proof.Machine.Laws Sys2Proof.Machine.StateProofs Sys2Proof.Machine.MemoryProofs Sys2Proof.Machine.QueueProofs

/-! ### The bytes of the command and the bits of the stream -/

/-- The command has sent exactly the bytes `bs`, and they lie in its window. -/
structure Wrote (bs : List Byte) (s : State) : Prop extends Sent bs s where
  room : s.work.cursor.toNat ≤ s.work.ocap.toNat

theorem Wrote.frame {bs : List Byte} {s s' : State} (h : Wrote bs s) (hout : s'.out = s.out)
    (hcursor : s'.work.cursor = s.work.cursor) (hocap : s'.work.ocap = s.work.ocap) : Wrote bs s' :=
  ⟨⟨hout.trans h.out, hcursor ▸ h.cursor⟩, hcursor ▸ hocap ▸ h.room⟩

theorem wrote_writeOut {bs : List Byte} {s : State} (b : Byte) (h : Wrote bs s) (hroom : s.work.cursor ≠ s.work.ocap) :
    Wrote (bs ++ [b]) (s.writeOut b) := by
  have hlt : s.work.cursor.toNat < s.work.ocap.toNat :=
    Nat.lt_of_le_of_ne h.room fun he => hroom (BitVec.eq_of_toNat_eq he)
  have hcap := s.work.ocap.isLt
  have hlen := h.cursor
  refine ⟨h.toSent.writeAll (bs := [b]) (by rw [List.length_singleton]; omega), ?_⟩
  rw [writeOut_cursor_toNat b hlt]
  exact hlt

/-- OutByte of some bytes that all found room writes them after the bytes before (R63). -/
theorem wrote_outBytes {as bs : List Byte} {s m : State} (h : Wrote as s) (hrun : outBytes bs s = .run m) :
    Wrote (as ++ bs) m ∧ m.ctx = s.ctx := by
  induction bs generalizing as s with
  | nil =>
    obtain rfl := Flow.run.inj hrun
    exact ⟨by rwa [List.append_nil], rfl⟩
  | cons b rest ih =>
    obtain ⟨a, ha, hrest⟩ := bind_eq_run.1 hrun
    obtain ⟨hroom, rfl⟩ := outByte_eq_run.1 ha
    have hall := ih (wrote_writeOut b h hroom) hrest
    rwa [List.append_assoc, List.singleton_append] at hall

/-- The command has sent the bytes `hdr` and then bytes whose bits, after the bits `prior` of earlier commands and before the
bits still pending, make up `bits` (20_memory.md R41). -/
def Carries (hdr : List Byte) (prior bits : List Bool) (s : State) : Prop :=
  ∃ body, Wrote (hdr ++ body) s ∧ prior ++ bitsOf body ++ pendingBits s.ctx = bits

section
variable {hdr : List Byte} {prior bits : List Bool} {s m : State}

/-- Registers that are no part of OUT or of the bit queue make no difference. -/
theorem Carries.frame {s' : State} (h : Carries hdr prior bits s) (hout : s'.out = s.out)
    (hcursor : s'.work.cursor = s.work.cursor) (hocap : s'.work.ocap = s.work.ocap)
    (hpending : pendingBits s'.ctx = pendingBits s.ctx) : Carries hdr prior bits s' := by
  obtain ⟨body, hw, hbits⟩ := h
  exact ⟨body, hw.frame hout hcursor hocap, hpending ▸ hbits⟩

/-- More bits put after the pending ones. -/
theorem Carries.append {s' : State} {extra : List Bool} (h : Carries hdr prior bits s) (hout : s'.out = s.out)
    (hcursor : s'.work.cursor = s.work.cursor) (hocap : s'.work.ocap = s.work.ocap)
    (hpending : pendingBits s'.ctx = pendingBits s.ctx ++ extra) : Carries hdr prior (bits ++ extra) s' := by
  obtain ⟨body, hw, rfl⟩ := h
  exact ⟨body, hw.frame hout hcursor hocap, by rw [hpending, List.append_assoc _ (pendingBits s.ctx)]⟩

/-- A byte sent and a new queue: together they hold the bits that were pending, and some more after them. -/
theorem carries_sendByte {extra : List Bool} {b : Byte} {q : Word} {n : BitVec 5} (h : Carries hdr prior bits s)
    (hroom : s.work.cursor ≠ s.work.ocap) (hbits : byteBits b ++ lowBits n.toNat q = pendingBits s.ctx ++ extra) :
    Carries hdr prior (bits ++ extra) ((s.writeOut b).withQueue q n) := by
  obtain ⟨body, hw, rfl⟩ := h
  refine ⟨body ++ [b], ?_, ?_⟩
  · rw [← List.append_assoc]
    exact (wrote_writeOut b hw hroom).frame rfl rfl rfl
  · change prior ++ bitsOf (body ++ [b]) ++ lowBits n.toNat q = _
    rw [bitsOf_append, bitsOf_singleton, List.append_assoc, List.append_assoc, hbits]
    simp only [List.append_assoc]

/-- The loop of ENQUEUE moves bits from the queue to OUT, and adds none (R64). -/
theorem carries_drain (k : Nat) (h : Carries hdr prior bits s) (hrun : drain k s = .run m) :
    Carries hdr prior bits m := by
  induction k generalizing s with
  | zero => exact Flow.run.inj hrun ▸ h
  | succ k ih =>
    by_cases hshort : s.ctx.bitCount.toNat < 8
    · exact Flow.run.inj ((drain_of_short hshort).symm.trans hrun) ▸ h
    · have hfull : 8 ≤ s.ctx.bitCount.toNat := Nat.not_lt.1 hshort
      rw [drain_of_full hfull] at hrun
      obtain ⟨a, ha, hrest⟩ := bind_eq_run.1 hrun
      obtain ⟨hroom, rfl⟩ := outByte_eq_run.1 ha
      refine ih ?_ hrest
      have hsub : (s.ctx.bitCount - 8#5).toNat = s.ctx.bitCount.toNat - 8 := BitVec.toNat_sub_of_le hfull
      have hsent := carries_sendByte (extra := []) (q := s.ctx.bitQueue >>> 8) (n := s.ctx.bitCount - 8#5) h hroom
        (by rw [hsub, byteBits_append_lowBits hfull, List.append_nil, pendingBits_eq])
      rwa [List.append_nil] at hsent

/-- An ENQUEUE that runs was not refused its field (R65). -/
theorem fits_of_enqueue {f : Field} (hrun : enqueue f s = .run m) : Fits f := by
  by_contra hbad
  rw [enqueue_of_out_of_range] at hrun
  · cases hrun
  · by_contra hin
    simp only [not_or, Nat.not_lt, Nat.not_le] at hin
    exact hbad ⟨hin.1, hin.2⟩

/-- ENQUEUE appends the bits of its field (R64). -/
theorem carries_enqueue {p : Phase} {f : Field} (hs : SoundIn p s) (h : Carries hdr prior bits s)
    (hrun : enqueue f s = .run m) : Carries hdr prior (bits ++ fieldBits f) m := by
  obtain ⟨hw, hv⟩ := fits_of_enqueue hrun
  rw [enqueue_of_fits hw hv hs.queueShort] at hrun
  refine carries_drain 3 (h.append (s' := putField f s) rfl rfl rfl ?_) hrun
  exact List.append_cancel_left ((appends_putField hw hs.queueShort hs.queueClean).stream.trans (List.append_assoc _ _ _))

/-- A flush appends fewer than 8 zero bits (R66). -/
theorem carries_flushToByte {p : Phase} (hs : SoundIn p s) (h : Carries hdr prior bits s)
    (hrun : flushToByte s = .run m) : ∃ pad, pad < 8 ∧ Carries hdr prior (bits ++ List.replicate pad false) m := by
  by_cases hempty : s.ctx.bitCount = 0#5
  · obtain rfl := Flow.run.inj ((flushToByte_of_empty hempty).symm.trans hrun)
    exact ⟨0, by decide, h.append rfl rfl rfl (by rw [pendingBits_eq s.ctx, hempty]; rfl)⟩
  · have hpending : 0 < s.ctx.bitCount.toNat := Nat.pos_of_ne_zero fun h0 => hempty (BitVec.eq_of_toNat_eq h0)
    rw [flushToByte, if_pos hpending] at hrun
    obtain ⟨a, ha, hrest⟩ := bind_eq_run.1 hrun
    obtain ⟨hroom, rfl⟩ := outByte_eq_run.1 ha
    obtain rfl := Flow.run.inj hrest
    have hshort := hs.queueShort
    have hpad := lowBits_of_clean hs.queueClean (m := 8) (by omega)
    rw [← byteBits_append_lowBits (Nat.le_refl 8)] at hpad
    exact ⟨8 - s.ctx.bitCount.toNat, by omega, carries_sendByte h hroom hpad⟩

/-- At a byte boundary a raw writer appends the bits of its bytes (R67). -/
theorem carries_writeRawBytes {bs : List Byte} (hempty : s.ctx.bitCount = 0#5) (h : Carries hdr prior bits s)
    (hrun : writeRawBytes bs s = .run m) : Carries hdr prior (bits ++ bitsOf bs) m := by
  rw [writeRawBytes_aligned hempty] at hrun
  obtain ⟨body, hw, rfl⟩ := h
  obtain ⟨hw', hctx⟩ := wrote_outBytes hw hrun
  have hnone : pendingBits s.ctx = [] := by rw [pendingBits_eq, hempty]; rfl
  refine ⟨body ++ bs, by rwa [← List.append_assoc], ?_⟩
  rw [hctx, hnone, bitsOf_append, List.append_nil, List.append_nil, List.append_assoc]

theorem length_bitsOf (bs : List Byte) : (bitsOf bs).length = 8 * bs.length := by
  induction bs with
  | nil => rfl
  | cons b rest ih =>
    have hb : (byteBits b).length = 8 := by rw [byteBits, List.length_map, List.length_range]
    rw [← List.singleton_append, bitsOf_append, bitsOf_singleton, List.length_append, ih, hb, List.length_append,
      List.length_singleton]
    omega

/-- Where no bit is pending the stream stands at a byte boundary, if earlier commands left it at one. -/
theorem Carries.length_mod (h : Carries hdr prior bits s) (hprior : 8 ∣ prior.length) (hempty : s.ctx.bitCount = 0#5) :
    bits.length % 8 = 0 := by
  obtain ⟨body, -, rfl⟩ := h
  have hnone : pendingBits s.ctx = [] := by rw [pendingBits_eq, hempty]; rfl
  rw [hnone, List.append_nil, List.length_append, length_bitsOf]
  omega
end

/-! ### Operations of the bit queue -/

/-- What holds between two bit-queue operations in the phase `p`, with the bits that the stream then holds. -/
structure Carrying (hdr : List Byte) (prior : List Bool) (p : Phase) (bits : List Bool) (s : State) : Prop
    extends SoundIn p s where
  carries : Carries hdr prior bits s

section
variable {hdr : List Byte} {prior bits : List Bool} {p : Phase} {s : State}

theorem Carrying.withPhase (h : Carrying hdr prior p bits s) (q : Phase) : Carrying hdr prior q bits (s.withPhase q) :=
  ⟨h.toSoundIn.withPhase q, h.carries.frame rfl rfl rfl rfl⟩

theorem enqueue_carrying (f : Field) (h : Carrying hdr prior p bits s) :
    Leaves (Carrying hdr prior p (bits ++ fieldBits f)) (enqueue f s) :=
  (enqueue_leaves f h.toSoundIn).mono_run fun _ hm hs => ⟨hs, carries_enqueue h.toSoundIn h.carries hm⟩

theorem flushToByte_carrying (h : Carrying hdr prior p bits s) :
    Leaves (fun m => AlignedIn p m ∧ ∃ pad, pad < 8 ∧ Carries hdr prior (bits ++ List.replicate pad false) m)
      (flushToByte s) :=
  (flushToByte_leaves h.toSoundIn).mono_run fun _ hm hs => ⟨hs, carries_flushToByte h.toSoundIn h.carries hm⟩

theorem writeRawBytes_carrying (bs : List Byte) (hs : AlignedIn p s) (h : Carries hdr prior bits s) :
    Leaves (fun m => AlignedIn p m ∧ Carries hdr prior (bits ++ bitsOf bs) m) (writeRawBytes bs s) :=
  (writeRawBytes_leaves bs hs.toSoundIn).mono_run fun _ hm ha => ⟨ha, carries_writeRawBytes hs.noBits h hm⟩
end

/-! ### Blocks (R111 to R117) -/

/-- The stream is in the phase `p` and its bits stand for `data`. -/
def Stands (hdr : List Byte) (prior : List Bool) (p : Phase) (data : List Byte) (s : State) : Prop :=
  ∃ bits, Carrying hdr prior p bits s ∧ DeflatePrefix bits p data

section
variable {hdr : List Byte} {prior : List Bool} {p : Phase} {data : List Byte} {s : State}

/-- Registers that are no part of the stream make no difference to what it stands for. -/
theorem Stands.frame {s' : State} (h : Stands hdr prior p data s) (hout : s'.out = s.out)
    (hcursor : s'.work.cursor = s.work.cursor) (hocap : s'.work.ocap = s.work.ocap)
    (hqueue : s'.ctx.bitQueue = s.ctx.bitQueue) (hcount : s'.ctx.bitCount = s.ctx.bitCount)
    (hphase : s'.ctx.phase = s.ctx.phase) : Stands hdr prior p data s' := by
  obtain ⟨bits, ⟨hs, hc⟩, hd⟩ := h
  have hpending : pendingBits s'.ctx = pendingBits s.ctx := by rw [pendingBits_eq, pendingBits_eq, hqueue, hcount]
  exact ⟨bits, ⟨⟨hcount ▸ hs.queueShort, by rw [hqueue, hcount]; exact hs.queueClean, hout ▸ hs.outWf,
    hphase.trans hs.phase⟩, hc.frame hout hcursor hocap hpending⟩, hd⟩

theorem Stands.phase (h : Stands hdr prior p data s) : s.ctx.phase = p := by
  obtain ⟨_, hs, _⟩ := h
  exact hs.toSoundIn.phase

theorem fieldBits_blockHeader_fixed (final : Bool) : fieldBits (blockHeader final btypeFixed) = [final, true, false] := by
  cases final <;> decide

theorem fieldBits_blockHeader_stored (final : Bool) :
    fieldBits (blockHeader final btypeStored) = [final, false, false] := by
  cases final <;> decide

/-- OPEN_FIXED opens the last block where the command's MORE is 0, and another one where it is 1 (R112). -/
theorem openFixed_stands (more : Bool) {bits : List Bool} (h : Carrying hdr prior p bits s)
    (hd : DeflatePrefix bits .eob data) : Leaves (Stands hdr prior (openPhase more) data) (openFixed more s) := by
  cases more
  · refine (enqueue_carrying (blockHeader true btypeFixed) (h.withPhase .last)).mono fun m hm => ⟨_, hm, ?_⟩
    rw [fieldBits_blockHeader_fixed]
    exact hd.openLast
  · refine (enqueue_carrying (blockHeader false btypeFixed) (h.withPhase .fixed)).mono fun m hm => ⟨_, hm, ?_⟩
    rw [fieldBits_blockHeader_fixed]
    exact hd.openFixed

/-- The end-of-block code closes the open block; `state` is written after it (R93, R114). -/
theorem emitEob_stands (h : Stands hdr prior .fixed data s) :
    Leaves (fun m => ∃ bits, Carrying hdr prior .fixed bits m ∧ DeflatePrefix bits .eob data) (emitEob s) := by
  obtain ⟨bits, hc, hd⟩ := h
  exact (enqueue_carrying ⟨0#32, 7⟩ hc).mono fun m hm => ⟨_, hm, hd.closeFixed⟩

/-- The end of the block before a stored one, where one is open (R115). -/
theorem closeOpen_stands (hp : p = .eob ∨ p = .fixed) (h : Stands hdr prior p data s) :
    Leaves (fun m => ∃ bits, Carrying hdr prior p bits m ∧ DeflatePrefix bits .eob data)
      (if s.ctx.phase = .eob then .run s else emitEob s) := by
  rw [h.phase]
  rcases hp with rfl | rfl
  · exact h
  · exact emitEob_stands h

/-- A stored block appends its bytes to the data, from whichever bit it starts (R115). -/
theorem storedPiece_stands {inp : List Byte} {i c : Nat} (final : Bool) (hprior : 8 ∣ prior.length)
    (hp : p = .eob ∨ p = .fixed) (hin : i + c ≤ inp.length) (hmax : c ≤ 65535) (h : Stands hdr prior p data s) :
    Leaves (Stands hdr prior (storedPhase !final) (data ++ (inp.drop i).take c)) (storedPiece inp i c final s) := by
  have hlen : ((inp.drop i).take c).length = c := by
    rw [List.length_take, List.length_drop]
    omega
  have hphase : storedPhase (!final) = if final then Phase.done else .eob := by cases final <;> rfl
  rw [hphase]
  unfold storedPiece
  refine (closeOpen_stands hp h).bind fun m ⟨bits, hm, hd⟩ => ?_
  refine (enqueue_carrying _ (hm.withPhase (if final then .done else .eob))).bind fun m hm => ?_
  refine (flushToByte_carrying hm).bind fun m ⟨ha, pad, hpad, hc⟩ => ?_
  rw [fieldBits_blockHeader_stored] at hc
  have hmod := hc.length_mod hprior ha.noBits
  simp only [List.length_append, List.length_cons, List.length_nil, List.length_replicate] at hmod
  refine (writeRawBytes_carrying _ ha hc).bind fun m ⟨ha, hc⟩ => ?_
  refine (writeRawBytes_carrying _ ha hc).bind fun m ⟨ha, hc⟩ => ?_
  rw [writeRaw_of_le m hin]
  refine (writeRawBytes_carrying _ ha hc).mono fun m ⟨ha, hc⟩ => ⟨_, ⟨ha.toSoundIn, hc⟩, ?_⟩
  have hblock := DeflatePrefix.stored final pad ((inp.drop i).take c) hd (hlen.trans_le hmax) hmod hpad
  rwa [hlen, bitsOf_append, bitsOf_append, ← List.append_assoc, ← List.append_assoc] at hblock

/-- STORED, with turns enough for the bytes left, appends all of them (R115). -/
theorem storedLoop_stands {inp : List Byte} (more : Bool) {k i rem : Nat} (hprior : 8 ∣ prior.length)
    (hp : p = .eob ∨ p = .fixed) (hin : i + rem ≤ inp.length) (hfuel : rem < k) (h : Stands hdr prior p data s) :
    Leaves (Stands hdr prior (storedPhase more) (data ++ (inp.drop i).take rem)) (storedLoop inp more k i rem s) := by
  induction k generalizing p i rem data s with
  | zero => exact absurd hfuel (Nat.not_lt_zero _)
  | succ k ih =>
    have hpiece : min rem storedMax ≤ 65535 := Nat.min_le_right _ _
    have hle : min rem storedMax ≤ rem := Nat.min_le_left _ _
    unfold storedLoop
    refine (storedPiece_stands _ hprior hp (by omega) hpiece h).bind fun m hm => ?_
    by_cases hleft : rem - min rem storedMax = 0
    · have hall : min rem storedMax = rem := by omega
      simpa [hleft, hall] using hm
    · rw [if_neg hleft]
      have hm' : Stands hdr prior .eob (data ++ (inp.drop i).take (min rem storedMax)) m := by
        simpa [hleft, storedPhase] using hm
      have hrest := ih (i := i + min rem storedMax) (rem := rem - min rem storedMax) (.inl rfl) (by omega)
        (by simp only [storedMax] at *; omega) hm'
      rw [List.append_assoc, ← List.drop_drop, ← List.take_add, Nat.add_sub_cancel' hle] at hrest
      exact hrest

/-- A literal in the open block appends its byte (R87, R92). -/
theorem emitLits_stands (bs : List Byte) (hp : p = .fixed ∨ p = .last) (h : Stands hdr prior p data s) :
    Leaves (Stands hdr prior p (data ++ bs)) (emitLits bs s) := by
  induction bs generalizing data s with
  | nil => rwa [List.append_nil]
  | cons b rest ih =>
    obtain ⟨bits, hc, hd⟩ := h
    rw [List.append_cons]
    exact (enqueue_carrying (litField b) hc).bind fun m hm => ih ⟨_, hm, hd.literal b hp⟩

/-- HUFF_LITS has the block of its literals open: it opens one in EOB, and for the last run of the stream closes the open one
before it opens the last (R116). -/
theorem huffOpen_stands (more : Bool) (hp : p = .eob ∨ p = .fixed) (h : Stands hdr prior p data s) :
    Leaves (Stands hdr prior (openPhase more) data) (huffOpen more s) := by
  unfold huffOpen
  rw [h.phase]
  rcases hp with rfl | rfl
  · obtain ⟨bits, hc, hd⟩ := h
    exact openFixed_stands more hc hd
  · cases more
    · exact (emitEob_stands h).bind fun m ⟨bits, hm, hd⟩ => openFixed_stands false (hm.withPhase .eob) hd
    · exact h

theorem huffLits_stands {inp : List Byte} {i n : Nat} (more : Bool) (hp : p = .eob ∨ p = .fixed)
    (hin : i + n ≤ inp.length) (h : Stands hdr prior p data s) :
    Leaves (Stands hdr prior (openPhase more) (data ++ (inp.drop i).take n)) (huffLits inp i n more s) := by
  unfold huffLits
  rw [inBytes_of_le hin]
  exact (huffOpen_stands more hp h).bind fun m hm => emitLits_stands _ (by cases more <;> simp [openPhase]) hm

/-- FLUSH_LITS appends the bytes of the run, stored or as literals (R117). -/
theorem flushLits_stands {inp : List Byte} {i n : Nat} (b9 : Nat) (more : Bool) (hprior : 8 ∣ prior.length)
    (hp : p = .eob ∨ p = .fixed) (hin : i + n ≤ inp.length) (h : Stands hdr prior p data s) :
    Leaves (fun m => ∃ q, Stands hdr prior q (data ++ (inp.drop i).take n) m) (flushLits inp i n b9 more s) := by
  unfold flushLits
  split
  · exact (storedLoop_stands more hprior hp hin (Nat.lt_succ_self n) h).mono fun m hm => ⟨_, hm⟩
  · exact (huffLits_stands more hp hin h).mono fun m hm => ⟨_, hm⟩

/-- MATCH_OPEN leaves a fixed block open (R113). -/
theorem matchOpen_stands (hp : p = .eob ∨ p = .fixed) (h : Stands hdr prior p data s) :
    Leaves (Stands hdr prior .fixed data) (matchOpen s) := by
  unfold matchOpen
  rw [h.phase]
  rcases hp with rfl | rfl
  · obtain ⟨bits, hc, hd⟩ := h
    exact openFixed_stands true hc hd
  · exact h

/-- A match that does not reach behind the data appends the bytes it copies (43_fixed_huffman.md R94). -/
theorem emitMatch_stands {len dist : Nat} (hback : dist ≤ data.length) (h : Stands hdr prior .fixed data s) :
    Leaves (Stands hdr prior .fixed (copyBack len dist data)) (emitMatch len dist s) := by
  obtain ⟨bits, hc, hd⟩ := h
  unfold emitMatch
  split
  · trivial
  · trivial
  · rename_i lf df hlf hdf
    exact (enqueue_carrying lf hc).bind fun m hm => (enqueue_carrying df hm).mono fun m hm =>
      ⟨_, hm, hd.backReference hlf hdf hback⟩
end

end Sys2Proof.Machine.StreamProofs

end


/-! PROOFS. What the scan of a chunk and the whole ENCODE send (44_match_finder.md R103 to R108, 47_commands.md R132): the stream
stands for the data before the chunk and for the chunk up to the pending run, and after the final flush for all of it. -/
section

namespace Sys2Proof.Machine.StreamProofs

open Sys2Proof.Machine.Laws Sys2Proof.Machine.StateProofs Sys2Proof.Machine.MemoryProofs Sys2Proof.Machine.QueueProofs
open Sys2Proof.Machine.MatchFinderProofs

theorem leaves_of_run {P : State → Prop} {x : Flow} {m : State} (h : Leaves P x) (hx : x = .run m) : P m := by
  rw [hx] at h
  exact h

theorem leaves_and {P Q : State → Prop} {x : Flow} (hp : Leaves P x) (hq : Leaves Q x) : Leaves (fun m => P m ∧ Q m) x :=
  hp.mono_run fun _ hm h => ⟨h, leaves_of_run hq hm⟩

/-! ### The bytes of a match -/

/-- Copying back from the first bytes of the chunk continues them, where its bytes equal those `dist` before them; the
copy may overlap itself (R94, R98). -/
theorem copyBack_take {inp data : List Byte} {len dist pos : Nat} (hmin : 1 ≤ dist) (hdist : dist ≤ pos)
    (hin : pos + len ≤ inp.length) (hcopy : ∀ j, j < len → inp[pos + j]? = inp[pos - dist + j]?) :
    copyBack len dist (data ++ inp.take pos) = data ++ inp.take (pos + len) := by
  induction len generalizing pos with
  | zero => rfl
  | succ len ih =>
    have hlt : pos < inp.length := by omega
    have hlen : (data ++ inp.take pos).length = data.length + pos := by
      rw [List.length_append, List.length_take_of_le hlt.le]
    have hbyte : (data ++ inp.take pos)[(data ++ inp.take pos).length - dist]? = some inp[pos] := by
      rw [hlen, Nat.add_sub_assoc hdist, List.getElem?_append_right (Nat.le_add_right _ _), Nat.add_sub_cancel_left,
        List.getElem?_take_of_lt (by omega), ← List.getElem?_eq_getElem hlt]
      exact (hcopy 0 (Nat.succ_pos len)).symm
    have hnext : data ++ inp.take pos ++ [inp[pos]] = data ++ inp.take (pos + 1) := by
      rw [List.append_assoc, List.take_append_getElem hlt]
    rw [copyBack, hbyte, Option.getD_some, hnext, ih (by omega) (by omega), Nat.add_assoc, Nat.add_comm 1]
    intro j hj
    have hj' := hcopy (j + 1) (Nat.succ_lt_succ hj)
    rwa [← Nat.add_assoc, ← Nat.add_assoc, Nat.add_right_comm, Nat.add_right_comm _ j,
      ← Nat.sub_add_comm hdist] at hj'

/-! ### The scan -/

/-- Between two turns of the scan the stream, in EOB or FIXED, stands for the data before the chunk and then for the chunk up
to the pending run (R103, R104). -/
structure UpToRun (hdr : List Byte) (prior : List Bool) (data inp : List Byte) (s : State) : Prop where
  inChunk : InChunk inp s
  flushed : Flushed true s
  stands : ∃ p, Stands hdr prior p (data ++ inp.take (s.work.pos.toNat - s.work.plit.toNat)) s

section
variable {hdr : List Byte} {prior : List Bool} {p : Phase} {data inp : List Byte} {s : State}

/-- In a stream that a scan can run in, a block can be opened, or is open and is not the last. -/
theorem Stands.phase_of_flushed (h : Stands hdr prior p data s) (hf : Flushed true s) : p = .eob ∨ p = .fixed := by
  obtain ⟨q, hq, hs⟩ := hf.soundIn
  rwa [← hs.phase, h.phase] at hq

theorem literalStep_upToRun (hlen : inp.length < 2 ^ 32) (hpos : s.work.pos.toNat < inp.length)
    (h : UpToRun hdr prior data inp s) : Leaves (UpToRun hdr prior data inp) (literalStep inp s) := by
  refine (literalStep_leaves inp h.flushed).mono_run fun m hm hf => ⟨inChunk_literalStep hlen hpos h.inChunk hm, hf, ?_⟩
  obtain ⟨b, -, rfl⟩ := literalStep_eq_run.1 hm
  obtain ⟨p, hs⟩ := h.stands
  have hplit := h.inChunk.plit_le
  have hpos' : (s.work.pos + 1#32).toNat = s.work.pos.toNat + 1 := advance_toNat (n := 1) (by omega)
  have hplit' : (s.work.plit + 1#32).toNat = s.work.plit.toNat + 1 := advance_toNat (n := 1) (by omega)
  rw [withScan_pos, withScan_plit, hpos', hplit', Nat.add_sub_add_right]
  exact ⟨p, hs.frame rfl rfl rfl rfl rfl rfl⟩

/-- The flush of the pending run brings the stream up to the position of the scan (R104, R108). -/
theorem flushPending_stands (more : Bool) (hprior : 8 ∣ prior.length) (h : UpToRun hdr prior data inp s) :
    Leaves (fun m => ∃ q, Stands hdr prior q (data ++ inp.take s.work.pos.toNat) m) (flushPending inp more s) := by
  obtain ⟨hpos, hplit⟩ := h.inChunk
  obtain ⟨p, hs⟩ := h.stands
  unfold flushPending
  split
  · rename_i hnone
    rw [hnone] at hs
    exact ⟨p, hs⟩
  · have hrun := flushLits_stands s.work.bit9.toNat more hprior (hs.phase_of_flushed h.flushed)
      (show s.work.pos.toNat - s.work.plit.toNat + s.work.plit.toNat ≤ inp.length by omega) hs
    rwa [List.append_assoc, ← List.take_add, Nat.sub_add_cancel hplit] at hrun

/-- A match whose bytes equal those `dist` before them brings the stream up to its end (R104). -/
theorem acceptMatch_stands {dist len : Nat} (hprior : 8 ∣ prior.length) (hmin : 1 ≤ dist)
    (hdist : dist ≤ s.work.pos.toNat) (hin : s.work.pos.toNat + len ≤ inp.length)
    (hcopy : ∀ j, j < len → inp[s.work.pos.toNat + j]? = inp[s.work.pos.toNat - dist + j]?)
    (h : UpToRun hdr prior data inp s) :
    Leaves (fun m => ∃ q, Stands hdr prior q (data ++ inp.take (s.work.pos.toNat + len)) m)
      (acceptMatch inp dist len s) := by
  unfold acceptMatch
  refine (leaves_and (flushPending_true_leaves inp h.flushed) (flushPending_stands true hprior h)).bind
    fun a ⟨hf, q, ha⟩ => ?_
  have ha' : Stands hdr prior q _ (a.withScan a.work.pos 0#32 a.work.bit9) := ha.frame rfl rfl rfl rfl rfl rfl
  refine (matchOpen_stands (ha.phase_of_flushed hf) ha').bind fun b hb => ?_
  have hback : dist ≤ (data ++ inp.take s.work.pos.toNat).length := by
    rw [List.length_append, List.length_take_of_le (by omega)]
    omega
  refine (emitMatch_stands (len := len) hback hb).bind fun c hc => ⟨.fixed, ?_⟩
  rw [copyBack_take hmin hdist hin hcopy] at hc
  exact hc.frame rfl rfl rfl rfl rfl rfl

/-- A turn of the scan keeps the stream up to the pending run: what it sends of the chunk is a match, which
`matchCopiesEqualBytes` shows to copy the chunk's bytes. -/
theorem scanStep_upToRun {base : Position} (hprior : 8 ∣ prior.length) (hlen : inp.length < 2 ^ 32)
    (hbase : base.toNat + inp.length < 2 ^ 64) (hpos : s.work.pos.toNat + 4 ≤ inp.length)
    (hprobing : Probing inp base s) (h : UpToRun hdr prior data inp s) :
    Leaves (fun m => Probing inp base m ∧ UpToRun hdr prior data inp m) (scanStep inp s) := by
  refine (probing_scanStep hlen hbase hpos hprobing).mono_run fun m hm hm' => ⟨hm', hm'.inChunk, hm'.flushed, ?_⟩
  obtain ⟨word, hword⟩ : ∃ word, readWord inp s.work.pos.toNat = some word := ⟨_, readWord_of_le hpos⟩
  obtain ⟨p, hs⟩ := h.stands
  have hprobed : UpToRun hdr prior data inp (probe word s).2 :=
    ⟨⟨h.inChunk.pos_le, h.inChunk.plit_le⟩, h.flushed.withSlot _ _, p, hs.frame rfl rfl rfl rfl rfl rfl⟩
  rcases scanStep_run hword hm with ⟨dist, len, ⟨offset, -, -, hcand, rfl, -⟩, haccept⟩ | ⟨-, hliteral⟩
  · rw [hprobing.chunkBase] at hcand
    obtain ⟨hoffset, hmin, -, hin, hcopy⟩ := matchCopiesEqualBytes inp _ _ _ word dist offset hprobing.agrees hword hcand
    have hdist : dist ≤ s.work.pos.toNat := by omega
    obtain rfl : offset = s.work.pos.toNat - dist := by omega
    obtain ⟨-, hmoved, hplit, -⟩ := acceptMatch_run haccept
    have hpos' : m.work.pos.toNat = s.work.pos.toNat + extend inp s.work.pos.toNat (s.work.pos.toNat - dist) := by
      rw [hmoved]
      exact advance_toNat (pos := s.work.pos) (by omega)
    rw [hpos', hplit]
    exact leaves_of_run (acceptMatch_stands (s := (probe word s).2) hprior hmin hdist hin hcopy hprobed)
      haccept
  · have hlt : s.work.pos.toNat < inp.length := by omega
    exact (leaves_of_run (literalStep_upToRun (s := (probe word s).2) hlen hlt hprobed) hliteral).stands

theorem scanLoop_upToRun {base : Position} (k : Nat) (hprior : 8 ∣ prior.length) (hlen : inp.length < 2 ^ 32)
    (hbase : base.toNat + inp.length < 2 ^ 64) (hprobing : Probing inp base s) (h : UpToRun hdr prior data inp s) :
    Leaves (UpToRun hdr prior data inp) (scanLoop inp k s) := by
  induction k generalizing s with
  | zero => exact h
  | succ k ih =>
    have hin := h.inChunk.pos_le
    unfold scanLoop
    split
    · rename_i hleft
      have hpos : s.work.pos.toNat + 4 ≤ inp.length := by
        simp only [minWord] at hleft
        omega
      exact (scanStep_upToRun hprior hlen hbase hpos hprobing h).bind fun m ⟨hm, hm'⟩ => ih hm hm'
    · exact h

/-- The tail, with turns enough for the bytes left, reaches the end of the chunk (R106, R107). -/
theorem tailLoop_upToRun (k : Nat) (hlen : inp.length < 2 ^ 32) (hfuel : inp.length ≤ s.work.pos.toNat + k)
    (h : UpToRun hdr prior data inp s) :
    Leaves (fun m => UpToRun hdr prior data inp m ∧ m.work.pos.toNat = inp.length) (tailLoop inp k s) := by
  have hin := h.inChunk.pos_le
  induction k generalizing s with
  | zero => exact ⟨h, Nat.le_antisymm hin hfuel⟩
  | succ k ih =>
    unfold tailLoop
    split
    · rename_i hpos
      have hturn : Leaves (fun m => UpToRun hdr prior data inp m ∧ m.work.pos.toNat = s.work.pos.toNat + 1)
          (literalStep inp s) := (literalStep_upToRun hlen hpos h).mono_run fun m hm hm' => by
        obtain ⟨b, -, rfl⟩ := literalStep_eq_run.1 hm
        exact ⟨hm', advance_toNat (pos := s.work.pos) (n := 1) (by omega)⟩
      exact hturn.bind fun m ⟨hm, hm'⟩ => ih (by omega) hm hm.inChunk.pos_le
    · exact ⟨h, by omega⟩

/-- After its final flush the scan has sent the whole chunk (R108). -/
theorem scan_stands {base : Position} (hprior : 8 ∣ prior.length) (hlen : inp.length < 2 ^ 32)
    (hbase : base.toNat + inp.length < 2 ^ 64) (hprobing : Probing inp base s) (h : UpToRun hdr prior data inp s) :
    Leaves (fun m => ∃ q, Stands hdr prior q (data ++ inp) m) (scan inp s) := by
  unfold scan
  refine (scanLoop_upToRun inp.length hprior hlen hbase hprobing h).bind fun a ha => ?_
  refine (tailLoop_upToRun inp.length hlen (Nat.le_add_left _ _) ha).bind fun b ⟨hb, hend⟩ => ?_
  have hflush := flushPending_stands b.work.more hprior hb
  rwa [hend, List.take_length] at hflush

/-! ### ENCODE (47_commands.md R132) -/

/-- The data phase sends the whole chunk: stored at level 0, scanned at level 1. -/
theorem dataPhase_stands {base : Position} (hprior : 8 ∣ prior.length) (hlen : inp.length < 2 ^ 32)
    (hbase : base.toNat + inp.length < 2 ^ 64) (hpos : s.work.pos = 0#32) (hprobing : Probing inp base s)
    (h : Stands hdr prior p data s) : Leaves (fun m => ∃ q, Stands hdr prior q (data ++ inp) m) (dataPhase inp s) := by
  unfold dataPhase
  split
  · split
    · have hstored := storedLoop_stands (inp := inp) s.work.more hprior (h.phase_of_flushed hprobing.flushed)
        (Nat.zero_add inp.length).le (Nat.lt_succ_self _) h
      rw [List.drop_zero, List.take_length] at hstored
      exact hstored.mono fun m hm => ⟨_, hm⟩
    · rename_i hempty
      obtain rfl : inp = [] := List.length_eq_zero_iff.1 (Nat.eq_zero_of_not_pos hempty)
      rw [List.append_nil]
      exact ⟨p, h⟩
  · refine scan_stands hprior hlen hbase hprobing ⟨hprobing.inChunk, hprobing.flushed, p, ?_⟩
    rw [hpos]
    simpa using h

/-- No deflate data leave a stream in INIT. -/
theorem deflatePrefix_phase_ne_init {bits : List Bool} (h : DeflatePrefix bits p data) : p ≠ .init := by
  induction h with
  | literal _ _ hopen => rcases hopen with rfl | rfl <;> decide
  | stored final => cases final <;> decide
  | _ => decide

/-- In INIT, where no bit is pending, the header phase is OutByte of the container's header (R125). -/
theorem headerPhase_of_init (hp : s.ctx.phase = .init) (hempty : s.ctx.bitCount = 0#5) :
    headerPhase s = (outBytes (headerBytes s.ctx.format) s).bind fun m => .run (m.withPhase .eob) := by
  cases hfmt : s.ctx.format with
  | gzip => simp [headerPhase, hp, hfmt, writeBytes, writeRawBytes_aligned hempty]
  | zlib => simp [headerPhase, hp, hfmt, writeBytes, writeRawBytes_aligned hempty]
  | deflate => simp [headerPhase, hp, hfmt, headerBytes]

/-- How the stream stands between two commands: nothing has been sent, or the bits sent and pending stand for the data. -/
def Between (prior : List Bool) (data : List Byte) (c : Context) : Prop :=
  (c.phase = .init ∧ prior = [] ∧ data = []) ∨ DeflatePrefix (prior ++ pendingBits c) c.phase data

/-- The header phase sends the header where the stream has not started, and adds nothing to the deflate data (R125). -/
theorem headerPhase_stands {m : State} (hs : Sent [] s) (hc : ContextOk s.ctx) (hstart : Between prior data s.ctx)
    (hrun : headerPhase s = .run m) : ∃ p, Stands (headerSent s.ctx) prior p data m := by
  have hwrote : Wrote [] s := ⟨hs, hs.cursor ▸ Nat.zero_le _⟩
  have hsettled : SettledIn s.ctx.phase s := settledIn_of_contextOk hc (hs.out ▸ List.Pairwise.nil)
  have hsound := (leaves_of_run (headerPhase_leaves hsettled) hrun).toSoundIn
  by_cases hp : s.ctx.phase = .init
  · have hempty : s.ctx.bitCount = 0#5 := hc.noPending (hp ▸ rfl)
    rw [headerPhase_of_init hp hempty] at hrun
    obtain ⟨a, ha, hrest⟩ := bind_eq_run.1 hrun
    obtain rfl := Flow.run.inj hrest
    obtain ⟨hw, hctx⟩ := wrote_outBytes hwrote ha
    have hnone : pendingBits (a.withPhase .eob).ctx = [] := by
      rw [pendingBits_eq, withPhase_bitCount, hctx, hempty]
      rfl
    rcases hstart with ⟨-, rfl, rfl⟩ | hd
    · rw [hp] at hsound
      refine ⟨.eob, [], ⟨hsound, [], ?_, by rw [hnone]; rfl⟩, .start⟩
      rw [headerSent, if_pos hp, List.append_nil]
      exact hw.frame rfl rfl rfl
    · exact absurd hp (deflatePrefix_phase_ne_init hd)
  · rw [headerPhase_of_started hp] at hrun
    obtain rfl := Flow.run.inj hrun
    rcases hstart with ⟨hinit, -⟩ | hd
    · exact absurd hinit hp
    · refine ⟨s.ctx.phase, _, ⟨hsettled.toSoundIn, [], ?_, by rw [bitsOf, List.flatMap_nil, List.append_nil]⟩, hd⟩
      rwa [headerSent, if_neg hp]
end

/-- An ENCODE that answers OK has passed its pre-checks (60_exceptions.md R137). -/
theorem encode_accepted_of_ok {more : Bool} {s t : State} {n : Word} (hf : s.faulted = false)
    (ht : exec (.encode more) s = .next t) (hok : t.response = some ⟨0#4, n⟩) :
    (s.ctx.phase = .init ∨ s.ctx.phase = .eob ∨ s.ctx.phase = .fixed) ∧
      s.ctx.inputLen.toNat + s.operands.ilen.toNat < 2 ^ 64 := by
  rcases execEncode_prechecks more hf with ⟨cause, hc, hx⟩ | haccepted
  · obtain rfl := Host.Outcome.next.inj (hx.symm.trans ht)
    exact absurd rfl (status_of_precheck hc hok).1
  · exact haccepted

/-- Settles O43: the header adds no deflate data, and the data phase continues the stream by the whole chunk. -/
theorem encodeSendsDeflateOfChunk : Obligations.EncodeSendsDeflateOfChunk := by
  intro more s t n prior data hf hc hkept hprior hstart ht hok
  obtain ⟨hp, hcount⟩ := encode_accepted_of_ok hf ht hok
  obtain ⟨m, hrun, rfl⟩ := encodeBody_of_ok hf hkept ht hok
  obtain ⟨a, d, ha, hd, rfl⟩ := encodeBody_eq_run.1 hrun
  have hchunk := length_chunkOf s.operands
  have hprobing := leaves_of_run (headerPhase_probing hc hp (chunkOf s.operands)) ha
  obtain ⟨p, hheader⟩ := headerPhase_stands (s := beginEncode more s) (sent_nil rfl rfl) hc hstart ha
  have hpos : (checksumPhase (chunkOf s.operands) a).work.pos = 0#32 := (headerPhase_emits _ a (.inl ha)).pos
  have hstands : Stands _ _ p data (checksumPhase (chunkOf s.operands) a) := hheader.frame rfl rfl rfl rfl rfl rfl
  obtain ⟨q, bits, ⟨hsound, body, hwrote, rfl⟩, hdeflate⟩ := leaves_of_run
    (dataPhase_stands hprior (hchunk ▸ s.operands.ilen.isLt) (hchunk ▸ hcount) hpos hprobing hstands) hd
  obtain rfl := hsound.phase
  exact ⟨body, hwrote.out, hdeflate⟩

end Sys2Proof.Machine.StreamProofs

end


/-! PROOFS. How `state` moves (45_block_state_machine.md R119): the operations of the bit queue do not write it, and those that
an ENCODE makes after its header write only the phases that its MORE allows. Nothing is asked of the context. -/
section

namespace Sys2Proof.Machine.StreamProofs

open Sys2Proof.Machine.Laws Sys2Proof.Machine.StateProofs Sys2Proof.Machine.MemoryProofs Sys2Proof.Machine.QueueProofs
open Sys2Proof.Machine.MatchFinderProofs

/-! ### Operations that leave `state` (41_bit_queue.md) -/

/-- The second state is in the phase of the first. -/
def SamePhase (s s' : State) : Prop := s'.ctx.phase = s.ctx.phase

theorem samePhase_bind {s : State} {x : Flow} {f : State → Flow} (hx : Ends SamePhase s x)
    (hf : ∀ m, Ends SamePhase m (f m)) : Ends SamePhase s (x.bind f) :=
  ends_bind (R := SamePhase) (fun _ _ _ h g => g.trans h) hx hf

theorem samePhase_outByte (b : Byte) (s : State) : Ends SamePhase s (outByte b s) := by
  rcases outByte_cases b s with ⟨-, hx⟩ | ⟨-, hx⟩ <;> rw [hx]
  · exact ends_overflow rfl
  · exact ends_run rfl

theorem samePhase_outBytes (bs : List Byte) (s : State) : Ends SamePhase s (outBytes bs s) := by
  induction bs generalizing s with
  | nil => exact ends_run rfl
  | cons b rest ih => exact samePhase_bind (samePhase_outByte b s) ih

theorem samePhase_drain (k : Nat) (s : State) : Ends SamePhase s (drain k s) := by
  induction k generalizing s with
  | zero => exact ends_run rfl
  | succ k ih =>
    unfold drain
    split
    · exact ends_run rfl
    · exact samePhase_bind (samePhase_outByte _ s) fun m => ih _

theorem samePhase_enqueue (f : Field) (s : State) : Ends SamePhase s (enqueue f s) := by
  unfold enqueue
  split
  · exact ends_refused s _
  · split
    · exact ends_refused s _
    · exact samePhase_drain 3 _

theorem samePhase_flushToByte (s : State) : Ends SamePhase s (flushToByte s) := by
  unfold flushToByte
  refine samePhase_bind ?_ fun m => ends_run rfl
  split
  · exact samePhase_outByte _ s
  · exact ends_run rfl

theorem samePhase_writeRawBytes (bs : List Byte) (s : State) : Ends SamePhase s (writeRawBytes bs s) := by
  unfold writeRawBytes
  split
  · exact samePhase_outBytes bs s
  · exact ends_refused s _

theorem samePhase_writeRaw (inp : List Byte) (i n : Nat) (s : State) : Ends SamePhase s (writeRaw inp i n s) := by
  unfold writeRaw
  split
  · exact ends_stopped s _
  · exact samePhase_writeRawBytes _ s

theorem samePhase_emitLits (bs : List Byte) (s : State) : Ends SamePhase s (emitLits bs s) := by
  induction bs generalizing s with
  | nil => exact ends_run rfl
  | cons b rest ih => exact samePhase_bind (samePhase_enqueue _ s) ih

theorem samePhase_emitMatch (len dist : Nat) (s : State) : Ends SamePhase s (emitMatch len dist s) := by
  unfold emitMatch
  split
  · exact ends_refused s _
  · exact ends_refused s _
  · exact samePhase_bind (samePhase_enqueue _ s) fun m => samePhase_enqueue _ m

theorem samePhase_literalStep (inp : List Byte) (s : State) : Ends SamePhase s (literalStep inp s) := by
  unfold literalStep
  split
  · exact ends_stopped s _
  · exact ends_run rfl

theorem samePhase_tailLoop (inp : List Byte) (k : Nat) (s : State) : Ends SamePhase s (tailLoop inp k s) := by
  induction k generalizing s with
  | zero => exact ends_run rfl
  | succ k ih =>
    unfold tailLoop
    split
    · exact samePhase_bind (samePhase_literalStep inp s) ih
    · exact ends_run rfl

/-! ### The phases of an ENCODE past its header -/

/-- The phases that an ENCODE with this MORE can be in past its header: no final block is opened where it is 1 (R112, R115). -/
def Encodable (more : Bool) (p : Phase) : Prop := p = .eob ∨ p = .fixed ∨ more = false ∧ (p = .last ∨ p = .done)

theorem rank_of_encodable {more : Bool} {p : Phase} (h : Encodable more p) :
    2 ≤ p.rank ∧ p ≠ .ended ∧ (more = true → p = .eob ∨ p = .fixed) := by
  rcases h with rfl | rfl | ⟨rfl, rfl | rfl⟩ <;> simp [Phase.rank]

/-- A step that does not leave those phases. -/
def StaysEncodable (more : Bool) (s s' : State) : Prop := Encodable more s.ctx.phase → Encodable more s'.ctx.phase

section
variable {more : Bool} {s : State}

theorem encodable_openPhase {b : Bool} (hb : more = true → b = true) : Encodable more (openPhase b) := by
  cases b
  · exact .inr (.inr ⟨Bool.eq_false_of_not_eq_true fun h => Bool.noConfusion (hb h), .inl rfl⟩)
  · exact .inr (.inl rfl)

theorem encodable_storedPhase {b : Bool} (hb : more = true → b = true) : Encodable more (storedPhase b) := by
  cases b
  · exact .inr (.inr ⟨Bool.eq_false_of_not_eq_true fun h => Bool.noConfusion (hb h), .inr rfl⟩)
  · exact .inl rfl

/-- A sequence whose second part starts where the first has run to. -/
theorem encodable_bind_of_run {x : Flow} {f : State → Flow} (hx : Ends (StaysEncodable more) s x)
    (hf : ∀ m, x = .run m → Ends (StaysEncodable more) m (f m)) : Ends (StaysEncodable more) s (x.bind f) := by
  cases x with
  | run m => exact fun t ht hs => hf m rfl t ht (hx m (.inl rfl) hs)
  | overflow m => exact hx
  | stopped e => exact ends_stopped s e
  | refused r => exact ends_refused s r

theorem encodable_bind {x : Flow} {f : State → Flow} (hx : Ends (StaysEncodable more) s x)
    (hf : ∀ m, Ends (StaysEncodable more) m (f m)) : Ends (StaysEncodable more) s (x.bind f) :=
  encodable_bind_of_run hx fun m _ => hf m

theorem encodable_of_samePhase {x : Flow} (h : Ends SamePhase s x) : Ends (StaysEncodable more) s x :=
  fun t ht hs => by rwa [h t ht]

/-- An operation that starts with a write of `state` and does not write it again. -/
theorem encodable_of_withPhase {p : Phase} {x : Flow} (hp : Encodable more p) (h : Ends SamePhase (s.withPhase p) x) :
    Ends (StaysEncodable more) s x := fun t ht _ => by
  rw [h t ht, withPhase_phase]
  exact hp

theorem encodable_openFixed {b : Bool} (hb : more = true → b = true) (s : State) :
    Ends (StaysEncodable more) s (openFixed b s) := by
  have hp := encodable_openPhase hb
  cases b
  · exact encodable_of_withPhase (p := .last) hp (samePhase_enqueue (blockHeader true btypeFixed) _)
  · exact encodable_of_withPhase (p := .fixed) hp (samePhase_enqueue (blockHeader false btypeFixed) _)

theorem encodable_matchOpen (s : State) : Ends (StaysEncodable more) s (matchOpen s) := by
  unfold matchOpen
  split
  · exact encodable_openFixed (fun _ => rfl) s
  · exact ends_run id

theorem encodable_storedPiece {final : Bool} (hfinal : more = true → (!final) = true) (inp : List Byte) (i c : Nat)
    (s : State) : Ends (StaysEncodable more) s (storedPiece inp i c final s) := by
  have hp := encodable_storedPhase hfinal
  unfold storedPiece
  refine encodable_bind ?_ fun m => encodable_of_withPhase (p := if final then .done else .eob) ?_ ?_
  · split
    · exact ends_run id
    · exact encodable_of_samePhase (samePhase_enqueue _ s)
  · cases final <;> exact hp
  · exact samePhase_bind (samePhase_enqueue _ _) fun m => samePhase_bind (samePhase_flushToByte m) fun m =>
      samePhase_bind (samePhase_writeRawBytes _ m) fun m => samePhase_bind (samePhase_writeRawBytes _ m) fun m =>
        samePhase_writeRaw inp i c m

theorem encodable_storedLoop {b : Bool} (hb : more = true → b = true) (inp : List Byte) (k i rem : Nat) (s : State) :
    Ends (StaysEncodable more) s (storedLoop inp b k i rem s) := by
  induction k generalizing i rem s with
  | zero => exact ends_run id
  | succ k ih =>
    unfold storedLoop
    refine encodable_bind (encodable_storedPiece (fun h => by simp [hb h]) inp i _ s) fun m => ?_
    split
    · exact ends_run id
    · exact ih _ _ m

theorem encodable_huffOpen {b : Bool} (hb : more = true → b = true) (s : State) :
    Ends (StaysEncodable more) s (huffOpen b s) := by
  unfold huffOpen
  split
  · exact encodable_openFixed hb s
  · split
    · exact ends_run id
    · rename_i hlast
      have hmore : more = true → false = true := fun h => absurd (hb h) hlast
      exact encodable_bind (encodable_of_samePhase (samePhase_enqueue _ s)) fun m t ht _ =>
        encodable_openFixed hmore (m.withPhase .eob) t ht (.inl rfl)

theorem encodable_flushLits {b : Bool} (hb : more = true → b = true) (inp : List Byte) (i n b9 : Nat) (s : State) :
    Ends (StaysEncodable more) s (flushLits inp i n b9 b s) := by
  unfold flushLits
  split
  · exact encodable_storedLoop hb inp _ i n s
  · unfold huffLits
    split
    · exact ends_stopped s _
    · exact encodable_bind (encodable_huffOpen hb s) fun m => encodable_of_samePhase (samePhase_emitLits _ m)

theorem encodable_flushPending {b : Bool} (hb : more = true → b = true) (inp : List Byte) (s : State) :
    Ends (StaysEncodable more) s (flushPending inp b s) := by
  unfold flushPending
  split
  · exact ends_run id
  · exact encodable_flushLits hb inp _ _ _ s

theorem encodable_acceptMatch (inp : List Byte) (dist len : Nat) (s : State) :
    Ends (StaysEncodable more) s (acceptMatch inp dist len s) := by
  unfold acceptMatch
  refine encodable_bind (encodable_flushPending (fun _ => rfl) inp s) fun m => ?_
  exact encodable_bind (s := m) (encodable_matchOpen (m.withScan _ _ _)) fun m =>
    encodable_bind (encodable_of_samePhase (samePhase_emitMatch _ _ m)) fun m => ends_run id

theorem encodable_judge (inp : List Byte) (dist offset : Nat) (s : State) :
    Ends (StaysEncodable more) s (judge inp dist offset s) := by
  unfold judge
  dsimp only
  split
  · exact encodable_of_samePhase (samePhase_literalStep inp s)
  · split
    · exact ends_refused s _
    · exact ends_refused s _
    · split
      · exact encodable_of_samePhase (samePhase_literalStep inp s)
      · exact encodable_acceptMatch inp _ _ s

theorem encodable_scanStep (inp : List Byte) (s : State) : Ends (StaysEncodable more) s (scanStep inp s) := by
  unfold scanStep
  split
  · exact ends_stopped s _
  · rename_i word _
    dsimp only
    split
    · exact encodable_of_samePhase (samePhase_literalStep inp (probe word s).2)
    · exact ends_refused s _
    · exact encodable_judge inp _ _ (probe word s).2

theorem encodable_scanLoop (inp : List Byte) (k : Nat) (s : State) : Ends (StaysEncodable more) s (scanLoop inp k s) := by
  induction k generalizing s with
  | zero => exact ends_run id
  | succ k ih =>
    unfold scanLoop
    split
    · exact encodable_bind (encodable_scanStep inp s) ih
    · exact ends_run id

/-- The command's MORE is that of the final flush, which alone can open a final block (R108). -/
theorem encodable_scan (inp : List Byte) (hmore : s.work.more = more) : Ends (StaysEncodable more) s (scan inp s) := by
  unfold scan
  refine encodable_bind_of_run (encodable_scanLoop inp _ s) fun a ha => ?_
  refine encodable_bind_of_run (encodable_of_samePhase (samePhase_tailLoop inp _ a)) fun b hb => ?_
  have hkept : b.work.more = more :=
    (tailLoop_kept inp _ a b (.inl hb)).more.trans ((scanLoop_kept inp _ s a (.inl ha)).more.trans hmore)
  exact encodable_flushPending hkept.trans inp b

/-- The data of an ENCODE leave `state` among the phases that its MORE allows (R132). -/
theorem encodable_dataPhase (inp : List Byte) (hmore : s.work.more = more) :
    Ends (StaysEncodable more) s (dataPhase inp s) := by
  unfold dataPhase
  split
  · split
    · exact encodable_storedLoop hmore.trans inp _ _ _ s
    · exact ends_run id
  · exact encodable_scan inp hmore
end

/-! ### The commands -/

/-- After the header phase a stream that accepts ENCODE is in EOB or FIXED (R125). -/
theorem headerPhase_encodable {s m : State} (more : Bool)
    (hp : s.ctx.phase = .init ∨ s.ctx.phase = .eob ∨ s.ctx.phase = .fixed) (hrun : headerPhase s = .run m) :
    Encodable more m.ctx.phase := by
  by_cases hinit : s.ctx.phase = .init
  · rw [headerPhase, if_pos hinit] at hrun
    obtain ⟨a, -, hrest⟩ := bind_eq_run.1 hrun
    obtain rfl := Flow.run.inj hrest
    exact .inl rfl
  · obtain rfl := Flow.run.inj ((headerPhase_of_started hinit).symm.trans hrun)
    exact (hp.resolve_left hinit).imp_right .inl

/-- An ENCODE that answers OK leaves one of the phases that its MORE allows. -/
theorem encodable_of_ok {more : Bool} {s t : State} {n : Word} (hf : s.faulted = false)
    (hkept : breached s.operands = false) (ht : exec (.encode more) s = .next t) (hok : t.response = some ⟨0#4, n⟩) :
    Encodable more t.ctx.phase := by
  obtain ⟨hp, -⟩ := encode_accepted_of_ok hf ht hok
  obtain ⟨m, hrun, rfl⟩ := encodeBody_of_ok hf hkept ht hok
  obtain ⟨a, d, ha, hd, rfl⟩ := encodeBody_eq_run.1 hrun
  have hmore : (checksumPhase (chunkOf s.operands) a).work.more = more := (headerPhase_emits _ a (.inl ha)).more
  have hstart : Encodable more a.ctx.phase := headerPhase_encodable (s := beginEncode more s) more hp ha
  exact encodable_dataPhase _ hmore d (.inl hd) hstart

/-- FINISH faults in UNINIT and in END, before it does anything (60_exceptions.md R137), and otherwise runs its body. -/
theorem execFinish_prechecks {s : State} (hf : s.faulted = false) :
    (∃ cause, cause ≠ .outputOverflow ∧ execFinish s = .next (takeFault cause s)) ∨
      (s.ctx.phase ≠ .uninit ∧ s.ctx.phase ≠ .ended) := by
  by_cases hu : s.ctx.phase = .uninit
  · exact .inl ⟨.notInitialized, by decide, by simp [execFinish, hf, hu]⟩
  by_cases he : s.ctx.phase = .ended
  · exact .inl ⟨.finishAfterEnd, by decide, by simp [execFinish, hf, he]⟩
  · exact .inr ⟨hu, he⟩

/-- A FINISH that answers OK has passed its pre-checks and run its body to the end (R133). -/
theorem finishBody_of_ok {s t : State} {n : Word} (hf : s.faulted = false) (ht : exec .finish s = .next t)
    (hok : t.response = some ⟨0#4, n⟩) :
    (s.ctx.phase ≠ .uninit ∧ s.ctx.phase ≠ .ended) ∧ ∃ m, finishBody s = .run m ∧ t = complete m := by
  change execFinish s = .next t at ht
  rcases execFinish_prechecks hf with ⟨cause, hc, hx⟩ | ⟨hu, he⟩
  · obtain rfl := Host.Outcome.next.inj (hx.symm.trans ht)
    exact absurd rfl (status_of_precheck hc hok).1
  · rw [execFinish_of_accepted hf hu he] at ht
    rcases outcome_eq_next.1 ht with hrun | ⟨m, -, rfl⟩
    · exact ⟨⟨hu, he⟩, hrun⟩
    · cases hok

/-- The trailer is the end of the stream (R126). -/
theorem trailer_phase {s m : State} (hrun : trailer s = .run m) : m.ctx.phase = .ended := by
  obtain ⟨a, -, hrest⟩ := bind_eq_run.1 hrun
  obtain rfl := Flow.run.inj hrest
  rfl

theorem finishBody_phase {s m : State} (hrun : finishBody s = .run m) : m.ctx.phase = .ended := by
  simp only [finishBody, bind_eq_run] at hrun
  obtain ⟨_, -, _, -, _, -, _, -, htrailer⟩ := hrun
  exact trailer_phase htrailer

/-- An INIT that answers OK opens a stream (R131). -/
theorem init_phase_of_ok {level : BitVec 4} {format : BitVec 2} {s t : State} {n : Word} (hf : s.faulted = false)
    (ht : exec (.init level format) s = .next t) (hok : t.response = some ⟨0#4, n⟩) : t.ctx.phase = .init := by
  change execInit level format s = .next t at ht
  rcases execInit_cases level format s with ⟨hf', -⟩ | ⟨-, -, hx⟩ | ⟨-, -, -, hx⟩ | ⟨-, -, f, -, hx⟩
  · exact absurd (hf.symm.trans hf') (by decide)
  all_goals obtain rfl := Host.Outcome.next.inj (hx.symm.trans ht)
  · exact absurd rfl (status_of_precheck (by decide) hok).1
  · exact absurd rfl (status_of_precheck (by decide) hok).1
  · rfl

/-- Past the close ENCODE faults EncodeAfterClose, and its pre-check changes nothing of the context (R119). -/
theorem exec_encode_of_closed {more : Bool} {s : State} (hf : s.faulted = false)
    (hp : s.ctx.phase = .last ∨ s.ctx.phase = .done ∨ s.ctx.phase = .ended) :
    exec (.encode more) s = .next (takeFault .encodeAfterClose s) := by
  have hinit : s.ctx.phase ≠ .uninit := fun hu => by simp [hu] at hp
  change execEncode more s = _
  rw [execEncode, if_neg (by simp [hf]), if_neg hinit, if_pos hp]

/-- Settles O22: an ENCODE starts in a phase of rank 1 or 2 and leaves one that its MORE allows, the trailer of a FINISH writes
END, and past the close the pre-check of ENCODE faults. -/
theorem phaseMovesForward : Obligations.PhaseMovesForward := by
  refine ⟨fun more s t n hf hkept ht hok => ?_, fun s t n hf ht hok => ?_, fun level format s t n => init_phase_of_ok,
    fun more s hf hp => ⟨_, _, exec_encode_of_closed hf hp, rfl, rfl, rfl, rfl⟩⟩
  · have hbefore : 1 ≤ s.ctx.phase.rank ∧ s.ctx.phase.rank ≤ 2 := by
      rcases (encode_accepted_of_ok hf ht hok).1 with hp | hp | hp <;> rw [hp] <;> decide
    obtain ⟨hrank, hended, hopen⟩ := rank_of_encodable (encodable_of_ok hf hkept ht hok)
    exact ⟨hbefore.1, hbefore.2.trans hrank, hrank, hended, hopen⟩
  · obtain ⟨⟨hu, he⟩, m, hrun, rfl⟩ := finishBody_of_ok hf ht hok
    have hended : m.ctx.phase = .ended := finishBody_phase hrun
    have hbefore : 1 ≤ s.ctx.phase.rank ∧ s.ctx.phase.rank < Phase.ended.rank := by
      cases hp : s.ctx.phase <;> simp_all [Phase.rank]
    exact ⟨hbefore.1, hbefore.2.trans_eq (congrArg Phase.rank hended.symm), hended⟩

end Sys2Proof.Machine.StreamProofs

end


/-! PROOFS. What a FINISH sends as a deflate stream (46_framing.md R126 to R129, 47_commands.md R133): it closes the open block or
sends a last empty one, pads the stream to a byte, and writes the trailer after it. -/
section

namespace Sys2Proof.Machine.StreamProofs

open Sys2Proof.Machine.Laws Sys2Proof.Machine.StateProofs Sys2Proof.Machine.MemoryProofs Sys2Proof.Machine.QueueProofs

/-! ### The end of FINISH -/

theorem exec_finish_of_ended {s : State} (hf : s.faulted = false) (he : s.ctx.phase = .ended) :
    exec .finish s = .next (takeFault .finishAfterEnd s) := by
  simp [exec, execFinish, hf, he]

/-- Settles O21: the trailer of a FINISH that answers OK writes END, where the next FINISH fails its pre-check. -/
theorem secondFinishFaults : Obligations.SecondFinishFaults := by
  refine ⟨fun s t n hf ht hok => ?_, fun s hf he => ⟨_, _, exec_finish_of_ended hf he, rfl, rfl, rfl, rfl, rfl⟩⟩
  obtain ⟨-, m, hrun, rfl⟩ := finishBody_of_ok hf ht hok
  have hended : m.ctx.phase = .ended := finishBody_phase hrun
  exact ⟨hended, (finishBody_emits s m (.inl hrun)).faulted.trans hf⟩

/-! ### The blocks that FINISH closes (R133) -/

section
variable {hdr : List Byte} {prior : List Bool} {p : Phase} {data : List Byte} {s m : State}

/-- The phases that deflate data can leave a stream in. -/
theorem deflatePrefix_phase {bits : List Bool} (h : DeflatePrefix bits p data) :
    p = .eob ∨ p = .fixed ∨ p = .last ∨ p = .done := by
  induction h with
  | literal _ _ hopen => exact .inr (hopen.imp_right .inl)
  | stored final => cases final <;> simp
  | _ => simp

theorem Stands.phase_cases (h : Stands hdr prior p data s) : p = .eob ∨ p = .fixed ∨ p = .last ∨ p = .done := by
  obtain ⟨_, _, hd⟩ := h
  exact deflatePrefix_phase hd

/-- The end-of-block code closes the last block (R93, R114). -/
theorem emitEob_stands_last (h : Stands hdr prior .last data s) :
    Leaves (fun m => ∃ bits, Carrying hdr prior .last bits m ∧ DeflatePrefix bits .done data) (emitEob s) := by
  obtain ⟨bits, hc, hd⟩ := h
  exact (enqueue_carrying ⟨0#32, 7⟩ hc).mono fun m hm => ⟨_, hm, hd.closeLast⟩

/-- FINISH first closes the open block: another one may follow it, or it was the last. -/
theorem closeBlock_stands (h : Stands hdr prior p data s) :
    Leaves (fun m => ∃ q, (q = .eob ∨ q = .done) ∧ Stands hdr prior q data m) (closeBlock s) := by
  unfold closeBlock
  rw [h.phase]
  rcases h.phase_cases with rfl | rfl | rfl | rfl
  · exact ⟨.eob, .inl rfl, h⟩
  · exact (emitEob_stands h).bind fun m ⟨bits, hm, hd⟩ => ⟨.eob, .inl rfl, bits, hm.withPhase .eob, hd⟩
  · exact (emitEob_stands_last h).bind fun m ⟨bits, hm, hd⟩ => ⟨.done, .inr rfl, bits, hm.withPhase .done, hd⟩
  · exact ⟨.done, .inr rfl, h⟩

/-- Where no last block was sent, FINISH sends one that is stored and empty (R115, R133). -/
theorem finalEmptyBlock_stands (hprior : 8 ∣ prior.length) (hp : p = .eob ∨ p = .done) (h : Stands hdr prior p data s) :
    Leaves (Stands hdr prior .done data) (finalEmptyBlock s) := by
  unfold finalEmptyBlock
  rw [h.phase]
  rcases hp with rfl | rfl
  · obtain ⟨bits, hc, hd⟩ := h
    refine (enqueue_carrying _ hc).bind fun m hm => (flushToByte_carrying hm).bind fun m ⟨ha, pad, hpad, hc⟩ => ?_
    rw [fieldBits_blockHeader_stored] at hc
    have hmod := hc.length_mod hprior ha.noBits
    simp only [List.length_append, List.length_cons, List.length_nil, List.length_replicate] at hmod
    refine (writeRawBytes_carrying _ ha hc).bind fun m ⟨ha, hc⟩ => ?_
    refine (writeRawBytes_carrying _ ha hc).bind fun m ⟨ha, hc⟩ => ?_
    have hblock := DeflatePrefix.stored true pad [] hd (Nat.zero_le _) hmod hpad
    rw [List.append_nil, List.append_nil, bitsOf_append, ← List.append_assoc] at hblock
    exact ⟨_, Carrying.withPhase ⟨ha.toSoundIn, hc⟩ .done, hblock⟩
  · exact h

/-! ### The trailer (R126) -/

/-- At a byte boundary a raw writer that runs to its end writes its bytes after those before (R67). -/
theorem wrote_writeRawBytes {as bs : List Byte} (hempty : s.ctx.bitCount = 0#5) (h : Wrote as s)
    (hrun : writeRawBytes bs s = .run m) : Wrote (as ++ bs) m ∧ m.ctx = s.ctx := by
  rw [writeRawBytes_aligned hempty] at hrun
  exact wrote_outBytes h hrun

theorem wrote_trailer {as : List Byte} (hempty : s.ctx.bitCount = 0#5) (h : Wrote as s) (hrun : trailer s = .run m) :
    Wrote (as ++ trailerBytes s.ctx.format s.ctx.crc s.ctx.inputLen) m := by
  obtain ⟨a, ha, hend⟩ := bind_eq_run.1 hrun
  obtain rfl := Flow.run.inj hend
  suffices hw : Wrote (as ++ trailerBytes s.ctx.format s.ctx.crc s.ctx.inputLen) a from hw.frame rfl rfl rfl
  cases hfmt : s.ctx.format <;> rw [hfmt] at ha
  case gzip =>
    obtain ⟨b, hb, hlen⟩ := bind_eq_run.1 ha
    obtain ⟨hw, hctx⟩ := wrote_writeRawBytes hempty h hb
    have hw' := (wrote_writeRawBytes (hctx ▸ hempty) hw hlen).1
    rwa [hctx, List.append_assoc] at hw'
  case zlib => exact (wrote_writeRawBytes hempty h ha).1
  case deflate =>
    obtain rfl := Flow.run.inj ha
    exact (List.append_nil as).symm ▸ h

/-! ### FINISH (R133) -/

/-- The parts of a FINISH that completes. -/
theorem finishBody_eq_run : finishBody s = .run m ↔ ∃ a b c d, headerPhase (beginFinish s) = .run a ∧
    closeBlock a = .run b ∧ finalEmptyBlock b = .run c ∧ flushToByte c = .run d ∧ trailer d = .run m := by
  simp only [finishBody, bind_eq_run]
  constructor
  · rintro ⟨a, ha, b, hb, c, hc, d, hd, hm⟩
    exact ⟨a, b, c, d, ha, hb, hc, hd, hm⟩
  · rintro ⟨a, b, c, d, ha, hb, hc, hd, hm⟩
    exact ⟨a, ha, b, hb, c, hc, d, hd, hm⟩

/-- FINISH sends what is missing of the header, then bytes that close the deflate stream and pad it with fewer than 8 zero
bits, then the trailer of the registers it found. -/
theorem finishBody_sends (hc : ContextOk s.ctx) (hprior : 8 ∣ prior.length) (hstart : Between prior data s.ctx)
    (hrun : finishBody s = .run m) :
    ∃ body bits pad,
      m.out = windowOf (headerSent s.ctx ++ body ++ trailerBytes s.ctx.format s.ctx.crc s.ctx.inputLen) ∧
      prior ++ bitsOf body = bits ++ List.replicate pad false ∧ pad < 8 ∧ DeflatePrefix bits .done data := by
  obtain ⟨a, b, c, d, ha, hb, hc', hd, hm⟩ := finishBody_eq_run.1 hrun
  obtain ⟨p, hopen⟩ := headerPhase_stands (s := beginFinish s) (sent_nil rfl rfl) hc hstart ha
  obtain ⟨q, hq, hclosed⟩ := leaves_of_run (closeBlock_stands hopen) hb
  obtain ⟨bits, hdone, hdeflate⟩ := leaves_of_run (finalEmptyBlock_stands hprior hq hclosed) hc'
  obtain ⟨haligned, pad, hpad, body, hwrote, hbits⟩ := leaves_of_run (flushToByte_carrying hdone) hd
  have hemit : Emits (beginFinish s) d := (headerPhase_emits _ a (.inl ha)).trans <|
    (closeBlock_emits a b (.inl hb)).trans <| (finalEmptyBlock_emits b c (.inl hc')).trans
      (flushToByte_emits c d (.inl hd))
  have hout := (wrote_trailer haligned.noBits hwrote hm).out
  have hnone : pendingBits d.ctx = [] := by rw [pendingBits_eq, haligned.noBits]; rfl
  rw [hnone, List.append_nil] at hbits
  rw [hemit.format, hemit.crc, hemit.inputLen] at hout
  exact ⟨body, bits, pad, hout, hbits, hpad, hdeflate⟩
end

end Sys2Proof.Machine.StreamProofs

end


/-! PROOFS. A whole stream (46_framing.md R127, R128): what holds between the commands of a session, and what the bytes of all its
commands are when FINISH has completed it. -/
section

namespace Sys2Proof.Machine.SessionProofs

open Sys2Proof.Machine.Laws Sys2Proof.Machine.StateProofs Sys2Proof.Machine.MemoryProofs Sys2Proof.Machine.QueueProofs
open Sys2Proof.Machine.ChecksumProofs Sys2Proof.Machine.MatchFinderProofs Sys2Proof.Machine.StreamProofs

/-! ### What one ENCODE leaves in the registers of the trailer (47_commands.md R132) -/

/-- From `s` to `t` the chunk at the port has gone into the checksum and the length of the stream. -/
structure CountsChunk (s t : State) : Prop where
  faulted : t.faulted = s.faulted
  format : t.ctx.format = s.ctx.format
  crc : t.ctx.crc = checksum s.ctx.format s.ctx.crc (chunkOf s.operands)
  inputLen : t.ctx.inputLen = s.ctx.inputLen + s.operands.ilen.setWidth 64

theorem encodeBody_countsChunk {more : Bool} {s m : State} (hrun : encodeBody more s = .run m) : CountsChunk s m := by
  obtain ⟨a, d, ha, hd, rfl⟩ := encodeBody_eq_run.1 hrun
  have hemit : Emits (beginEncode more s) a := headerPhase_emits _ a (.inl ha)
  have hkept := dataPhase_kept _ _ d (.inl hd)
  have hilen : d.work.ilen = s.operands.ilen := hkept.ilen.trans hemit.ilen
  have hinput : d.ctx.inputLen = s.ctx.inputLen := hkept.inputLen.trans hemit.inputLen
  refine ⟨hkept.faulted.trans hemit.faulted, hkept.format.trans hemit.format, hkept.crc.trans ?_, ?_⟩
  · rw [checksumPhase_crc, hemit.format, hemit.crc]
    rfl
  · rw [withInputLen_inputLen, hilen, hinput]

/-- The body of ENCODE leaves a good context, whatever the fault registers of the core hold. -/
theorem encodeBody_contextOk {more : Bool} {s m : State} (hc : ContextOk s.ctx)
    (hp : s.ctx.phase = .init ∨ s.ctx.phase = .eob ∨ s.ctx.phase = .fixed)
    (hlen : s.ctx.inputLen.toNat + s.operands.ilen.toNat < 2 ^ 64) (hrun : encodeBody more s = .run m) :
    ContextOk m.ctx := by
  have hcounts := encodeBody_countsChunk hrun
  have hchunk := length_chunkOf s.operands
  obtain ⟨a, d, ha, hd, rfl⟩ := encodeBody_eq_run.1 hrun
  obtain ⟨-, hscan, hlevel⟩ := leaves_of_run (headerPhase_scanning hc hp _) ha
  obtain ⟨p, hinit, hsettled, hslots, hzero⟩ := leaves_of_run (dataPhase_leaves (hchunk ▸ hlen) hscan hlevel) hd
  refine contextOk_of_settledIn (hsettled.withInputLen _) hinit ?_ ?_ hzero
  · rw [hcounts.inputLen, absolute_toNat hlen, ← hchunk]
    exact hslots
  · rw [hcounts.format, hcounts.crc]
    exact (checksumOk_of_contextOk hc).checksum _

/-! ### The stream between two commands -/

/-- What holds between two commands of a stream of format `f` that has sent the bytes `sent` and stands for `data`: the
registers of the trailer are those of `data`, and what was sent, with the header if it is still to be sent, is the header and
then bytes of deflate data. -/
structure Standing (f : Format) (s : State) (sent data : List Byte) : Prop where
  faulted : s.faulted = false
  contextOk : ContextOk s.ctx
  format : s.ctx.format = f
  crc : s.ctx.crc = checksum f (crcSeed f) data
  inputLen : s.ctx.inputLen = BitVec.ofNat 64 data.length
  stream : ∃ body, sent ++ headerSent s.ctx = headerBytes f ++ body ∧ Between (bitsOf body) data s.ctx

/-- Operands handed over at the port are no part of the stream. -/
theorem Standing.acceptOperands {f : Format} {s : State} {sent data : List Byte} (h : Standing f s sent data)
    (o : Operands) : Standing f (acceptOperands o s) sent data :=
  ⟨h.faulted, h.contextOk, h.format, h.crc, h.inputLen, h.stream⟩

/-- An INIT that answers OK has written the context of a new stream of its format (R131). -/
theorem init_ctx_of_ok {f : Format} {level : BitVec 4} {s t : State} {n : Word} (hf : s.faulted = false)
    (ht : exec (.init level (formatCode f)) s = .next t) (hok : t.response = some ⟨0#4, n⟩) :
    t.faulted = false ∧ t.ctx = initContext (level.setWidth 1) f := by
  change execInit level (formatCode f) s = .next t at ht
  by_cases hl : level.toNat ≤ 1
  · obtain rfl := Host.Outcome.next.inj ((execInit_of_legal hf hl (formatOfField_formatCode f)).symm.trans ht)
    exact ⟨hf, rfl⟩
  · obtain rfl := Host.Outcome.next.inj ((execInit_of_badLevel hf (Nat.not_le.1 hl)).symm.trans ht)
    exact absurd rfl (status_of_precheck (by decide) hok).1

theorem checksum_nil (f : Format) (r : Word) : checksum f r [] = r := by
  cases f <;> rfl

theorem standing_of_init {f : Format} {level : BitVec 4} {s t : State} {n : Word} (hf : s.faulted = false)
    (ht : exec (.init level (formatCode f)) s = .next t) (hok : t.response = some ⟨0#4, n⟩) : Standing f t [] [] := by
  obtain ⟨hf', hctx⟩ := init_ctx_of_ok hf ht hok
  refine ⟨hf', ?_, ?_, ?_, ?_, [], ?_, ?_⟩ <;> rw [hctx]
  · exact contextOk_initContext _ f
  · rfl
  · exact (checksum_nil f _).symm
  · rfl
  · exact (List.append_nil _).symm
  · exact .inl ⟨rfl, rfl, rfl⟩

theorem map_snd_windowOf (bs : List Byte) : (windowOf bs).map Prod.snd = bs :=
  List.map_snd_zip (by rw [List.length_range])

theorem eight_dvd_length_bitsOf (bs : List Byte) : 8 ∣ (bitsOf bs).length := length_bitsOf bs ▸ Nat.dvd_mul_right 8 _

/-- Once deflate data have been sent the header is no longer to be sent (R125). -/
theorem headerSent_of_deflatePrefix {c : Context} {bits : List Bool} {data : List Byte}
    (h : DeflatePrefix bits c.phase data) : headerSent c = [] := if_neg (deflatePrefix_phase_ne_init h)

/-- The length of the stream counts the bytes of the chunk (R132). -/
theorem ofNat_length_append_chunkOf (data : List Byte) (o : Operands) :
    BitVec.ofNat 64 (data ++ chunkOf o).length = BitVec.ofNat 64 data.length + o.ilen.setWidth 64 := by
  rw [List.length_append, length_chunkOf, BitVec.ofNat_add, BitVec.ofNat_toNat]

/-- An ENCODE that answers OK continues the stream by its chunk. -/
theorem standing_of_encode {f : Format} {s t : State} {sent data : List Byte} {more : Bool} {n : Word}
    (h : Standing f s sent data) (hkept : breached s.operands = false) (ht : exec (.encode more) s = .next t)
    (hok : t.response = some ⟨0#4, n⟩) :
    Standing f t (sent ++ t.out.map Prod.snd) (data ++ chunkOf s.operands) := by
  obtain ⟨body, hsent, hbetween⟩ := h.stream
  obtain ⟨body', hout, hdeflate⟩ := encodeSendsDeflateOfChunk more s t n (bitsOf body) data h.faulted h.contextOk hkept
    (eight_dvd_length_bitsOf body) hbetween ht hok
  obtain ⟨hp, hlen⟩ := encode_accepted_of_ok h.faulted ht hok
  obtain ⟨m, hrun, rfl⟩ := encodeBody_of_ok h.faulted hkept ht hok
  have hcounts := encodeBody_countsChunk hrun
  have hcrc : m.ctx.crc = checksum f (crcSeed f) (data ++ chunkOf s.operands) := by
    rw [hcounts.crc, h.format, h.crc, checksumComposesOverChunks]
  have hinput : m.ctx.inputLen = BitVec.ofNat 64 (data ++ chunkOf s.operands).length := by
    rw [hcounts.inputLen, h.inputLen, ofNat_length_append_chunkOf]
  have hgood : ContextOk m.ctx := encodeBody_contextOk h.contextOk hp hlen hrun
  refine ⟨hcounts.faulted.trans h.faulted, hgood, hcounts.format.trans h.format, hcrc, hinput, body ++ body', ?_, .inr ?_⟩
  · rw [headerSent_of_deflatePrefix hdeflate, hout, map_snd_windowOf, List.append_nil, ← List.append_assoc, hsent,
      List.append_assoc]
  · rwa [bitsOf_append]

/-- Every session stands for the bytes passed to its ENCODE commands. -/
theorem standing_of_session {f : Format} {s : State} {sent data : List Byte} (h : Session f s sent data) :
    Standing f s sent data := by
  induction h with
  | opened hf ht hok => exact standing_of_init hf ht hok
  | encoded _ hkept ht hok ih =>
    exact standing_of_encode (ih.acceptOperands _) hkept ht hok

/-! ### The completed stream -/

/-- Settles O45: FINISH closes the deflate data of the session, and the registers of its trailer are those of the data. -/
theorem completedStreamStandsForItsData : Obligations.CompletedStreamStandsForItsData := by
  intro f s t sent data o n hsession ht hok
  have h := (standing_of_session hsession).acceptOperands o
  obtain ⟨body, hsent, hbetween⟩ := h.stream
  obtain ⟨-, m, hrun, rfl⟩ := finishBody_of_ok h.faulted ht hok
  obtain ⟨body', bits, pad, hout, hbits, hpad, hdeflate⟩ := finishBody_sends h.contextOk (eight_dvd_length_bitsOf body)
    hbetween hrun
  refine ⟨body ++ body', bits, pad, ?_, by rwa [bitsOf_append], hpad, hdeflate⟩
  change sent ++ m.out.map Prod.snd = _
  rw [hout, map_snd_windowOf, h.format, h.crc, h.inputLen, ← List.append_assoc, ← List.append_assoc,
    hsent, List.append_assoc (headerBytes f)]

end Sys2Proof.Machine.SessionProofs

end


/-! PROOFS. What an ENCODE or a FINISH that answers OK leaves (47_commands.md R132, R133): the end of the deflate stream,
the bytes in OUT, and the registers that it does not write. -/
section

namespace Sys2Proof.Machine.CommandProofs

open Sys2Proof.Machine.Laws Sys2Proof.Machine.StateProofs Sys2Proof.Machine.MemoryProofs Sys2Proof.Machine.QueueProofs
open Sys2Proof.Machine.MatchFinderProofs Sys2Proof.Machine.StreamProofs Sys2Proof.Machine.SessionProofs

/-- Settles O44: a FINISH that answers OK has run its body, and `finishBody_sends` says what the body sends. -/
theorem finishEndsDeflateStream : Obligations.FinishEndsDeflateStream := by
  intro s t n prior data hf hc hprior hstart ht hok
  obtain ⟨-, m, hrun, rfl⟩ := finishBody_of_ok hf ht hok
  have hsent := finishBody_sends hc hprior hstart hrun
  exact hsent

/-! ### The window of a completed command -/

/-- A window holds a byte exactly at the offsets below its length. -/
theorem isSome_read_windowOf (bs : List Byte) (a : Nat) : (Memory.read (windowOf bs) a).isSome ↔ a < bs.length := by
  induction bs using List.reverseRecOn with
  | nil => simp [windowOf, Memory.read, entryAt]
  | append_singleton bs b ih =>
    rw [← windowOf_write, List.length_append, List.length_singleton]
    by_cases ha : a = bs.length
    · simp [ha]
    · rw [memory_read_write_other _ _ ha, ih]
      omega

/-- A body that answers OK has sent exactly BYTES_WRITTEN bytes, and they lie in its window (30_encoding.md R57). -/
theorem window_of_ok {f : State → Flow} {s t : State} {j n : Word} (h : Streams f s) (hs : Sent [] s)
    (ht : (f (withCap j s)).outcome = .next t) (h0 : t.response = some ⟨0#4, n⟩) :
    n.toNat ≤ j.toNat ∧ ∃ bs, t.out = windowOf bs ∧ bs.length = n.toNat := by
  obtain ⟨bs, e, hanswers⟩ := answers_of_streams h hs
  obtain ⟨hfits, c, w, rfl, rfl⟩ := (hanswers j).of_ok ht h0
  obtain ⟨hout, hcursor⟩ := sent_writeAll hs hfits
  obtain rfl : (writeAll bs s).work.cursor = n := congrArg Response.bytesWritten (Option.some.inj h0)
  exact ⟨hcursor ▸ hfits, bs, hout, hcursor.symm⟩

/-! ### What an ENCODE does not change -/

/-- The start of an ENCODE with its chunk counted already: the checksum and the length are those that it leaves. -/
def counted (more : Bool) (s : State) : State :=
  ((beginEncode more s).withCrc (checksum s.ctx.format s.ctx.crc (chunkOf s.operands))).withInputLen
    (s.ctx.inputLen + s.operands.ilen.setWidth 64)

/-- The body of ENCODE changes nothing of `counted` but OUT, `state`, the bit queue, the match table and the scan registers.
-/
theorem encodeBody_kept {more : Bool} {s m : State} (hrun : encodeBody more s = .run m) : Kept (counted more s) m := by
  have hcounts := encodeBody_countsChunk hrun
  obtain ⟨a, d, ha, hd, rfl⟩ := encodeBody_eq_run.1 hrun
  have hemit : Emits (beginEncode more s) a := headerPhase_emits _ a (.inl ha)
  have hkept := dataPhase_kept _ _ d (.inl hd)
  exact ⟨hkept.level.trans hemit.level, hcounts.format, hcounts.crc, hcounts.inputLen, hcounts.faulted,
    hkept.faultCause.trans hemit.faultCause, hkept.operands.trans hemit.operands, hkept.response.trans hemit.response,
    hkept.host.trans hemit.host, hkept.draws.trans hemit.draws, hkept.ocap.trans hemit.ocap, hkept.more.trans hemit.more,
    hkept.ilen.trans hemit.ilen, hkept.base.trans hemit.base⟩

/-- At level 0 it does not change the match table either (44_match_finder.md R95). -/
theorem encodeBody_table_of_levelZero {more : Bool} {s m : State} (hlevel : s.ctx.level = 0#1)
    (hrun : encodeBody more s = .run m) : m.ctx.table = s.ctx.table := by
  obtain ⟨a, d, ha, hd, rfl⟩ := encodeBody_eq_run.1 hrun
  have hemit : Emits (beginEncode more s) a := headerPhase_emits _ a (.inl ha)
  have hdata : d.ctx.table = a.ctx.table :=
    (dataPhase_levelZero_emits (s := checksumPhase _ a) (hemit.level.trans hlevel) d (.inl hd)).table
  exact hdata.trans hemit.table

/-- An ENCODE that answers OK under a breach has completed with free bytes (20_memory.md R51). -/
theorem breachCompletes_of_ok {more : Bool} {s t : State} {n : Word} (hf : s.faulted = false)
    (hb : breached s.operands = true) (ht : exec (.encode more) s = .next t) (hok : t.response = some ⟨0#4, n⟩) :
    t = breachCompletes s := by
  obtain ⟨hp, hlen⟩ := encode_accepted_of_ok hf ht hok
  obtain rfl := Host.Outcome.next.inj ((execEncode_of_breached hf hp hlen hb).symm.trans ht)
  rcases breachedEncode_cases s with hx | hx
  · rw [hx] at hok
    cases hok
  · exact hx

/-- Settles O16: a body keeps the registers of `counted` and fills the window up to its cursor, and a breached ENCODE gives
OUT a free number of bytes that OCAP has room for. -/
theorem encodeFrame : Obligations.EncodeFrame := by
  intro more s t n hf ht hok
  obtain ⟨hp, hlen⟩ := encode_accepted_of_ok hf ht hok
  cases hb : breached s.operands with
  | true =>
    obtain rfl := breachCompletes_of_ok hf hb ht hok
    obtain rfl : freeCount s.draws s.operands.ocap = n := congrArg Response.bytesWritten (Option.some.inj hok)
    have hout : (breachCompletes s).out = windowOf (freeBytes s.draws (freeCount s.draws s.operands.ocap).toNat) :=
      freeWindow_eq _ _
    refine ⟨rfl, rfl, rfl, rfl, freeCount_le _ _, ⟨_, hout, length_freeBytes _ _⟩, fun a => ?_, fun h => by cases h⟩
    rw [hout, isSome_read_windowOf, length_freeBytes]
  | false =>
    have hbody := runsBody_encode (more := more) hf hp hlen
    have hrun := (hbody.runs s.operands.ocap fun _ _ => hb).symm.trans ht
    obtain ⟨hn, bs, hout, hbs⟩ := window_of_ok hbody.streams hbody.fresh hrun hok
    obtain ⟨m, hm, rfl⟩ := encodeBody_of_ok hf hb ht hok
    have hkept := encodeBody_kept hm
    have htable : s.ctx.level = 0#1 → m.ctx.table = s.ctx.table := fun h0 => encodeBody_table_of_levelZero h0 hm
    refine ⟨hkept.faulted, hkept.faultCause, hkept.operands, hkept.host, hn, ⟨bs, hout, hbs⟩, fun a => ?_, fun _ =>
      ⟨hkept.level, hkept.format, hkept.crc, ?_, htable⟩⟩
    · rw [hout, isSome_read_windowOf, hbs]
    · rw [complete_ctx, hkept.inputLen]
      exact absolute_toNat hlen

end Sys2Proof.Machine.CommandProofs

end


/-! PROOFS. Room in the window: how many bits each operation of the core can take, and that none overflows where the window
holds them (41_bit_queue.md R63, 70_reset_and_hazards.md R156). -/
section

namespace Sys2Proof.Machine.RoomProofs

open Sys2Proof.Machine.Laws Sys2Proof.Machine.StateProofs Sys2Proof.Machine.MemoryProofs Sys2Proof.Machine.QueueProofs
open Sys2Proof.Machine.StreamProofs

/-! ### Operations that do not overflow -/

/-- The operation does not overflow, and where it runs to its end it leaves a state with `P`. -/
def NoOverflow (P : State → Prop) : Flow → Prop
  | .run s => P s
  | .overflow _ => False
  | .stopped _ => True
  | .refused _ => True

section
variable {P Q : State → Prop} {x : Flow}

theorem NoOverflow.bind {f : State → Flow} (hx : NoOverflow P x) (hf : ∀ m, P m → NoOverflow Q (f m)) :
    NoOverflow Q (x.bind f) := by
  cases x with
  | run m => exact hf m hx
  | overflow m => exact hx
  | stopped e => trivial
  | refused r => trivial

/-- A weaker judgement; what is known of the state it ran to may be used. -/
theorem NoOverflow.mono_run (hx : NoOverflow P x) (h : ∀ m, x = .run m → P m → Q m) : NoOverflow Q x := by
  cases x with
  | run m => exact h m rfl hx
  | overflow m => exact hx
  | stopped e => trivial
  | refused r => trivial

theorem NoOverflow.mono (hx : NoOverflow P x) (h : ∀ m, P m → Q m) : NoOverflow Q x := hx.mono_run fun m _ => h m

/-- What is left by every operation that runs is left by one that does not overflow. -/
theorem NoOverflow.and_leaves (hx : NoOverflow P x) (hq : Leaves Q x) : NoOverflow (fun m => P m ∧ Q m) x :=
  hx.mono_run fun _ hm hp => ⟨hp, leaves_of_run hq hm⟩

/-- An operation that proceeds and does not overflow runs to its end. -/
theorem NoOverflow.exists_run (hx : NoOverflow P x) (hp : Proceeds x) : ∃ m, x = .run m ∧ P m := by
  cases x with
  | run m => exact ⟨m, rfl, hx⟩
  | overflow m => exact hx.elim
  | stopped e => exact hp.elim
  | refused r => exact hp.elim
end

/-! ### The bit queue (41_bit_queue.md) -/

/-- In a window of `cap` bytes, at most `bits` bits are sent or pending. -/
structure Uses (cap bits : Nat) (s : State) : Prop where
  ocap : s.work.ocap.toNat = cap
  used : 8 * s.work.cursor.toNat + s.ctx.bitCount.toNat ≤ bits

section
variable {cap bits : Nat} {s : State}

theorem Uses.mono {bits' : Nat} (h : Uses cap bits s) (hle : bits ≤ bits') : Uses cap bits' s :=
  ⟨h.ocap, h.used.trans hle⟩

theorem Uses.withPhase (h : Uses cap bits s) (p : Phase) : Uses cap bits (s.withPhase p) := ⟨h.ocap, h.used⟩

/-- The loop of ENQUEUE turns pending bits into sent ones (R64). -/
theorem drain_uses (k : Nat) (h : Uses cap bits s) (hroom : bits ≤ 8 * cap) : NoOverflow (Uses cap bits) (drain k s) := by
  induction k generalizing s with
  | zero => exact h
  | succ k ih =>
    by_cases hshort : s.ctx.bitCount.toNat < 8
    · rw [drain_of_short hshort]
      exact h
    · obtain ⟨hocap, hused⟩ := h
      have hfull : 8 ≤ s.ctx.bitCount.toNat := Nat.not_lt.1 hshort
      have hbyte : s.work.cursor.toNat < s.work.ocap.toNat := by omega
      have hcursor : (sendLow s).work.cursor.toNat = s.work.cursor.toNat + 1 :=
        writeOut_cursor_toNat (s.ctx.bitQueue.setWidth 8) hbyte
      have hcount := sendLow_bitCount hfull
      rw [drain_of_room hfull hbyte]
      exact ih ⟨hocap, by omega⟩

/-- ENQUEUE takes as many bits as its field is wide (R64). -/
theorem enqueue_uses {f : Field} (h : Uses cap bits s) (hroom : bits + f.width ≤ 8 * cap) :
    NoOverflow (Uses cap (bits + f.width)) (enqueue f s) := by
  unfold enqueue
  split
  · trivial
  · split
    · trivial
    · rename_i hin hshort
      simp only [maxEnqueue, not_or, Nat.not_lt] at hin hshort
      have hcount := putField_bitCount hin.1 hshort
      have hused := h.used
      exact drain_uses 3 (s := putField f s) ⟨h.ocap, by rw [hcount]; change 8 * s.work.cursor.toNat + _ ≤ _; omega⟩ hroom

/-- A flush takes the bits up to the next byte boundary (R66). -/
theorem flushToByte_uses (h : Uses cap bits s) (hroom : bits ≤ 8 * cap) :
    NoOverflow (Uses cap (8 * ((bits + 7) / 8))) (flushToByte s) := by
  obtain ⟨hocap, hused⟩ := h
  by_cases hpending : 0 < s.ctx.bitCount.toNat
  · have hbyte : s.work.cursor.toNat < s.work.ocap.toNat := by omega
    have hcursor : (flushed s).work.cursor.toNat = s.work.cursor.toNat + 1 :=
        writeOut_cursor_toNat (s.ctx.bitQueue.setWidth 8) hbyte
    rw [flushToByte_of_pending hpending hbyte]
    exact ⟨hocap, by rw [hcursor]; change 8 * (s.work.cursor.toNat + 1) + 0 ≤ _; omega⟩
  · have hempty : s.ctx.bitCount = 0#5 := BitVec.eq_of_toNat_eq (Nat.eq_zero_of_not_pos hpending)
    rw [flushToByte_of_empty hempty]
    exact ⟨hocap, by change 8 * s.work.cursor.toNat + 0 ≤ _; omega⟩

/-- A raw writer takes the bits of its bytes (R67). -/
theorem writeRawBytes_uses {bs : List Byte} (h : Uses cap bits s) (hroom : bits + 8 * bs.length ≤ 8 * cap) :
    NoOverflow (Uses cap (bits + 8 * bs.length)) (writeRawBytes bs s) := by
  obtain ⟨hocap, hused⟩ := h
  by_cases hempty : s.ctx.bitCount = 0#5
  · have hfits : s.work.cursor.toNat + bs.length ≤ s.work.ocap.toNat := by omega
    have hstores := storesAt_writeAll hfits
    have hctx : (writeAll bs s).ctx = s.ctx := by rw [hstores.rest]
    rw [writeRawBytes_aligned hempty, outBytes_fits hfits]
    exact ⟨(congrArg BitVec.toNat (writeAll_emits bs s).ocap).trans hocap, by rw [hstores.cursor, hctx]; omega⟩
  · rw [writeRawBytes_of_pending hempty]
    trivial

/-! ### The Huffman emitters (43_fixed_huffman.md R92 to R94) -/

/-- Bytes of the chunk inside it are as many as asked for. -/
theorem length_chunk_bytes {inp : List Byte} {i n : Nat} (hin : i + n ≤ inp.length) : ((inp.drop i).take n).length = n := by
  rw [List.length_take, List.length_drop]
  omega

theorem litField_width_le (b : Byte) : (litField b).width ≤ 9 := by
  rw [litField_width]
  split <;> decide

/-- A length field has at most 13 bits (R89). -/
theorem lenField_width_le {len : Nat} {f : Field} (h : lenField len = some f) : f.width ≤ 13 := by
  obtain ⟨r, hr, rfl⟩ := Option.map_eq_some_iff.1 h
  exact (lengthRows_widths r (List.mem_of_find?_eq_some hr)).2.2

/-- A distance field has at most 18 bits (R91). -/
theorem distField_width_le {dist : Nat} {f : Field} (h : distField dist = some f) : f.width ≤ 18 := by
  obtain ⟨r, hr, rfl⟩ := Option.map_eq_some_iff.1 h
  exact Nat.add_le_add_left (distanceRows_widths r (List.mem_of_find?_eq_some hr)).2 5

/-- A literal takes at most 9 bits. -/
theorem emitLits_uses {bs : List Byte} (h : Uses cap bits s) (hroom : bits + 9 * bs.length ≤ 8 * cap) :
    NoOverflow (Uses cap (bits + 9 * bs.length)) (emitLits bs s) := by
  induction bs generalizing bits s with
  | nil => exact h
  | cons b rest ih =>
    have hwidth := litField_width_le b
    rw [List.length_cons] at hroom ⊢
    refine (enqueue_uses h (by omega)).bind fun m hm => ?_
    exact (ih (hm.mono (Nat.add_le_add_left hwidth bits)) (by omega)).mono fun m hm => hm.mono (by omega)

/-- A match takes at most 31 bits. -/
theorem emitMatch_uses (len dist : Nat) (h : Uses cap bits s) (hroom : bits + 31 ≤ 8 * cap) :
    NoOverflow (Uses cap (bits + 31)) (emitMatch len dist s) := by
  unfold emitMatch
  split
  · trivial
  · trivial
  · rename_i lf df hlf hdf
    have hlen := lenField_width_le hlf
    have hdist := distField_width_le hdf
    refine (enqueue_uses h (by omega)).bind fun m hm => ?_
    exact (enqueue_uses hm (by omega)).mono fun m hm => hm.mono (by omega)

/-! ### Blocks (45_block_state_machine.md R112 to R117) -/

/-- OPEN_FIXED takes the three bits of its block's header (R112). -/
theorem openFixed_uses (more : Bool) (h : Uses cap bits s) (hroom : bits + 3 ≤ 8 * cap) :
    NoOverflow (Uses cap (bits + 3)) (openFixed more s) := by
  cases more
  · exact enqueue_uses (f := blockHeader true btypeFixed) (h.withPhase .last) hroom
  · exact enqueue_uses (f := blockHeader false btypeFixed) (h.withPhase .fixed) hroom

theorem emitEob_uses (h : Uses cap bits s) (hroom : bits + 7 ≤ 8 * cap) : NoOverflow (Uses cap (bits + 7)) (emitEob s) :=
  enqueue_uses (f := ⟨0#32, 7⟩) h hroom

theorem matchOpen_uses (h : Uses cap bits s) (hroom : bits + 3 ≤ 8 * cap) :
    NoOverflow (Uses cap (bits + 3)) (matchOpen s) := by
  unfold matchOpen
  split
  · exact openFixed_uses true h hroom
  · exact h.mono (Nat.le_add_right _ _)

/-- The bits that close the block that is open before a stored one (R115). -/
def closeBits (p : Phase) : Nat := if p = .eob then 0 else 7

theorem closeOpen_uses (h : Uses cap bits s) (hroom : bits + closeBits s.ctx.phase ≤ 8 * cap) :
    NoOverflow (Uses cap (bits + closeBits s.ctx.phase)) (if s.ctx.phase = .eob then .run s else emitEob s) := by
  unfold closeBits at hroom ⊢
  split
  · exact h
  · rename_i hopen
    rw [if_neg hopen] at hroom
    exact emitEob_uses h hroom

/-- A stored block takes the end of the open block and its own three bits, up to a byte boundary, and four bytes and its
data (R115). -/
theorem storedPiece_uses {inp : List Byte} {i c : Nat} (final : Bool) (hin : i + c ≤ inp.length) (h : Uses cap bits s)
    (hroom : 8 * ((bits + closeBits s.ctx.phase + 10) / 8) + 32 + 8 * c ≤ 8 * cap) :
    NoOverflow (Uses cap (8 * ((bits + closeBits s.ctx.phase + 10) / 8) + 32 + 8 * c)) (storedPiece inp i c final s) := by
  have hlen := length_chunk_bytes hin
  unfold storedPiece
  refine (closeOpen_uses h (by omega)).bind fun m hm => ?_
  refine (enqueue_uses (f := blockHeader final btypeStored) (hm.withPhase _)
    (by change _ + 3 ≤ _; omega)).bind fun m hm => ?_
  refine (flushToByte_uses hm (by change _ + 3 ≤ _; omega)).bind fun m hm => ?_
  change Uses cap (8 * ((bits + closeBits s.ctx.phase + 10) / 8)) m at hm
  refine (writeRawBytes_uses (bs := bytes16LE _) hm (by change _ + 16 ≤ _; omega)).bind fun m hm => ?_
  refine (writeRawBytes_uses (bs := bytes16LE _) hm (by change _ + 16 + 16 ≤ _; omega)).bind fun m hm => ?_
  rw [writeRaw_of_le m hin]
  have hblock := writeRawBytes_uses (bs := (inp.drop i).take c) hm (by rw [hlen]; exact hroom)
  rw [hlen] at hblock
  exact hblock

/-- The number of stored blocks that hold `n` bytes (R115; 70_reset_and_hazards.md R156). -/
def storedBlocks (n : Nat) : Nat := (n + 65534) / 65535

/-- The bits in use after stored blocks of `n` bytes, where `bits` bits were in use in the phase `p`: the first block pads
to a byte boundary, and every other one starts at one and takes five bytes besides its data. -/
def storedEnd (bits : Nat) (p : Phase) (n : Nat) : Nat :=
  8 * ((bits + closeBits p + 10) / 8) + 32 + 8 * n + 40 * (storedBlocks n - 1)

theorem storedEnd_of_one {bits n : Nat} {p : Phase} (h : n ≤ storedMax) :
    storedEnd bits p n = 8 * ((bits + closeBits p + 10) / 8) + 32 + 8 * n := by
  simp only [storedEnd, storedBlocks, storedMax] at h ⊢
  omega

/-- After one full block the others start at a byte boundary in EOB. -/
theorem storedEnd_of_more {bits n : Nat} {p : Phase} (h : storedMax < n) :
    storedEnd bits p n =
      storedEnd (8 * ((bits + closeBits p + 10) / 8) + 32 + 8 * storedMax) .eob (n - storedMax) := by
  simp only [storedEnd, storedBlocks, storedMax, closeBits, if_true] at h ⊢
  omega

/-- Stored blocks cost at most one bit a byte besides the data, and 49 bits in all (R156). -/
theorem storedEnd_le (bits : Nat) (p : Phase) (n : Nat) : storedEnd bits p n ≤ bits + 9 * n + 49 := by
  have hclose : closeBits p ≤ 7 := by
    unfold closeBits
    split <;> decide
  unfold storedEnd storedBlocks
  omega

/-- At most 65535 bytes make one turn of STORED, of the final block where the command's MORE is 0. -/
theorem storedLoop_of_one {inp : List Byte} {more : Bool} {k i n : Nat} (h : n ≤ storedMax) :
    storedLoop inp more (k + 1) i n s = storedPiece inp i n (!more) s := by
  rw [storedLoop, Nat.min_eq_left h, Nat.sub_self, decide_eq_true rfl, Bool.and_true]
  cases storedPiece inp i n (!more) s <;> rfl

/-- Of more bytes the first 65535 make a turn, of a block that is not final. -/
theorem storedLoop_of_more {inp : List Byte} {more : Bool} {k i n : Nat} (h : storedMax < n) :
    storedLoop inp more (k + 1) i n s =
      (storedPiece inp i storedMax false s).bind (storedLoop inp more k (i + storedMax) (n - storedMax)) := by
  have hleft : n - storedMax ≠ 0 := Nat.sub_ne_zero_of_lt h
  rw [storedLoop, Nat.min_eq_right h.le, decide_eq_false hleft, Bool.and_false]
  simp only [if_neg hleft]

/-- The loop of STORED takes the bits of its blocks. -/
theorem storedLoop_uses {p : Phase} {inp : List Byte} (more : Bool) (k : Nat) {i n : Nat} (hin : i + n ≤ inp.length)
    (hs : SoundIn p s) (h : Uses cap bits s) (hroom : storedEnd bits p n ≤ 8 * cap) :
    NoOverflow (Uses cap (storedEnd bits p n)) (storedLoop inp more k i n s) := by
  induction k generalizing bits p i n s with
  | zero => exact h.mono (by unfold storedEnd; omega)
  | succ k ih =>
    rcases Nat.lt_or_ge storedMax n with hmore | hlast
    · rw [storedLoop_of_more hmore]
      rw [storedEnd_of_more hmore] at hroom ⊢
      have hpiece := storedPiece_uses (inp := inp) (i := i) (c := storedMax) false (by omega) h
        (by rw [hs.phase]; unfold storedEnd at hroom; omega)
      rw [hs.phase] at hpiece
      refine (hpiece.and_leaves (storedPiece_leaves inp i storedMax false hs)).bind fun m hm => ?_
      have hused := hm.1
      have heob := hm.2.toSoundIn
      exact ih (by omega) heob hused hroom
    · rw [storedLoop_of_one hlast]
      rw [storedEnd_of_one hlast] at hroom ⊢
      exact hs.phase ▸ storedPiece_uses _ hin h (hs.phase ▸ hroom)
end

end Sys2Proof.Machine.RoomProofs

end


/-! PROOFS. Room for the scan of a chunk at level 1 (44_match_finder.md R103 to R108, 70_reset_and_hazards.md R156): sixteen
bits for every byte that a turn moves on by are enough, and a few more for the final flush. -/
section

namespace Sys2Proof.Machine.RoomProofs

open Sys2Proof.Machine.Laws Sys2Proof.Machine.StateProofs Sys2Proof.Machine.MemoryProofs Sys2Proof.Machine.QueueProofs
open Sys2Proof.Machine.StreamProofs

section
variable {cap bits : Nat} {inp : List Byte} {s : State}

/-! ### The pending run (45_block_state_machine.md R116, R117) -/

/-- HUFF_LITS first closes the open block and opens another one at most (R116). -/
theorem huffOpen_uses (more : Bool) (h : Uses cap bits s) (hroom : bits + 10 ≤ 8 * cap) :
    NoOverflow (Uses cap (bits + 10)) (huffOpen more s) := by
  unfold huffOpen
  split
  · exact (openFixed_uses more h (by omega)).mono fun m hm => hm.mono (by omega)
  · split
    · exact h.mono (Nat.le_add_right _ _)
    · exact (emitEob_uses h (by omega)).bind fun m hm => openFixed_uses false (hm.withPhase .eob) hroom

theorem huffLits_uses {i n : Nat} (more : Bool) (hin : i + n ≤ inp.length) (h : Uses cap bits s)
    (hroom : bits + 10 + 9 * n ≤ 8 * cap) : NoOverflow (Uses cap (bits + 10 + 9 * n)) (huffLits inp i n more s) := by
  have hlen := length_chunk_bytes hin
  unfold huffLits
  rw [inBytes_of_le hin]
  refine (huffOpen_uses more h (by omega)).bind fun m hm => ?_
  have hlits := emitLits_uses (bs := (inp.drop i).take n) hm (by rw [hlen]; exact hroom)
  rwa [hlen] at hlits

/-- A run is stored only where at least 52 of its literals have 9 bits, so sixteen bits a byte pay for its block (R117). -/
theorem flushLits_uses {i n b9 : Nat} (more : Bool) (hb9 : b9 ≤ n) (hin : i + n ≤ inp.length)
    (hs : Flushed true s) (h : Uses cap bits s) (hroom : bits + 10 + 16 * n ≤ 8 * cap) :
    NoOverflow (Uses cap (bits + 10 + 16 * n)) (flushLits inp i n b9 more s) := by
  obtain ⟨p, -, hsound⟩ := hs.soundIn
  unfold flushLits
  split
  · rename_i hmany
    simp only [bit9Threshold] at hmany
    have hend := storedEnd_le bits p n
    exact (storedLoop_uses more _ hin hsound h (by omega)).mono fun m hm => hm.mono (by omega)
  · exact (huffLits_uses more hin h (by omega)).mono fun m hm => hm.mono (by omega)

/-! ### The scan -/

/-- Between two turns of the scan, where `bits` bits were in use before it: the bits in use are at most sixteen for every
byte before the pending run, which counts at most as many literals of 9 bits as it has literals (R103). -/
structure RunUses (cap bits : Nat) (inp : List Byte) (s : State) : Prop where
  inChunk : InChunk inp s
  flushed : Flushed true s
  bit9_le : s.work.bit9.toNat ≤ s.work.plit.toNat
  uses : Uses cap (bits + 16 * (s.work.pos.toNat - s.work.plit.toNat)) s

/-- The probe of a turn sends nothing (R97). -/
theorem RunUses.probe (word : Word) (h : RunUses cap bits inp s) : RunUses cap bits inp (Machine.probe word s).2 :=
  ⟨⟨h.inChunk.pos_le, h.inChunk.plit_le⟩, h.flushed.withSlot _ _, h.bit9_le, h.uses.ocap, h.uses.used⟩

/-- A literal joins the pending run, and nothing is sent (R103). -/
theorem literalStep_runUses (hlen : inp.length < 2 ^ 32) (hpos : s.work.pos.toNat < inp.length)
    (h : RunUses cap bits inp s) : NoOverflow (RunUses cap bits inp) (literalStep inp s) := by
  obtain ⟨hin, hflushed, hbit9, huses⟩ := h
  have hplit := hin.plit_le
  have hpos' : (s.work.pos + 1#32).toNat = s.work.pos.toNat + 1 := advance_toNat (n := 1) (by omega)
  have hplit' : (s.work.plit + 1#32).toNat = s.work.plit.toNat + 1 := advance_toNat (n := 1) (by omega)
  have hbit9' : (s.work.bit9 + 1#32).toNat = s.work.bit9.toNat + 1 := advance_toNat (n := 1) (by omega)
  have hsame : NoOverflow (fun _ => True) (literalStep inp s) := by
    unfold literalStep
    split <;> trivial
  refine hsame.mono_run fun m hm _ => ?_
  refine ⟨inChunk_literalStep hlen hpos hin hm, leaves_of_run (literalStep_leaves inp hflushed) hm, ?_, ?_⟩
  all_goals obtain ⟨b, -, rfl⟩ := literalStep_eq_run.1 hm
  · rw [withScan_bit9, withScan_plit]
    split <;> omega
  · rw [withScan_pos, withScan_plit, hpos', hplit', Nat.add_sub_add_right]
    exact ⟨huses.ocap, huses.used⟩

/-- The flush of the pending run brings the bits in use up to the position of the scan (R104, R108). -/
theorem flushPending_uses (more : Bool) (hroom : bits + 10 + 16 * s.work.pos.toNat ≤ 8 * cap)
    (h : RunUses cap bits inp s) :
    NoOverflow (Uses cap (bits + 10 + 16 * s.work.pos.toNat)) (flushPending inp more s) := by
  obtain ⟨⟨hpos, hplit⟩, hflushed, hbit9, huses⟩ := h
  unfold flushPending
  split
  · exact huses.mono (by omega)
  · exact (flushLits_uses more hbit9 (by omega) hflushed huses (by omega)).mono fun m hm => hm.mono (by omega)

/-- A match of at least four bytes takes no more than sixteen bits for each of them, the opening of its block and what the
flush before it has left over included (R104). -/
theorem acceptMatch_runUses {dist len : Nat} (hlen : inp.length < 2 ^ 32) (h4 : 4 ≤ len)
    (hin : s.work.pos.toNat + len ≤ inp.length) (hroom : bits + 10 + 16 * inp.length ≤ 8 * cap)
    (h : RunUses cap bits inp s) : NoOverflow (RunUses cap bits inp) (acceptMatch inp dist len s) := by
  have hsent : NoOverflow (Uses cap (bits + 16 * (s.work.pos.toNat + len))) (acceptMatch inp dist len s) := by
    unfold acceptMatch
    refine (flushPending_uses true (by omega) h).bind fun a ha => ?_
    refine (matchOpen_uses (s := a.withScan a.work.pos 0#32 a.work.bit9) ⟨ha.ocap, ha.used⟩ (by omega)).bind fun b hb => ?_
    refine (emitMatch_uses len dist hb (by omega)).bind fun c hc => ?_
    exact ⟨hc.ocap, hc.used.trans (by omega)⟩
  refine hsent.mono_run fun m hm huses => ?_
  obtain ⟨-, hmoved, hplit, hbit9⟩ := acceptMatch_run hm
  have hpos' : m.work.pos.toNat = s.work.pos.toNat + len := by
    rw [hmoved]
    exact advance_toNat (pos := s.work.pos) (by omega)
  refine ⟨⟨hpos'.trans_le hin, by simp [hplit]⟩, leaves_of_run (acceptMatch_leaves inp dist len h.flushed) hm, ?_, ?_⟩
  · rw [hplit, hbit9]
  · rw [hpos', hplit]
    exact huses

/-- A turn of the scan probes, and then sends a match or counts a literal. -/
theorem scanStep_runUses (hlen : inp.length < 2 ^ 32) (hpos : s.work.pos.toNat + 4 ≤ inp.length)
    (hroom : bits + 10 + 16 * inp.length ≤ 8 * cap) (h : RunUses cap bits inp s) :
    NoOverflow (RunUses cap bits inp) (scanStep inp s) := by
  obtain ⟨word, hword⟩ : ∃ word, readWord inp s.work.pos.toNat = some word := ⟨_, readWord_of_le hpos⟩
  by_cases hacc : ∃ dist len, MatchAccepted inp s word dist len
  · obtain ⟨dist, len, hm⟩ := hacc
    rw [scanStep_of_accepted hword hm]
    obtain ⟨offset, -, -, -, rfl, -⟩ := hm
    exact acceptMatch_runUses hlen (extend_bounds inp _ offset).1 (extend_le offset hpos) hroom (h.probe word)
  · rcases scanStep_of_not_accepted hword fun dist len hm => hacc ⟨dist, len, hm⟩ with hx | ⟨r, hx⟩ <;> rw [hx]
    · exact literalStep_runUses (s := (probe word s).2) hlen
        (Nat.lt_of_lt_of_le (Nat.lt_add_of_pos_right (by decide)) hpos) (h.probe word)
    · trivial

theorem scanLoop_runUses (k : Nat) (hlen : inp.length < 2 ^ 32) (hroom : bits + 10 + 16 * inp.length ≤ 8 * cap)
    (h : RunUses cap bits inp s) : NoOverflow (RunUses cap bits inp) (scanLoop inp k s) := by
  induction k generalizing s with
  | zero => exact h
  | succ k ih =>
    unfold scanLoop
    split
    · rename_i hleft
      have hin := h.inChunk.pos_le
      simp only [minWord] at hleft
      exact (scanStep_runUses hlen (by omega) hroom h).bind fun m hm => ih hm
    · exact h

theorem tailLoop_runUses (k : Nat) (hlen : inp.length < 2 ^ 32) (h : RunUses cap bits inp s) :
    NoOverflow (RunUses cap bits inp) (tailLoop inp k s) := by
  induction k generalizing s with
  | zero => exact h
  | succ k ih =>
    unfold tailLoop
    split
    · rename_i hpos
      exact (literalStep_runUses hlen hpos h).bind fun m hm => ih hm
    · exact h

/-- A scan from the start of its chunk does not overflow where the window has room for sixteen bits a byte and ten more. -/
theorem scan_noOverflow (hlen : inp.length < 2 ^ 32) (hroom : bits + 10 + 16 * inp.length ≤ 8 * cap)
    (h : RunUses cap bits inp s) : NoOverflow (fun _ => True) (scan inp s) := by
  unfold scan
  refine (scanLoop_runUses _ hlen hroom h).bind fun a ha => (tailLoop_runUses _ hlen ha).bind fun b hb => ?_
  have hin := hb.inChunk.pos_le
  exact (flushPending_uses _ (by omega) hb).mono fun _ _ => trivial
end

end Sys2Proof.Machine.RoomProofs

end


/-! PROOFS. The bytes that a command has sent when it stands at a byte boundary (20_memory.md R41): packed bits, the header,
stored blocks, and what FINISH closes the deflate data with. -/
section

namespace Sys2Proof.Machine.CommandProofs

open Sys2Proof.Machine.Laws Sys2Proof.Machine.StateProofs Sys2Proof.Machine.MemoryProofs Sys2Proof.Machine.QueueProofs
open Sys2Proof.Machine.StreamProofs Sys2Proof.Machine.RoomProofs

/-! ### Packed bits -/

/-- Zero bits above the bits of a byte do not change it. -/
theorem byteOfBits_append_replicate (bits : List Bool) (n : Nat) :
    byteOfBits (bits ++ List.replicate n false) = byteOfBits bits := by
  have hzero : (List.replicate n false).foldr (fun b n => b.toNat + 2 * n) 0 = 0 := by
    induction n with
    | zero => rfl
    | succ n ih => rw [List.replicate_succ, List.foldr_cons, ih]; rfl
  rw [byteOfBits, List.foldr_append, hzero, byteOfBits]

theorem byteOfBits_byteBits (b : Byte) : byteOfBits (byteBits b) = b := by
  revert b
  decide

/-- The first eight bits, or all of them, go into the first byte. -/
theorem packBits_of_ne_nil {bits : List Bool} (h : bits ≠ []) :
    packBits bits = byteOfBits (bits.take 8) :: packBits (bits.drop 8) := by
  have hpos : 0 < bits.length := List.length_pos_of_ne_nil h
  have hcount : (bits.length + 7) / 8 = (bits.length - 8 + 7) / 8 + 1 := by omega
  rw [packBits, hcount, List.range_succ_eq_map, List.map_cons, List.map_map, packBits, List.length_drop]
  congr 1
  refine List.map_congr_left fun i _ => ?_
  rw [Function.comp_apply, List.drop_drop, Nat.mul_succ, Nat.add_comm]

/-- Bytes whose bits are the given ones with fewer than 8 zero bits after them are those bits packed. -/
theorem packBits_eq {bits : List Bool} {body : List Byte} {pad : Nat} (hpad : pad < 8)
    (h : bitsOf body = bits ++ List.replicate pad false) : packBits bits = body := by
  induction body generalizing bits pad with
  | nil =>
    obtain ⟨rfl, -⟩ := List.append_eq_nil_iff.1 h.symm
    rfl
  | cons b rest ih =>
    have hb : (byteBits b).length = 8 := by rw [byteBits, List.length_map, List.length_range]
    have hcons : bitsOf (b :: rest) = byteBits b ++ bitsOf rest := List.flatMap_cons
    have hlen := congrArg List.length h
    rw [length_bitsOf, List.length_append, List.length_replicate, List.length_cons] at hlen
    have hne : bits ≠ [] := List.ne_nil_of_length_pos (by omega)
    have htake := congrArg (List.take 8) h
    have hdrop := congrArg (List.drop 8) h
    rw [hcons, List.take_left' hb, List.take_append, List.take_replicate] at htake
    rw [hcons, List.drop_left' hb, List.drop_append, List.drop_replicate] at hdrop
    have hbyte : byteOfBits (bits.take 8) = b := by
      rw [← byteOfBits_append_replicate _ (min (8 - bits.length) pad), ← htake, byteOfBits_byteBits]
    rw [packBits_of_ne_nil hne, hbyte, ih (by omega) hdrop]

/-! ### Byte boundaries -/

/-- The stream is in the phase `p` at a byte boundary, and the command has sent exactly the bytes `bs`. -/
structure Boundary (p : Phase) (bs : List Byte) (s : State) : Prop extends AlignedIn p s where
  wrote : Wrote bs s

section
variable {p : Phase} {as bs : List Byte} {bits : List Bool} {s : State}

theorem pendingBits_of_empty {c : Context} (h : c.bitCount = 0#5) : pendingBits c = [] := by
  rw [pendingBits_eq, h]
  rfl

/-- An empty queue is all zero bits (10_state.md R21). -/
theorem bitQueue_of_aligned (h : AlignedIn p s) : s.ctx.bitQueue = 0#32 := by
  have hclean := h.queueClean
  rw [h.noBits] at hclean
  exact BitVec.eq_of_toNat_eq (Nat.lt_one_iff.1 hclean)

theorem Boundary.withPhase (h : Boundary p bs s) (q : Phase) : Boundary q bs (s.withPhase q) :=
  ⟨h.toAlignedIn.withPhase q, h.wrote.frame rfl rfl rfl⟩

theorem Boundary.withInputLen (h : Boundary p bs s) (n : Position) : Boundary p bs (s.withInputLen n) :=
  ⟨⟨⟨h.queueShort, h.queueClean, h.outWf, h.phase⟩, h.noBits⟩, h.wrote.frame rfl rfl rfl⟩

/-- Bits can follow bytes sent up to a boundary. -/
theorem Boundary.carrying (h : Boundary p bs s) : Carrying bs [] p [] s :=
  ⟨h.toSoundIn, [], (List.append_nil bs).symm ▸ h.wrote, pendingBits_of_empty h.noBits⟩

theorem writeRawBytes_boundary (h : Boundary p as s) : Leaves (Boundary p (as ++ bs)) (writeRawBytes bs s) :=
  (writeRawBytes_leaves bs h.toSoundIn).mono_run fun _ hm ha => ⟨ha, (wrote_writeRawBytes h.noBits h.wrote hm).1⟩

/-- A flush sends the pending bits packed (R66). -/
theorem flushToByte_boundary (h : Carrying as [] p bits s) :
    Leaves (Boundary p (as ++ packBits bits)) (flushToByte s) := by
  refine (flushToByte_carrying h).mono fun m ⟨ha, pad, hpad, body, hwrote, hbits⟩ => ⟨ha, ?_⟩
  rw [pendingBits_of_empty ha.noBits, List.append_nil, List.nil_append] at hbits
  rwa [packBits_eq hpad hbits]

/-! ### The header (46_framing.md R125) -/

/-- With room for its bytes the header phase runs: it sends the header that is missing and writes nothing of the context but
`state`. -/
theorem headerPhase_run (hs : Sent [] s) (hc : ContextOk s.ctx)
    (hroom : (headerSent s.ctx).length ≤ s.work.ocap.toNat) :
    ∃ a, headerPhase s = .run a ∧ Wrote (headerSent s.ctx) a ∧ SettledIn (startedPhase s.ctx.phase) a ∧
      a.ctx = { s.ctx with phase := startedPhase s.ctx.phase } := by
  have hwrote : Wrote [] s := ⟨hs, hs.cursor ▸ Nat.zero_le _⟩
  have hsettled : SettledIn s.ctx.phase s := settledIn_of_contextOk hc (hs.out ▸ List.Pairwise.nil)
  by_cases hp : s.ctx.phase = .init
  · have hstarted : startedPhase s.ctx.phase = .eob := if_pos hp
    rw [headerSent, if_pos hp] at hroom ⊢
    have hempty : s.ctx.bitCount = 0#5 := hc.noPending (hp ▸ rfl)
    have hsend : outBytes (headerBytes s.ctx.format) s = .run (Laws.writeAll (headerBytes s.ctx.format) s) :=
      outBytes_fits (by rw [hs.cursor, List.length_nil, Nat.zero_add]; exact hroom)
    obtain ⟨hsent, hctx⟩ := wrote_outBytes hwrote hsend
    have hrun := (headerPhase_of_init hp hempty).trans (congrArg (Flow.bind · _) hsend)
    rw [bind_run] at hrun
    refine ⟨_, hrun, hsent.frame rfl rfl rfl, leaves_of_run (headerPhase_leaves hsettled) hrun, ?_⟩
    rw [hstarted, State.withPhase, hctx]
  · have hstarted : startedPhase s.ctx.phase = s.ctx.phase := if_neg hp
    rw [headerSent, if_neg hp, hstarted]
    exact ⟨s, headerPhase_of_started hp, hwrote, hsettled, rfl⟩

/-! ### Stored blocks (45_block_state_machine.md R115) -/

/-- The bytes of a stored block that is sent from a byte boundary. -/
def storedBlock (final : Bool) (block : List Byte) : List Byte :=
  (if final then 0x01#8 else 0x00#8) ::
    (bytes16LE (BitVec.ofNat 16 block.length) ++ bytes16LE (~~~ (BitVec.ofNat 16 block.length)) ++ block)

theorem packBits_blockHeader_stored (final : Bool) :
    packBits (fieldBits (blockHeader final btypeStored)) = [if final then 0x01#8 else 0x00#8] := by
  cases final <;> decide

/-- A stored block sent from a byte boundary (R115). -/
theorem storedPiece_boundary {inp : List Byte} {i c : Nat} (final : Bool) (hin : i + c ≤ inp.length)
    (h : Boundary .eob as s) :
    Leaves (Boundary (storedPhase !final) (as ++ storedBlock final ((inp.drop i).take c)))
      (storedPiece inp i c final s) := by
  have hlen := length_chunk_bytes hin
  have hphase : storedPhase (!final) = if final then Phase.done else .eob := by cases final <;> rfl
  rw [hphase]
  unfold storedPiece
  rw [if_pos h.phase, bind_run]
  refine (enqueue_carrying _ (h.carrying.withPhase (if final then .done else .eob))).bind fun m hm => ?_
  refine (flushToByte_boundary hm).bind fun m hm => (writeRawBytes_boundary hm).bind fun m hm =>
    (writeRawBytes_boundary hm).bind fun m hm => ?_
  rw [writeRaw_of_le m hin]
  have hblock := writeRawBytes_boundary (bs := (inp.drop i).take c) hm
  rw [List.nil_append, packBits_blockHeader_stored] at hblock
  simpa only [writeBytes, storedBlock, hlen, List.append_assoc, List.cons_append, List.nil_append] using hblock

/-- At most 65535 bytes go into one block, the last one. -/
theorem storedBytes_of_one (more : Bool) (fuel : Nat) {bs : List Byte} (h : bs.length ≤ storedMax) :
    storedBytes more (fuel + 1) bs = storedBlock (!more) bs := by
  simp only [storedMax] at h
  rw [storedBytes, if_pos h, storedBlock]
  cases more <;> rfl

/-- Of more bytes the first 65535 go into a block that is not final. -/
theorem storedBytes_of_more (more : Bool) (fuel : Nat) {bs : List Byte} (h : storedMax < bs.length) :
    storedBytes more (fuel + 1) bs =
      storedBlock false (bs.take storedMax) ++ storedBytes more fuel (bs.drop storedMax) := by
  simp only [storedMax] at h ⊢
  rw [storedBytes, if_neg (Nat.not_le.2 h), storedBlock, List.length_take_of_le h.le]
  simp only [Bool.false_eq_true, if_false, List.cons_append, List.append_assoc]
  rfl

/-- STORED, from a byte boundary and with turns enough for the bytes left, sends the stored blocks of all of them. -/
theorem storedLoop_boundary {inp : List Byte} (more : Bool) {k i n fuel : Nat} (hin : i + n ≤ inp.length) (hturns : n < k)
    (hpos : 0 < n) (hfuel : n ≤ fuel) (h : Boundary .eob as s) :
    Leaves (Boundary (storedPhase more) (as ++ storedBytes more fuel ((inp.drop i).take n)))
      (storedLoop inp more k i n s) := by
  induction k generalizing i n fuel as s with
  | zero => exact absurd hturns (Nat.not_lt_zero _)
  | succ k ih =>
    obtain ⟨fuel, rfl⟩ := Nat.exists_eq_succ_of_ne_zero (Nat.pos_iff_ne_zero.1 (hpos.trans_le hfuel))
    have hlen := length_chunk_bytes hin
    rcases Nat.lt_or_ge storedMax n with hmore | hlast
    · have hmax : storedMax = 65535 := rfl
      rw [storedLoop_of_more hmore, storedBytes_of_more more fuel (hlen.symm ▸ hmore)]
      refine (storedPiece_boundary (i := i) (c := storedMax) false (by omega) h).bind fun m hm => ?_
      have hrest := ih (i := i + storedMax) (n := n - storedMax) (fuel := fuel) (by omega) (by omega) (by omega) (by omega)
        hm
      rwa [List.take_take, Nat.min_eq_left hmore.le, List.drop_take, List.drop_drop, ← List.append_assoc]
    · have hpiece := storedPiece_boundary (!more) hin h
      rw [Bool.not_not] at hpiece
      rwa [storedLoop_of_one hlast, storedBytes_of_one more fuel (hlen.trans_le hlast)]
end

end Sys2Proof.Machine.CommandProofs

end


/-! PROOFS. The whole next state of an ENCODE and of a FINISH that have room for their bytes (47_commands.md R132, R133). -/
section

namespace Sys2Proof.Machine.CommandProofs

open Sys2Proof.Machine.Laws Sys2Proof.Machine.StateProofs Sys2Proof.Machine.MemoryProofs Sys2Proof.Machine.QueueProofs
open Sys2Proof.Machine.MatchFinderProofs Sys2Proof.Machine.StreamProofs Sys2Proof.Machine.SessionProofs
open Sys2Proof.Machine.RoomProofs

/-! ### Completed states (47_commands.md R130) -/

/-- A body that has kept the host's part of the state and sent the bytes `bs` completes in the state that the statements
name. -/
theorem complete_eq_completedState {s m : State} {c : Context} {w : Transient} {out : Memory} {bs : List Byte}
    (h : Kept { s with ctx := c, work := w, out := out } m) (hs : Sent bs m) :
    complete m = completedState s m.ctx bs := by
  have hcursor : m.work.cursor = BitVec.ofNat 32 bs.length := by rw [← hs.cursor, BitVec.ofNat_toNat, BitVec.setWidth_eq]
  rw [complete, completedState, hcursor, h.draws]
  obtain ⟨ctx, faulted, faultCause, work, operands, out, response, host, draws⟩ := m
  obtain rfl := h.faulted
  obtain rfl := h.faultCause
  obtain rfl := h.operands
  obtain rfl := h.host
  obtain rfl := hs.out
  rfl

/-- A context of which an operation has written only `state` and the bit queue. -/
theorem ctx_eq_of_kept {s m : State} (h : Kept s m) (htable : m.ctx.table = s.ctx.table) :
    m.ctx = { s.ctx with phase := m.ctx.phase, bitQueue := m.ctx.bitQueue, bitCount := m.ctx.bitCount } := by
  dsimp only
  rw [← h.level, ← h.format, ← h.crc, ← h.inputLen, ← htable]

/-! ### FINISH (R133) -/

section
variable {hdr : List Byte} {p q : Phase} {bits : List Bool} {s m : State} {cap : Nat}

/-- The phase after the open block has been closed (R114). -/
def closedPhase : Phase → Phase
  | .fixed => .eob
  | .last => .done
  | p => p

/-- The end-of-block code of an open block. -/
def endOfBlock (p : Phase) : List Bool := if p = .fixed ∨ p = .last then List.replicate 7 false else []

/-- The bytes that end the deflate data once no block is open: the final empty stored block, where no final block was sent,
and the padding. -/
def finalBytes (q : Phase) (bits : List Bool) : List Byte :=
  if q = .eob then packBits (bits ++ [true, false, false]) ++ [0x00#8, 0x00#8, 0xFF#8, 0xFF#8] else packBits bits

/-- The parts of what FINISH closes the deflate data with. -/
theorem closingBytes_eq {c : Context} (hu : c.phase ≠ .uninit) (he : c.phase ≠ .ended) :
    closingBytes c =
      finalBytes (closedPhase (startedPhase c.phase)) (pendingBits c ++ endOfBlock (startedPhase c.phase)) := by
  unfold closingBytes
  cases hp : c.phase with
  | uninit => exact absurd hp hu
  | ended => exact absurd hp he
  | _ => simp [startedPhase, closedPhase, endOfBlock, finalBytes]

theorem closeBlock_carrying (h : Carrying hdr [] p bits s) :
    Leaves (Carrying hdr [] (closedPhase p) (bits ++ endOfBlock p)) (closeBlock s) := by
  have heob : Leaves (Carrying hdr [] p (bits ++ List.replicate 7 false)) (emitEob s) :=
    enqueue_carrying ⟨0#32, 7⟩ h
  unfold closeBlock
  rw [h.phase]
  cases p
  case fixed => exact heob.bind fun m hm => hm.withPhase .eob
  case last => exact heob.bind fun m hm => hm.withPhase .done
  all_goals exact (List.append_nil bits).symm ▸ h

/-- The final empty block, where one is sent, and the flush end the deflate data at a byte boundary. -/
theorem finalEmptyBlock_flush_boundary (hq : q = .eob ∨ q = .done) (h : Carrying hdr [] q bits s) :
    Leaves (Boundary .done (hdr ++ finalBytes q bits)) ((finalEmptyBlock s).bind flushToByte) := by
  unfold finalEmptyBlock
  rw [h.phase]
  rcases hq with rfl | rfl
  · rw [if_pos rfl, bind_assoc, finalBytes, if_pos rfl]
    refine (enqueue_carrying _ h).bind fun m hm => ?_
    rw [bind_assoc]
    refine (flushToByte_boundary hm).bind fun m hm => ?_
    rw [bind_assoc]
    refine (writeRawBytes_boundary hm).bind fun m hm => ?_
    rw [bind_assoc]
    refine (writeRawBytes_boundary hm).bind fun m hm => ?_
    have hflush := flushToByte_boundary (hm.withPhase .done).carrying
    rw [fieldBits_blockHeader_stored, List.append_assoc, List.append_assoc, List.append_assoc] at hflush
    exact hflush
  · exact flushToByte_boundary h

/-- After the header no block is open, or FINISH closes it. -/
theorem closedPhase_startedPhase (hu : p ≠ .uninit) (he : p ≠ .ended) :
    closedPhase (startedPhase p) = .eob ∨ closedPhase (startedPhase p) = .done := by
  cases p
  case uninit => exact absurd rfl hu
  case ended => exact absurd rfl he
  all_goals decide

/-- What a FINISH that runs to its end has sent: the header, what closes the deflate data, and the trailer. -/
theorem finishBody_boundary (hc : ContextOk s.ctx) (hu : s.ctx.phase ≠ .uninit) (he : s.ctx.phase ≠ .ended)
    (hroom : (headerSent s.ctx).length ≤ s.operands.ocap.toNat) (hrun : finishBody s = .run m) :
    Boundary .ended (finishBytes s.ctx) m := by
  obtain ⟨a, b, c, d, ha, hb, hc', hd, hm⟩ := finishBody_eq_run.1 hrun
  obtain ⟨a', ha', hwrote, hsettled, hctx⟩ := headerPhase_run (s := beginFinish s) (sent_nil rfl rfl) hc hroom
  obtain rfl := Flow.run.inj (ha'.symm.trans ha)
  have hpending : pendingBits a'.ctx = pendingBits s.ctx := by
    rw [hctx]
    rfl
  have hheader : Carrying (headerSent s.ctx) [] (startedPhase s.ctx.phase) (pendingBits s.ctx) a' :=
    ⟨hsettled.toSoundIn, [], (List.append_nil (headerSent s.ctx)).symm ▸ hwrote, hpending⟩
  have hclosed := leaves_of_run (closeBlock_carrying hheader) hb
  have hdata := leaves_of_run (finalEmptyBlock_flush_boundary (closedPhase_startedPhase hu he) hclosed)
    (bind_eq_run.2 ⟨c, hc', hd⟩)
  rw [← closingBytes_eq hu he] at hdata
  have hemit : Emits (beginFinish s) d := (headerPhase_emits _ a' (.inl ha)).trans <|
    (closeBlock_emits a' b (.inl hb)).trans <| (finalEmptyBlock_emits b c (.inl hc')).trans
      (flushToByte_emits c d (.inl hd))
  have hsent := wrote_trailer hdata.noBits hdata.wrote hm
  rw [hemit.format, hemit.crc, hemit.inputLen] at hsent
  exact ⟨leaves_of_run (trailer_leaves hdata.toAlignedIn) hm, hsent⟩

/-! ### FINISH has room in the widest window -/

theorem closeBlock_uses {n : Nat} (h : Uses cap n s) (hroom : n + 7 ≤ 8 * cap) :
    NoOverflow (Uses cap (n + 7)) (closeBlock s) := by
  unfold closeBlock
  split
  · exact (emitEob_uses h hroom).bind fun m hm => hm.withPhase .eob
  · split
    · exact (emitEob_uses h hroom).bind fun m hm => hm.withPhase .done
    · exact h.mono (Nat.le_add_right _ _)

theorem finalEmptyBlock_uses {n : Nat} (h : Uses cap n s) (hroom : n + 42 ≤ 8 * cap) :
    NoOverflow (Uses cap (n + 42)) (finalEmptyBlock s) := by
  unfold finalEmptyBlock
  split
  · refine (enqueue_uses (f := blockHeader true btypeStored) h (by change n + 3 ≤ _; omega)).bind fun m hm => ?_
    change Uses cap (n + 3) m at hm
    refine (flushToByte_uses hm (by omega)).bind fun m hm => ?_
    refine (writeRawBytes_uses (bs := bytes16LE 0x0000#16) hm (by change _ + 16 ≤ _; omega)).bind fun m hm => ?_
    change Uses cap (_ + 16) m at hm
    refine (writeRawBytes_uses (bs := bytes16LE 0xFFFF#16) hm (by change _ + 16 ≤ _; omega)).bind fun m hm => ?_
    change Uses cap (_ + 16) m at hm
    exact (hm.mono (by omega)).withPhase .done
  · exact h.mono (Nat.le_add_right _ _)

theorem trailer_uses {n : Nat} (h : Uses cap n s) (hroom : n + 64 ≤ 8 * cap) :
    NoOverflow (Uses cap (n + 64)) (trailer s) := by
  unfold trailer
  refine NoOverflow.bind (P := Uses cap (n + 64)) ?_ fun m hm => hm.withPhase .ended
  split
  · refine (writeRawBytes_uses (bs := bytes32LE s.ctx.crc) h (by change n + 32 ≤ _; omega)).bind fun m hm => ?_
    exact writeRawBytes_uses (bs := bytes32LE (m.ctx.inputLen.setWidth 32)) hm hroom
  · exact (writeRawBytes_uses (bs := bytes32BE s.ctx.crc) h (by change n + 32 ≤ _; omega)).mono fun m hm =>
      hm.mono (by change n + 32 ≤ _; omega)
  · exact h.mono (Nat.le_add_right _ _)

theorem length_headerSent_le (c : Context) : (headerSent c).length ≤ 10 := by
  unfold headerSent
  split
  · cases c.format <;> decide
  · exact Nat.zero_le 10

/-- The bits in use after bytes that lie in the window: the pending ones besides theirs. -/
theorem uses_of_wrote {bs : List Byte} (hw : Wrote bs s) (hs : SoundIn p s) :
    Uses s.work.ocap.toNat (8 * bs.length + 7) s :=
  ⟨rfl, by rw [hw.cursor]; exact Nat.add_le_add_left hs.queueShort _⟩

/-- FINISH sends few bytes, whatever it finds: 30 have room for them (70_reset_and_hazards.md R157). -/
theorem finishBody_run (hc : ContextOk s.ctx) (hroom : 30 ≤ s.operands.ocap.toNat) : ∃ m, finishBody s = .run m := by
  have hproceeds : Proceeds (finishBody s) :=
    finishBody_proceeds (settledIn_of_contextOk (s := beginFinish s) hc List.Pairwise.nil)
  have hhdr := length_headerSent_le s.ctx
  obtain ⟨a, ha, hwrote, hsettled, -⟩ :=
    headerPhase_run (s := beginFinish s) (sent_nil rfl rfl) hc (hhdr.trans (by change 10 ≤ s.operands.ocap.toNat; omega))
  have hocap : a.work.ocap = s.operands.ocap := (headerPhase_emits _ a (.inl ha)).ocap
  have huses := uses_of_wrote hwrote hsettled.toSoundIn
  change Uses _ (8 * (headerSent s.ctx).length + 7) a at huses
  rw [hocap] at huses
  have hfits : NoOverflow (fun _ => True) (finishBody s) := by
    unfold finishBody
    rw [ha, bind_run]
    refine (closeBlock_uses huses (by omega)).bind fun b hb => (finalEmptyBlock_uses hb (by omega)).bind fun c hc => ?_
    refine (flushToByte_uses hc (by omega)).bind fun d hd => (trailer_uses hd (by omega)).mono fun _ _ => trivial
  obtain ⟨m, hm, -⟩ := hfits.exists_run hproceeds
  exact ⟨m, hm⟩

/-- With room for 30 bytes FINISH completes in the state that R133 gives. -/
theorem exec_finish_of_room (hf : s.faulted = false) (hc : ContextOk s.ctx) (hu : s.ctx.phase ≠ .uninit)
    (he : s.ctx.phase ≠ .ended) (hroom : 30 ≤ s.operands.ocap.toNat) :
    exec .finish s = .next (completedState s { s.ctx with phase := .ended, bitQueue := 0#32, bitCount := 0#5 }
      (finishBytes s.ctx)) := by
  obtain ⟨m, hm⟩ := finishBody_run hc hroom
  have hend := finishBody_boundary hc hu he ((length_headerSent_le s.ctx).trans (by omega)) hm
  have hemit := finishBody_emits s m (.inl hm)
  have hctx := ctx_eq_of_kept hemit.toKept hemit.table
  rw [hend.phase, bitQueue_of_aligned hend.toAlignedIn, hend.noBits] at hctx
  have hexec : exec .finish s = (finishBody s).outcome := execFinish_of_accepted hf hu he
  rw [hexec, hm, outcome_run, complete_eq_completedState hemit.toKept hend.wrote.toSent, hctx]
  rfl

/-- Settles O19: in the widest window FINISH completes, and the capacity decides nothing but whether its bytes have room. -/
theorem finishClosesStream : Obligations.FinishClosesStream := by
  intro s hf hc hu he hroom
  have hwide := exec_finish_of_room (s := s.withOcap 0xFFFFFFFF#32) hf hc hu he
    (show 30 ≤ (0xFFFFFFFF#32).toNat by decide)
  have hcap := (capacityDecidesOverflowOnly .finish (s.withOcap 0xFFFFFFFF#32) _ _ s.operands.ocap hf (by simp) hwide rfl).1
  refine hcap (le_trans ?_ hroom)
  rw [BitVec.toNat_ofNat]
  exact Nat.mod_le _ _
end

end Sys2Proof.Machine.CommandProofs

end


/-! PROOFS. An ENCODE that has room for its bytes (47_commands.md R132, 70_reset_and_hazards.md R156): the whole next state
of an empty chunk and of level 0, and completion at either level. -/
section

namespace Sys2Proof.Machine.CommandProofs

open Sys2Proof.Machine.Laws Sys2Proof.Machine.StateProofs Sys2Proof.Machine.MemoryProofs Sys2Proof.Machine.QueueProofs
open Sys2Proof.Machine.MatchFinderProofs Sys2Proof.Machine.StreamProofs Sys2Proof.Machine.SessionProofs
open Sys2Proof.Machine.RoomProofs

section
variable {more : Bool} {inp : List Byte} {s a m : State}

/-- An ENCODE that passes its pre-checks, runs to its end with the bytes `bs` and leaves the table completes in this state:
the chunk is counted, and besides only `state` and the bit queue are written. -/
theorem exec_encode_of_run {bs : List Byte} (hf : s.faulted = false)
    (hp : s.ctx.phase = .init ∨ s.ctx.phase = .eob ∨ s.ctx.phase = .fixed)
    (hlen : s.ctx.inputLen.toNat + s.operands.ilen.toNat < 2 ^ 64) (hkept : breached s.operands = false)
    (hrun : encodeBody more s = .run m) (htable : m.ctx.table = s.ctx.table) (hs : Sent bs m) :
    exec (.encode more) s = .next (completedState s
      { (counted more s).ctx with phase := m.ctx.phase, bitQueue := m.ctx.bitQueue, bitCount := m.ctx.bitCount } bs) := by
  have hbody := encodeBody_kept hrun
  have hexec : exec (.encode more) s = (encodeBody more s).outcome := execEncode_of_accepted hf hp hlen hkept
  rw [hexec, hrun, outcome_run, complete_eq_completedState (s := s) hbody hs, ← ctx_eq_of_kept hbody htable]

/-! ### An empty chunk (92 D16) -/

theorem chunkOf_of_empty {o : Operands} (h : o.ilen = 0#32) : chunkOf o = [] :=
  List.length_eq_zero_iff.1 ((length_chunkOf o).trans (congrArg BitVec.toNat h))

/-- With no pending run the data phase of an empty chunk does nothing, at either level. -/
theorem dataPhase_nil (h : s.work.plit = 0#32) : dataPhase [] s = .run s := by
  unfold dataPhase
  split
  · rfl
  · rw [scan, List.length_nil, scanLoop, bind_run, tailLoop, bind_run, flushPending, if_pos h]

/-- No byte is counted for an empty chunk. -/
theorem counted_ctx_of_empty (h : s.operands.ilen = 0#32) : (counted more s).ctx = s.ctx := by
  have hcrc : (counted more s).ctx.crc = s.ctx.crc := by
    rw [counted, withInputLen_crc, withCrc_crc, chunkOf_of_empty h, checksum_nil]
  have hinput : (counted more s).ctx.inputLen = s.ctx.inputLen := by
    rw [counted, withInputLen_inputLen, h]
    exact BitVec.add_zero _
  change { s.ctx with crc := (counted more s).ctx.crc, inputLen := (counted more s).ctx.inputLen } = s.ctx
  rw [hcrc, hinput]

/-- Settles O17: past the header there is nothing to send, and no byte to count. -/
theorem emptyChunkSendsHeaderOnly : Obligations.EmptyChunkSendsHeaderOnly := by
  intro more s hf hc hkept hp hempty hroom
  have hlen : s.ctx.inputLen.toNat + s.operands.ilen.toNat < 2 ^ 64 := by
    rw [hempty]
    exact s.ctx.inputLen.isLt
  obtain ⟨a, ha, hwrote, -, hctx⟩ := headerPhase_run (s := beginEncode more s) (sent_nil rfl rfl) hc hroom
  have hemit := headerPhase_emits _ a (.inl ha)
  have hdata : dataPhase (chunkOf s.operands) (checksumPhase (chunkOf s.operands) a) =
      .run (checksumPhase (chunkOf s.operands) a) := by
    rw [chunkOf_of_empty hempty]
    exact dataPhase_nil (s := checksumPhase [] a) hemit.plit
  have hrun := encodeBody_eq_run.2 ⟨a, _, ha, hdata, rfl⟩
  rw [exec_encode_of_run hf hp hlen hkept hrun hemit.table ⟨hwrote.out, hwrote.cursor⟩, counted_ctx_of_empty hempty]
  change Host.Outcome.next (completedState s
    { s.ctx with phase := a.ctx.phase, bitQueue := a.ctx.bitQueue, bitCount := a.ctx.bitCount } _) = _
  rw [hctx]
  rfl

/-! ### Level 0 -/

/-- The data phase at level 0 sends the chunk as stored blocks, and nothing for an empty chunk (R115, R156). -/
theorem dataPhase_levelZero_run {hdr : List Byte} (hlevel : s.ctx.level = 0#1)
    (h : Boundary .eob hdr s)
    (hroom : hdr.length + inp.length + 5 * ((inp.length + 65534) / 65535) ≤ s.work.ocap.toNat) :
    ∃ d, dataPhase inp s = .run d ∧
      Boundary (if inp.length = 0 ∨ s.work.more then .eob else .done)
        (hdr ++ if inp.length = 0 then [] else storedBytes s.work.more inp.length inp) d := by
  unfold dataPhase
  rw [if_pos hlevel]
  by_cases hempty : inp.length = 0
  · rw [if_neg (by omega), if_pos hempty, if_pos (.inl hempty), List.append_nil]
    exact ⟨s, rfl, h⟩
  · have hpos : 0 < inp.length := Nat.pos_of_ne_zero hempty
    have hphase : (if inp.length = 0 ∨ s.work.more then Phase.eob else .done) = storedPhase s.work.more := by
      simp [hempty, storedPhase]
    have huses : Uses s.work.ocap.toNat (8 * hdr.length) s :=
      ⟨rfl, by rw [h.noBits, h.wrote.cursor]; exact Nat.le_refl _⟩
    have hend : storedEnd (8 * hdr.length) .eob inp.length ≤ 8 * s.work.ocap.toNat := by
      simp only [storedEnd, storedBlocks, closeBits, if_true]
      omega
    have hfits := storedLoop_uses s.work.more (inp.length + 1) (Nat.zero_add _).le h.toSoundIn huses hend
    have hbytes := storedLoop_boundary s.work.more (Nat.zero_add _).le (Nat.lt_succ_self _) hpos (Nat.le_refl _) h
    rw [List.drop_zero, List.take_length] at hbytes
    obtain ⟨d, hd, -⟩ := hfits.exists_run (stored_proceeds _ (Nat.zero_add _).le h.toSoundIn)
    rw [if_pos hpos, if_neg hempty, hphase]
    exact ⟨d, hd, leaves_of_run hbytes hd⟩

/-- With no block open, an ENCODE at level 0 with room for its bytes runs to its end. -/
theorem encodeBody_levelZero_run (hc : ContextOk s.ctx) (hlevel : s.ctx.level = 0#1)
    (hp : s.ctx.phase = .init ∨ s.ctx.phase = .eob)
    (hroom : (headerSent s.ctx).length + s.operands.ilen.toNat + 5 * ((s.operands.ilen.toNat + 65534) / 65535)
      ≤ s.operands.ocap.toNat) :
    ∃ m, encodeBody more s = .run m ∧
      Boundary (if s.operands.ilen = 0#32 ∨ more then .eob else .done)
        (headerSent s.ctx ++
          if s.operands.ilen = 0#32 then [] else storedBytes more s.operands.ilen.toNat (chunkOf s.operands)) m := by
  have hchunk := length_chunkOf s.operands
  have hempty : s.operands.ilen.toNat = 0 ↔ s.operands.ilen = 0#32 :=
    ⟨fun h => BitVec.eq_of_toNat_eq h, fun h => congrArg BitVec.toNat h⟩
  obtain ⟨a, ha, hwrote, hsettled, -⟩ := headerPhase_run (s := beginEncode more s) (sent_nil rfl rfl) hc
    (show (headerSent s.ctx).length ≤ s.operands.ocap.toNat by omega)
  have hemit := headerPhase_emits _ a (.inl ha)
  have hocap : a.work.ocap = s.operands.ocap := hemit.ocap
  have hmore : (checksumPhase (chunkOf s.operands) a).work.more = more := hemit.more
  have hstarted : startedPhase (beginEncode more s).ctx.phase = .eob := by
    rcases hp with hp | hp <;> rw [beginEncode_ctx, hp] <;> rfl
  rw [hstarted] at hsettled
  have hstart : Boundary .eob (headerSent s.ctx) (checksumPhase (chunkOf s.operands) a) :=
    ⟨(hsettled.withCrc _).aligned rfl, hwrote.frame rfl rfl rfl⟩
  obtain ⟨d, hd, hsent⟩ := dataPhase_levelZero_run (s := checksumPhase (chunkOf s.operands) a)
    (hemit.level.trans hlevel) hstart (by rw [hchunk, checksumPhase_work, hocap]; exact hroom)
  simp only [hmore, hchunk, hempty] at hsent
  exact ⟨_, encodeBody_eq_run.2 ⟨a, d, ha, hd, rfl⟩, hsent.withInputLen _⟩

/-- Settles O13: the body runs to a byte boundary, and at level 0 nothing was pending before it either. -/
theorem encodeStoresAtLevelZero : Obligations.EncodeStoresAtLevelZero := by
  intro more s hf hc hkept hlevel hp hlen hroom
  obtain ⟨m, hrun, hend⟩ := encodeBody_levelZero_run (more := more) hc hlevel hp hroom
  have hclosed : s.ctx.phase.blockClosed = true := by rcases hp with hp | hp <;> rw [hp] <;> rfl
  have hstart : AlignedIn s.ctx.phase (beginEncode more s) :=
    (settledIn_of_contextOk (s := beginEncode more s) hc List.Pairwise.nil).aligned hclosed
  have hqueue : s.ctx.bitQueue = 0#32 := bitQueue_of_aligned (s := beginEncode more s) hstart
  rw [exec_encode_of_run hf (hp.imp_right .inl) hlen hkept hrun (encodeBody_table_of_levelZero hlevel hrun)
    hend.wrote.toSent, hend.phase, hend.noBits, bitQueue_of_aligned hend.toAlignedIn, ← hqueue, ← hstart.noBits]
  rfl

/-! ### Level 1 -/

/-- The scan of a chunk has room in a window of two bytes for each of its bytes, besides the header and a few more (R156).
-/
theorem dataPhase_levelOne_run {base : Position} {hdr : List Byte} (hlevel : s.ctx.level ≠ 0#1) (hlen : inp.length < 2 ^ 32)
    (hbase : base.toNat + inp.length < 2 ^ 64) (hpos : s.work.pos = 0#32) (hplit : s.work.plit = 0#32)
    (hbit9 : s.work.bit9 = 0#32) (hprobing : Probing inp base s) (hwrote : Wrote hdr s)
    (hroom : hdr.length + 2 * inp.length + 16 ≤ s.work.ocap.toNat) : ∃ d, dataPhase inp s = .run d := by
  obtain ⟨p, -, hsound⟩ := hprobing.flushed.soundIn
  have hscan : dataPhase inp s = scan inp s := if_neg hlevel
  have hstart : RunUses s.work.ocap.toNat (8 * hdr.length + 7) inp s :=
    ⟨hprobing.inChunk, hprobing.flushed, by rw [hbit9, hplit], by rw [hpos, hplit]; exact uses_of_wrote hwrote hsound⟩
  obtain ⟨d, hd, -⟩ := (scan_noOverflow hlen (by omega) hstart).exists_run (scan_proceeds hlen hbase hprobing)
  exact ⟨d, hscan.trans hd⟩

/-- At level 1 an ENCODE with the room of R156 runs to its end. -/
theorem encodeBody_levelOne_run (hc : ContextOk s.ctx) (hlevel : s.ctx.level ≠ 0#1)
    (hp : s.ctx.phase = .init ∨ s.ctx.phase = .eob ∨ s.ctx.phase = .fixed)
    (hlen : s.ctx.inputLen.toNat + s.operands.ilen.toNat < 2 ^ 64)
    (hroom : (headerSent s.ctx).length + 2 * s.operands.ilen.toNat + 16 ≤ s.operands.ocap.toNat) :
    ∃ m, encodeBody more s = .run m := by
  have hchunk := length_chunkOf s.operands
  obtain ⟨a, ha, hwrote, -, -⟩ := headerPhase_run (s := beginEncode more s) (sent_nil rfl rfl) hc
    (show (headerSent s.ctx).length ≤ s.operands.ocap.toNat by omega)
  have hemit := headerPhase_emits _ a (.inl ha)
  have hocap : a.work.ocap = s.operands.ocap := hemit.ocap
  have hlevel' : (checksumPhase (chunkOf s.operands) a).ctx.level ≠ 0#1 := fun h0 => hlevel (hemit.level.symm.trans h0)
  have hprobing := leaves_of_run (headerPhase_probing hc hp (chunkOf s.operands)) ha
  obtain ⟨d, hd⟩ := dataPhase_levelOne_run (s := checksumPhase (chunkOf s.operands) a) hlevel'
    (hchunk ▸ s.operands.ilen.isLt) (hchunk ▸ hlen) hemit.pos hemit.plit hemit.bit9 hprobing (hwrote.frame rfl rfl rfl)
    (by rw [hchunk, checksumPhase_work, hocap]; exact hroom)
  exact ⟨_, encodeBody_eq_run.2 ⟨a, d, ha, hd, rfl⟩⟩

/-- Settles O14: at level 0 no block is open and the stored blocks have room, at level 1 the scan has. -/
theorem encodeCompletesWithRoom : Obligations.EncodeCompletesWithRoom := by
  intro more s hf hc hkept hp hlen hroom
  have hrun : ∃ m, encodeBody more s = .run m := by
    by_cases hlevel : s.ctx.level = 0#1
    · have hopen : s.ctx.phase ≠ .fixed := fun h => absurd (hc.levelZeroPhase hlevel) (by rw [h]; decide)
      have hclosed : s.ctx.phase = .init ∨ s.ctx.phase = .eob := hp.imp_right fun h => h.resolve_right hopen
      obtain ⟨m, hm, -⟩ := encodeBody_levelZero_run (more := more) hc hlevel hclosed (by omega)
      exact ⟨m, hm⟩
    · exact encodeBody_levelOne_run hc hlevel hp hlen hroom
  obtain ⟨m, hm⟩ := hrun
  have hcounts := encodeBody_countsChunk hm
  have hexec : exec (.encode more) s = (encodeBody more s).outcome := execEncode_of_accepted hf hp hlen hkept
  exact ⟨complete m, m.work.cursor, by rw [hexec, hm, outcome_run], rfl, hcounts.faulted.trans hf, hcounts.crc,
    hcounts.inputLen⟩
end

end Sys2Proof.Machine.CommandProofs

end


/-! PROOFS. The exceptions of the core (60_exceptions.md): the idle core (R148), the core that refuses every command until
hardware reset (R140), and the pre-checks in their order, with the two answers of a command that passes them (R137). -/
section

namespace Sys2Proof.Machine.ExceptionProofs

open Sys2Proof.Machine.Laws Sys2Proof.Machine.StateProofs Sys2Proof.Machine.MemoryProofs
open Sys2Proof.Machine.EncodingProofs Sys2Proof.Machine.StreamProofs Sys2Proof.Machine.SessionProofs

/-! ### The idle core (R148) -/

/-- Settles O5: of what a step can do, an empty host leaves only the idle turn. -/
theorem idleCoreKeepsState : Obligations.IdleCoreKeepsState := by
  intro s hhost
  rcases step_cases s with ⟨-, hx⟩ | ⟨rest, hreset, -⟩ | ⟨c, rest, hcommand, -⟩
  · exact hx
  · exact absurd (hhost.symm.trans hreset) (by simp)
  · exact absurd (hhost.symm.trans hcommand) (by simp)

/-! ### A faulted core (R140) -/

/-- The first pre-check of every command is `faulted` (R137). -/
theorem exec_of_faulted (i : Instr) {s : State} (hf : s.faulted = true) : exec i s = .next (refuseFaulted s) := by
  cases i with
  | init level format => exact if_pos hf
  | encode more => exact if_pos hf
  | finish => exact if_pos hf

theorem runWord_of_faulted (w : Word) {s : State} (hf : s.faulted = true) : runWord w s = .next (refuseFaulted s) := by
  cases hw : decode w with
  | command i => exact (runWord_of_command hw s).trans (exec_of_faulted i hf)
  | illegal why => simp [runWord, hw, hf]

/-- Settles O7: an idle turn and a refusal keep `faulted`, so that the step that clears it is hardware reset. -/
theorem faultedCoreRefusesEveryWord : Obligations.FaultedCoreRefusesEveryWord := by
  refine ⟨fun w s hf => ⟨_, _, runWord_of_faulted w hf, rfl, hf, rfl, rfl, rfl, rfl, rfl, rfl⟩, fun s t hf ht hclear => ?_⟩
  rcases step_cases s with ⟨-, hx⟩ | ⟨rest, hreset, -⟩ | ⟨c, rest, -, hx⟩
  · obtain rfl := Host.Outcome.next.inj (hx.symm.trans ht)
    exact absurd (hf.symm.trans hclear) (by decide)
  · exact ⟨rest, hreset⟩
  · rw [runWord_of_faulted (s := acceptOperands c.operands { s with host := rest }) c.word hf] at hx
    obtain rfl := Host.Outcome.next.inj (hx.symm.trans ht)
    exact absurd (hf.symm.trans hclear) (by decide)

/-! ### The first failing pre-check (R137) -/

section
variable {level : BitVec 4} {format : BitVec 2} {more : Bool} {i : Instr} {c : Cause} {s t : State}

/-- FORMAT 3 is the one field that selects no format (10_state.md R18). -/
theorem formatOfField_eq_none : formatOfField format = none ↔ format = 3#2 := by
  revert format
  decide

theorem firstFailure_init :
    firstFailure (.init level format) s =
      if 1 < level.toNat then some .badLevel else if format = 3#2 then some .badFormat else none := rfl

theorem execInit_of_firstFailure (hf : s.faulted = false) (h : firstFailure (.init level format) s = some c) :
    execInit level format s = .next (takeFault c s) := by
  rw [firstFailure_init] at h
  split at h
  · rename_i hlevel
    obtain rfl := Option.some.inj h
    exact execInit_of_badLevel hf hlevel
  · rename_i hlevel
    obtain ⟨hformat, rfl⟩ : format = 3#2 ∧ Cause.badFormat = c := by simpa using h
    exact execInit_of_badFormat hf (Nat.not_lt.1 hlevel) (formatOfField_eq_none.2 hformat)

/-- An INIT that passes its pre-checks opens a stream (R131). -/
theorem execInit_of_passed (hf : s.faulted = false) (h : firstFailure (.init level format) s = none) :
    ∃ f, execInit level format s = .next (completeInit { s with ctx := initContext (level.setWidth 1) f }) := by
  rw [firstFailure_init] at h
  split at h
  · cases h
  split at h
  · cases h
  · rename_i hlevel hformat
    obtain ⟨f, hfield⟩ := Option.ne_none_iff_exists'.1 (mt formatOfField_eq_none.1 hformat)
    exact ⟨f, execInit_of_legal hf (Nat.not_lt.1 hlevel) hfield⟩

/-- The phases as ENCODE tells them apart (R119): no stream, one that accepts it, one that is closed. -/
theorem encode_phase_cases (p : Phase) :
    p = .uninit ∨ (p = .init ∨ p = .eob ∨ p = .fixed) ∨ (p = .last ∨ p = .done ∨ p = .ended) := by
  cases p <;> simp

/-- In a phase that accepts ENCODE only the count of the stream's bytes can fail. -/
theorem firstFailure_encode_of_accepting (hp : s.ctx.phase = .init ∨ s.ctx.phase = .eob ∨ s.ctx.phase = .fixed) :
    firstFailure (.encode more) s =
      if 2 ^ 64 ≤ s.ctx.inputLen.toNat + s.operands.ilen.toNat then some .streamTooLong else none := by
  rcases hp with hp | hp | hp <;> simp only [firstFailure, hp]

theorem firstFailure_encode_of_closed (hp : s.ctx.phase = .last ∨ s.ctx.phase = .done ∨ s.ctx.phase = .ended) :
    firstFailure (.encode more) s = some .encodeAfterClose := by
  rcases hp with hp | hp | hp <;> simp only [firstFailure, hp]

theorem execEncode_of_tooLong (hf : s.faulted = false)
    (hp : s.ctx.phase = .init ∨ s.ctx.phase = .eob ∨ s.ctx.phase = .fixed)
    (hlen : 2 ^ 64 ≤ s.ctx.inputLen.toNat + s.operands.ilen.toNat) :
    execEncode more s = .next (takeFault .streamTooLong s) := by
  unfold execEncode
  rcases hp with hp | hp | hp <;>
    simp only [hf, hp, hlen, if_false, if_true, reduceCtorEq, or_self, Bool.false_eq_true]

theorem execEncode_of_firstFailure (hf : s.faulted = false) (h : firstFailure (.encode more) s = some c) :
    execEncode more s = .next (takeFault c s) := by
  rcases encode_phase_cases s.ctx.phase with hp | hp | hp
  · obtain rfl : Cause.notInitialized = c := by simpa [firstFailure, hp] using h
    exact exec_of_uninit (i := .encode more) hf hp (by simp)
  · rw [firstFailure_encode_of_accepting hp] at h
    obtain ⟨hlen, hcause⟩ := Option.ite_none_right_eq_some.1 h
    obtain rfl := Option.some.inj hcause
    exact execEncode_of_tooLong hf hp hlen
  · obtain rfl := Option.some.inj ((firstFailure_encode_of_closed hp).symm.trans h)
    exact exec_encode_of_closed hf hp

/-- FINISH passes its pre-checks while a stream is open. -/
theorem firstFailure_finish_eq_none : firstFailure .finish s = none ↔ s.ctx.phase ≠ .uninit ∧ s.ctx.phase ≠ .ended := by
  cases hp : s.ctx.phase <;> simp [firstFailure, hp]

theorem execFinish_of_firstFailure (hf : s.faulted = false) (h : firstFailure .finish s = some c) :
    execFinish s = .next (takeFault c s) := by
  by_cases hu : s.ctx.phase = .uninit
  · obtain rfl : Cause.notInitialized = c := by simpa [firstFailure, hu] using h
    exact exec_of_uninit (i := .finish) hf hu (by simp)
  by_cases he : s.ctx.phase = .ended
  · obtain rfl : Cause.finishAfterEnd = c := by simpa [firstFailure, he] using h
    exact exec_finish_of_ended hf he
  · simp [firstFailure_finish_eq_none.2 ⟨hu, he⟩] at h

/-- A command of a core that is not faulted faults with the first of its pre-checks that fails. -/
theorem exec_of_firstFailure (hf : s.faulted = false) (h : firstFailure i s = some c) :
    exec i s = .next (takeFault c s) := by
  cases i with
  | init level format => exact execInit_of_firstFailure hf h
  | encode more => exact execEncode_of_firstFailure hf h
  | finish => exact execFinish_of_firstFailure hf h

/-! ### Past the pre-checks (R137) -/

/-- The two answers of a command that passes its pre-checks. -/
def OkOrOverflow (t : State) : Prop :=
  (t.faulted = false ∧ ∃ n, t.response = some ⟨0#4, n⟩) ∨
    (t.faulted = true ∧ t.faultCause = 7#4 ∧ ∃ n, t.response = some ⟨7#4, n⟩)

/-- A body that does not write `faulted` leaves it to the end of its command. -/
theorem okOrOverflow_of_outcome {x : Flow} (hkeeps : ∀ m, x = .run m → m.faulted = false) (ht : x.outcome = .next t) :
    OkOrOverflow t := by
  rcases outcome_eq_next.1 ht with ⟨m, hrun, rfl⟩ | ⟨m, -, rfl⟩
  · exact .inl ⟨hkeeps m hrun, _, rfl⟩
  · exact .inr ⟨rfl, rfl, _, rfl⟩

theorem okOrOverflow_breachedEncode (hf : s.faulted = false) : OkOrOverflow (breachedEncode s) := by
  rcases breachedEncode_cases s with hx | hx <;> rw [hx]
  · exact .inr ⟨rfl, rfl, _, rfl⟩
  · exact .inl ⟨hf, _, rfl⟩

theorem execEncode_okOrOverflow (hf : s.faulted = false) (h : firstFailure (.encode more) s = none)
    (ht : execEncode more s = .next t) : OkOrOverflow t := by
  obtain ⟨hp, hlen⟩ := accepted_of_firstFailure h
  cases hb : breached s.operands with
  | true =>
    obtain rfl := Host.Outcome.next.inj ((execEncode_of_breached hf hp hlen hb).symm.trans ht)
    exact okOrOverflow_breachedEncode hf
  | false =>
    rw [execEncode_of_accepted hf hp hlen hb] at ht
    exact okOrOverflow_of_outcome (fun m hrun => (encodeBody_countsChunk hrun).faulted.trans hf) ht

theorem execFinish_okOrOverflow (hf : s.faulted = false) (h : firstFailure .finish s = none)
    (ht : execFinish s = .next t) : OkOrOverflow t := by
  obtain ⟨hu, he⟩ := firstFailure_finish_eq_none.1 h
  rw [execFinish_of_accepted hf hu he] at ht
  exact okOrOverflow_of_outcome (fun m hrun => (finishBody_emits s m (.inl hrun)).faulted.trans hf) ht

theorem exec_okOrOverflow (hf : s.faulted = false) (h : firstFailure i s = none) (ht : exec i s = .next t) :
    OkOrOverflow t := by
  cases i with
  | init level format =>
    obtain ⟨f, hx⟩ := execInit_of_passed hf h
    obtain rfl := Host.Outcome.next.inj (hx.symm.trans ht)
    exact .inl ⟨hf, _, rfl⟩
  | encode more => exact execEncode_okOrOverflow hf h ht
  | finish => exact execFinish_okOrOverflow hf h ht

/-- INIT emits nothing, so that past its pre-checks it cannot fault. -/
theorem ne_init_of_fault (hf : s.faulted = false) (h : firstFailure i s = none) (ht : exec i s = .next t)
    (hfault : t.faulted = true) : i ≠ .init level format := by
  rintro rfl
  obtain ⟨f, hx⟩ := execInit_of_passed hf h
  obtain rfl := Host.Outcome.next.inj (hx.symm.trans ht)
  exact absurd (hf.symm.trans hfault) (by decide)

end

/-- Settles O6, check by check: `faulted`, the word, the first failing check of the command, and none. -/
theorem preChecksFaultInOrder : Obligations.PreChecksFaultInOrder := by
  refine ⟨fun w s hf => ⟨_, _, runWord_of_faulted w hf, rfl, hf, rfl, rfl, rfl, rfl⟩,
    fun w s why hf hw => ⟨_, _, runWord_of_illegal hw hf, rfl, rfl, rfl, rfl, rfl, rfl⟩,
    fun w i s c hf hw hfail =>
      ⟨_, _, (runWord_of_command hw s).trans (exec_of_firstFailure hf hfail), rfl, rfl, rfl, rfl, rfl, rfl⟩,
    fun w i s t hf hw hpass ht => ?_⟩
  rw [runWord_of_command hw] at ht
  rcases exec_okOrOverflow hf hpass ht with hok | ⟨hfault, hcause, hresponse⟩
  · exact .inl hok
  · exact .inr ⟨hfault, hcause, hresponse, fun _ _ => ne_init_of_fault hf hpass ht hfault⟩

end Sys2Proof.Machine.ExceptionProofs

end


/-! PROOFS. How many bits a scan takes at most (44_match_finder.md R103 to R108, 70_reset_and_hazards.md R156): nine for
every byte of the chunk and ten for a final block, the three that open a block again after a stored one among them. -/
section

namespace Sys2Proof.Machine.RoomProofs

open Sys2Proof.Machine.Laws Sys2Proof.Machine.StateProofs Sys2Proof.Machine.MemoryProofs Sys2Proof.Machine.StreamProofs

section
variable {cap bits : Nat} {inp : List Byte} {s : State}

/-! ### Blocks that can be opened again (45_block_state_machine.md R112 to R117) -/

/-- The bits that opening a block takes before more codes can be sent (R112, R113). -/
def openBits (p : Phase) : Nat := if p = .eob then 3 else 0

theorem openBits_le (p : Phase) : openBits p ≤ 3 := by
  unfold openBits
  split <;> decide

theorem openBits_openPhase (more : Bool) : openBits (openPhase more) = 0 := by cases more <;> rfl

/-- In a window of `cap` bytes at most `bits` bits are in use, those that open a block where none is open included. -/
def Reserves (cap bits : Nat) (s : State) : Prop := ∃ used, Uses cap used s ∧ used + openBits s.ctx.phase ≤ bits

theorem Reserves.mono {bits' : Nat} (h : Reserves cap bits s) (hle : bits ≤ bits') : Reserves cap bits' s := by
  obtain ⟨used, huses, hbits⟩ := h
  exact ⟨used, huses, hbits.trans hle⟩

/-- What is in use without a block to open. -/
theorem Reserves.uses (h : Reserves cap bits s) : Uses cap bits s := by
  obtain ⟨used, huses, hbits⟩ := h
  exact huses.mono (by omega)

/-- In the phase of an open block nothing more is reserved. -/
theorem Uses.reserves {more : Bool} (h : Uses cap bits s) (hp : s.ctx.phase = openPhase more) : Reserves cap bits s :=
  ⟨bits, h, by rw [hp, openBits_openPhase]; exact Nat.le_refl _⟩

/-- MATCH_OPEN takes what was reserved for it (R113). -/
theorem matchOpen_reserves (hroom : bits ≤ 8 * cap) (h : Reserves cap bits s) :
    NoOverflow (Uses cap bits) (matchOpen s) := by
  obtain ⟨used, huses, hbits⟩ := h
  unfold openBits at hbits
  unfold matchOpen
  split at hbits
  · rw [if_pos ‹_›]
    exact (openFixed_uses true huses (by omega)).mono fun m hm => hm.mono hbits
  · rw [if_neg ‹_›]
    exact huses.mono hbits

/-- The bits a flush takes to close the open block and to open a final one (R116). -/
def finalBits (more : Bool) : Nat := if more then 0 else 10

/-- HUFF_LITS opens its block with what was reserved for it, and a final one with ten bits more (R116). -/
theorem huffOpen_reserves (more : Bool) (hroom : bits + finalBits more ≤ 8 * cap) (h : Reserves cap bits s) :
    NoOverflow (Uses cap (bits + finalBits more)) (huffOpen more s) := by
  obtain ⟨used, huses, hbits⟩ := h
  unfold openBits at hbits
  unfold huffOpen
  split at hbits
  · rw [if_pos ‹_›]
    exact (openFixed_uses more huses (by omega)).mono fun m hm => hm.mono (by omega)
  · rw [if_neg ‹_›]
    cases more with
    | true => exact huses.mono hbits
    | false =>
      simp only [finalBits, Bool.false_eq_true, if_false] at hroom ⊢
      exact (emitEob_uses huses (by omega)).bind fun m hm =>
        (openFixed_uses false (hm.withPhase .eob) (by omega)).mono fun m hm => hm.mono (by omega)

theorem huffLits_reserves {i n : Nat} (more : Bool) (hin : i + n ≤ inp.length)
    (hroom : bits + finalBits more + 9 * n ≤ 8 * cap) (h : Reserves cap bits s) :
    NoOverflow (Uses cap (bits + finalBits more + 9 * n)) (huffLits inp i n more s) := by
  have hlen := length_chunk_bytes hin
  unfold huffLits
  rw [inBytes_of_le hin]
  refine (huffOpen_reserves more (by omega) h).bind fun m hm => ?_
  have hlits := emitLits_uses (bs := (inp.drop i).take n) hm (by rw [hlen]; exact hroom)
  rwa [hlen] at hlits

/-- Stored blocks of 52 bytes or more cost at most one bit a byte besides their data: that pays for the end of the open
block, the three bits of the first stored one, its pad, LEN and NLEN, and the block that is opened after them (R156). -/
theorem storedEnd_add_le {used n : Nat} (p : Phase) (hmany : 52 ≤ n) :
    storedEnd used p n + 3 ≤ used + openBits p + 9 * n := by
  unfold storedEnd storedBlocks closeBits openBits
  split <;> omega

/-- A flush of a run takes nine bits a byte, whichever block it goes into (R117). -/
theorem flushLits_reserves {i n b9 : Nat} (more : Bool) (hb9 : b9 ≤ n) (hin : i + n ≤ inp.length) (hs : Flushed true s)
    (hroom : bits + finalBits more + 9 * n ≤ 8 * cap) (h : Reserves cap bits s) :
    NoOverflow (Reserves cap (bits + finalBits more + 9 * n)) (flushLits inp i n b9 more s) := by
  obtain ⟨p, hp, hsound⟩ := hs.soundIn
  unfold flushLits
  split
  · rename_i hmany
    obtain ⟨used, huses, hbits⟩ := h
    rw [hsound.phase] at hbits
    have hend := storedEnd_add_le (used := used) p (hmany.trans hb9)
    refine (storedLoop_uses more _ hin hsound huses (by omega)).mono fun m hm => ⟨_, hm, ?_⟩
    have hopen := openBits_le m.ctx.phase
    omega
  · exact ((huffLits_reserves more hin hroom h).and_leaves (huffLits_leaves hp inp i n more hsound)).mono
      fun m ⟨huses, hm⟩ => huses.reserves hm.phase

/-! ### The scan -/

/-- A property of the states between two turns of a scan that every part of a turn keeps, unless it overflows. -/
structure ScanKeeps (inp : List Byte) (P : State → Prop) : Prop where
  inside : ∀ m, P m → m.work.pos.toNat ≤ inp.length
  probe : ∀ word m, P m → P (Machine.probe word m).2
  literal : ∀ m, m.work.pos.toNat < inp.length → P m → NoOverflow P (literalStep inp m)
  accept : ∀ dist len m, 4 ≤ len → m.work.pos.toNat + len ≤ inp.length → P m →
    NoOverflow P (acceptMatch inp dist len m)

section
variable {P Q : State → Prop}

/-- A turn of the scan probes, and then sends a match or counts a literal (R106). -/
theorem ScanKeeps.scanStep (hkeeps : ScanKeeps inp P) (hpos : s.work.pos.toNat + 4 ≤ inp.length) (h : P s) :
    NoOverflow P (scanStep inp s) := by
  obtain ⟨word, hword⟩ : ∃ word, readWord inp s.work.pos.toNat = some word := ⟨_, readWord_of_le hpos⟩
  have hprobe := hkeeps.probe word s h
  by_cases hacc : ∃ dist len, MatchAccepted inp s word dist len
  · obtain ⟨dist, len, hm⟩ := hacc
    rw [scanStep_of_accepted hword hm]
    obtain ⟨offset, -, -, -, rfl, -⟩ := hm
    exact hkeeps.accept _ _ _ (extend_bounds inp _ offset).1 (extend_le offset hpos) hprobe
  · rcases scanStep_of_not_accepted hword fun dist len hm => hacc ⟨dist, len, hm⟩ with hx | ⟨r, hx⟩
    · rw [hx]
      exact hkeeps.literal _ (show s.work.pos.toNat < inp.length by omega) hprobe
    · rw [hx]
      trivial

theorem ScanKeeps.scanLoop (hkeeps : ScanKeeps inp P) (k : Nat) (h : P s) : NoOverflow P (scanLoop inp k s) := by
  induction k generalizing s with
  | zero => exact h
  | succ k ih =>
    have hin := hkeeps.inside s h
    unfold Machine.scanLoop
    split
    · rename_i hleft
      simp only [minWord] at hleft
      exact (hkeeps.scanStep (by omega) h).bind fun m hm => ih hm
    · exact h

theorem ScanKeeps.tailLoop (hkeeps : ScanKeeps inp P) (k : Nat) (h : P s) : NoOverflow P (tailLoop inp k s) := by
  induction k generalizing s with
  | zero => exact h
  | succ k ih =>
    unfold Machine.tailLoop
    split
    · exact (hkeeps.literal s ‹_› h).bind fun m hm => ih hm
    · exact h

/-- A scan ends with the flush of its last run (R108). -/
theorem ScanKeeps.scan (hkeeps : ScanKeeps inp P)
    (hflush : ∀ m, P m → NoOverflow Q (flushPending inp m.work.more m)) (h : P s) : NoOverflow Q (scan inp s) :=
  (hkeeps.scanLoop _ h).bind fun _ ha => (hkeeps.tailLoop _ ha).bind fun b hb => hflush b hb
end

/-- Between two turns of the scan, where `bits` bits were reserved before it: nine bits are for every byte before the pending
run, which counts at most as many literals of 9 bits as it has literals (R103). -/
structure RunReserves (cap bits : Nat) (inp : List Byte) (s : State) : Prop extends InChunk inp s where
  flushed : Flushed true s
  bit9_le : s.work.bit9.toNat ≤ s.work.plit.toNat
  reserves : Reserves cap (bits + 9 * (s.work.pos.toNat - s.work.plit.toNat)) s

/-- Nine bits a byte are fewer than the sixteen that make room for a scan in any case. -/
theorem RunReserves.runUses (h : RunReserves cap bits inp s) : RunUses cap bits inp s :=
  ⟨h.toInChunk, h.flushed, h.bit9_le, h.reserves.uses.mono (by omega)⟩

/-- A literal joins the pending run, and nothing is sent (R103). -/
theorem literalStep_runReserves (hlen : inp.length < 2 ^ 32) (hpos : s.work.pos.toNat < inp.length)
    (h : RunReserves cap bits inp s) : NoOverflow (RunReserves cap bits inp) (literalStep inp s) := by
  refine (literalStep_runUses hlen hpos h.runUses).mono_run fun m hm huses => ?_
  refine ⟨huses.inChunk, huses.flushed, huses.bit9_le, ?_⟩
  obtain ⟨b, -, rfl⟩ := literalStep_eq_run.1 hm
  have hplit := h.plit_le
  have hpos' : (s.work.pos + 1#32).toNat = s.work.pos.toNat + 1 := advance_toNat (n := 1) (by omega)
  have hplit' : (s.work.plit + 1#32).toNat = s.work.plit.toNat + 1 := advance_toNat (n := 1) (by omega)
  obtain ⟨used, hused, hbits⟩ := h.reserves
  rw [withScan_pos, withScan_plit, hpos', hplit', Nat.add_sub_add_right]
  exact ⟨used, ⟨hused.ocap, hused.used⟩, hbits⟩

/-- The flush of the pending run brings the bits in use up to the position of the scan (R104, R108). -/
theorem flushPending_reserves (more : Bool) (hroom : bits + finalBits more + 9 * s.work.pos.toNat ≤ 8 * cap)
    (h : RunReserves cap bits inp s) :
    NoOverflow (Reserves cap (bits + finalBits more + 9 * s.work.pos.toNat)) (flushPending inp more s) := by
  have hpos := h.pos_le
  have hplit := h.plit_le
  unfold flushPending
  split
  · exact h.reserves.mono (by omega)
  · exact (flushLits_reserves more h.bit9_le (by omega) h.flushed (by omega) h.reserves).mono fun m hm => hm.mono (by omega)

/-- A match of at least four bytes takes at most 31 bits, in a block that has been reserved for (R104). -/
theorem acceptMatch_reserves {len : Nat} (dist : Nat) (h4 : 4 ≤ len)
    (hroom : bits + 9 * (s.work.pos.toNat + len) ≤ 8 * cap) (h : RunReserves cap bits inp s) :
    NoOverflow (Reserves cap (bits + 9 * (s.work.pos.toNat + len))) (acceptMatch inp dist len s) := by
  have hflush := flushPending_reserves true (by simp only [finalBits, if_true]; omega) h
  simp only [finalBits, if_true, Nat.add_zero] at hflush
  unfold acceptMatch
  refine (hflush.and_leaves (flushPending_true_leaves inp h.flushed)).bind fun a ⟨ha, hflushed⟩ => ?_
  obtain ⟨p, hp, hs⟩ := hflushed.soundIn
  have ha' : Reserves cap (bits + 9 * s.work.pos.toNat) (a.withScan a.work.pos 0#32 a.work.bit9) := by
    obtain ⟨used, hused, hbits⟩ := ha
    exact ⟨used, ⟨hused.ocap, hused.used⟩, hbits⟩
  refine ((matchOpen_reserves (by omega) ha').and_leaves (matchOpen_leaves hp (hs.withScan _ _ _))).bind
    fun b ⟨hb, hopen⟩ => ?_
  refine ((emitMatch_uses len dist hb (by omega)).and_leaves (emitMatch_leaves len dist hopen)).bind
    fun c ⟨hc, hsent⟩ => ?_
  have hused : Uses cap (bits + 9 * s.work.pos.toNat + 31)
      (c.withScan (c.work.pos + BitVec.ofNat 32 len) c.work.plit 0#32) := ⟨hc.ocap, hc.used⟩
  exact (hused.mono (by omega)).reserves (more := true) hsent.phase

/-- With room for nine bits a byte no part of a turn takes more. -/
theorem scanKeeps_runReserves (hlen : inp.length < 2 ^ 32) (hroom : bits + 9 * inp.length ≤ 8 * cap) :
    ScanKeeps inp (RunReserves cap bits inp) where
  inside m h := h.pos_le
  probe word m h := by
    obtain ⟨used, hused, hbits⟩ := h.reserves
    exact ⟨⟨h.pos_le, h.plit_le⟩, h.flushed.withSlot _ _, h.bit9_le, used, ⟨hused.ocap, hused.used⟩, hbits⟩
  literal m hpos h := literalStep_runReserves hlen hpos h
  accept dist len m h4 hin h := by
    refine (acceptMatch_reserves dist h4 (by omega) h).mono_run fun t ht hreserves => ?_
    obtain ⟨-, hmoved, hplit, hbit9⟩ := acceptMatch_run ht
    have hpos' : t.work.pos.toNat = m.work.pos.toNat + len := by
      rw [hmoved]
      exact advance_toNat (by omega)
    refine ⟨⟨hpos'.trans_le hin, by simp [hplit]⟩, leaves_of_run (acceptMatch_leaves inp dist len h.flushed) ht, ?_, ?_⟩
    · rw [hplit, hbit9]
    · rw [hpos', hplit]
      exact hreserves

/-- With room for nine bits a byte and ten more a scan takes no more bits (R156). -/
theorem scan_uses (hlen : inp.length < 2 ^ 32) (hroom : bits + 10 + 9 * inp.length ≤ 8 * cap)
    (h : RunReserves cap bits inp s) : NoOverflow (Uses cap (bits + 10 + 9 * inp.length)) (scan inp s) := by
  refine (scanKeeps_runReserves hlen (by omega)).scan (fun m hm => ?_) h
  have hin := hm.pos_le
  have hfinal : finalBits m.work.more ≤ 10 := by cases m.work.more <;> decide
  exact (flushPending_reserves _ (by omega) hm).mono fun t ht => ht.uses.mono (by omega)
end

end Sys2Proof.Machine.RoomProofs

end


/-! PROOFS. BYTES_WRITTEN of an ENCODE and of a FINISH that answer OK (70_reset_and_hazards.md R156, R157). -/
section

namespace Sys2Proof.Machine.CommandProofs

open Sys2Proof.Machine.Laws Sys2Proof.Machine.StateProofs Sys2Proof.Machine.MemoryProofs Sys2Proof.Machine.QueueProofs
open Sys2Proof.Machine.MatchFinderProofs Sys2Proof.Machine.StreamProofs Sys2Proof.Machine.RoomProofs

section
variable {more : Bool} {inp : List Byte} {s a m : State}

/-! ### The header (46_framing.md R125) -/

/-- A header that was sent had room. -/
theorem length_headerSent_le_ocap (hs : Sent [] s) (hc : ContextOk s.ctx) (hrun : headerPhase s = .run a) :
    (headerSent s.ctx).length ≤ s.work.ocap.toNat := by
  by_cases hp : s.ctx.phase = .init
  · rw [headerPhase_of_init hp (hc.noPending (hp ▸ rfl))] at hrun
    obtain ⟨b, hb, -⟩ := bind_eq_run.1 hrun
    obtain ⟨hwrote, -⟩ := wrote_outBytes ⟨hs, hs.cursor ▸ Nat.zero_le _⟩ hb
    have hroom := hwrote.room
    rw [hwrote.cursor, (outBytes_emits _ s b (.inl hb)).ocap] at hroom
    rwa [headerSent, if_pos hp]
  · rw [headerSent, if_neg hp]
    exact Nat.zero_le _

/-- What a header phase that has run to its end has done. -/
theorem headerPhase_of_run (hs : Sent [] s) (hc : ContextOk s.ctx) (hrun : headerPhase s = .run a) :
    Wrote (headerSent s.ctx) a ∧ SettledIn (startedPhase s.ctx.phase) a := by
  obtain ⟨b, hb, hwrote, hsettled, -⟩ := headerPhase_run hs hc (length_headerSent_le_ocap hs hc hrun)
  obtain rfl := Flow.run.inj (hb.symm.trans hrun)
  exact ⟨hwrote, hsettled⟩

/-! ### FINISH (R157) -/

theorem length_packBits (bits : List Bool) : (packBits bits).length = (bits.length + 7) / 8 := by
  rw [packBits, List.length_map, List.length_range]

theorem length_pendingBits (c : Context) : (pendingBits c).length = c.bitCount.toNat := by
  rw [pendingBits, List.length_map, List.length_range]

theorem length_trailerBytes (f : Format) (crc : Word) (n : Position) :
    (trailerBytes f crc n).length = trailerLength f := by
  cases f <;> rfl

/-- A FINISH that answers OK has written the bytes that R133 gives, and no others. -/
theorem bytesWritten_of_finish {t : State} {n : Word} (hf : s.faulted = false) (hc : ContextOk s.ctx)
    (ht : exec .finish s = .next t) (hok : t.response = some ⟨0#4, n⟩) :
    n.toNat = (headerSent s.ctx).length + (closingBytes s.ctx).length + trailerLength s.ctx.format := by
  obtain ⟨⟨hu, he⟩, m, hrun, rfl⟩ := finishBody_of_ok hf ht hok
  obtain ⟨a, -, -, -, ha, -⟩ := finishBody_eq_run.1 hrun
  have hroom : (headerSent s.ctx).length ≤ s.operands.ocap.toNat :=
    length_headerSent_le_ocap (s := beginFinish s) (sent_nil rfl rfl) hc ha
  obtain rfl : m.work.cursor = n := congrArg Response.bytesWritten (Option.some.inj hok)
  rw [(finishBody_boundary hc hu he hroom hrun).wrote.cursor, finishBytes, List.length_append, List.length_append,
    length_trailerBytes]

/-- Where no block is open FINISH sends the final empty stored block: its three bits and the pad, LEN and NLEN. -/
theorem length_closingBytes_of_ready {c : Context} (hc : ContextOk c) (hp : c.phase = .init ∨ c.phase = .eob) :
    (closingBytes c).length = 5 := by
  rcases hp with hp | hp
  all_goals
    have hnone : c.bitCount = 0#5 := hc.noPending (by rw [hp]; rfl)
    simp [closingBytes, hp, length_packBits, length_pendingBits, hnone]

/-- In FIXED it sends at most 17 bits before LEN and NLEN: those pending, the end of the block and the three of the
empty one. -/
theorem length_closingBytes_of_fixed {c : Context} (hc : ContextOk c) (hp : c.phase = .fixed) :
    (closingBytes c).length ≤ 7 := by
  have hshort := hc.queueShort
  simp only [closingBytes, hp, length_packBits, length_pendingBits, List.length_append, List.length_replicate,
    List.length_cons, List.length_nil]
  omega

/-- In LAST it sends at most 14 bits: those pending and the end of the block. -/
theorem length_closingBytes_of_last {c : Context} (hc : ContextOk c) (hp : c.phase = .last) :
    (closingBytes c).length ≤ 2 := by
  have hshort := hc.queueShort
  simp only [closingBytes, hp, length_packBits, length_pendingBits, List.length_append, List.length_replicate]
  omega

theorem length_closingBytes_of_done {c : Context} (hc : ContextOk c) (hp : c.phase = .done) :
    (closingBytes c).length = 0 := by
  have hnone : c.bitCount = 0#5 := hc.noPending (by rw [hp]; rfl)
  simp [closingBytes, hp, length_packBits, length_pendingBits, hnone]

/-- Settles O20: each entry phase has its count, and the largest of them is that of INIT or that of FIXED. -/
theorem finishByteBound : Obligations.FinishByteBound := by
  refine ⟨fun f => by cases f <;> exact ⟨rfl, rfl⟩, fun s t n hf hc ht hok => ?_⟩
  obtain ⟨⟨hu, he⟩, -⟩ := finishBody_of_ok hf ht hok
  have hbytes := bytesWritten_of_finish hf hc ht hok
  have hstarted (h : s.ctx.phase ≠ .init) : (headerSent s.ctx).length = 0 := by rw [headerSent, if_neg h, List.length_nil]
  have hinit (hp : s.ctx.phase = .init) :
      n.toNat = (headerBytes s.ctx.format).length + 5 + trailerLength s.ctx.format := by
    rw [hbytes, headerSent, if_pos hp, length_closingBytes_of_ready hc (.inl hp)]
  have hfixed (hp : s.ctx.phase = .fixed) : n.toNat ≤ 7 + trailerLength s.ctx.format := by
    have hclose := length_closingBytes_of_fixed hc hp
    have hheader := hstarted (by rw [hp]; decide)
    omega
  have hlast (hp : s.ctx.phase = .last) : n.toNat ≤ 2 + trailerLength s.ctx.format := by
    have hclose := length_closingBytes_of_last hc hp
    have hheader := hstarted (by rw [hp]; decide)
    omega
  have heob (hp : s.ctx.phase = .eob) : n.toNat = 5 + trailerLength s.ctx.format := by
    rw [hbytes, hstarted (by rw [hp]; decide), length_closingBytes_of_ready hc (.inr hp), Nat.zero_add]
  have hdone (hp : s.ctx.phase = .done) : n.toNat = trailerLength s.ctx.format := by
    rw [hbytes, hstarted (by rw [hp]; decide), length_closingBytes_of_done hc hp, Nat.zero_add]
  have hmax : n.toNat ≤ max ((headerBytes s.ctx.format).length + 5) 7 + trailerLength s.ctx.format := by
    cases hp : s.ctx.phase with
    | uninit => exact absurd hp hu
    | ended => exact absurd hp he
    | init => exact (hinit hp).le.trans (by omega)
    | eob => exact (heob hp).le.trans (by omega)
    | fixed => exact (hfixed hp).trans (by omega)
    | last => exact (hlast hp).trans (by omega)
    | done => exact (hdone hp).le.trans (by omega)
  refine ⟨hmax, hmax.trans ?_, hinit, hfixed, hlast, heob, hdone⟩
  cases s.ctx.format <;> decide

/-! ### ENCODE at level 0 (R156) -/

/-- Stored blocks take five bytes each besides their data (45_block_state_machine.md R115). -/
theorem length_storedBytes {fuel : Nat} {bs : List Byte} (hpos : 0 < bs.length) (hfuel : bs.length ≤ fuel) :
    (storedBytes more fuel bs).length = bs.length + 5 * storedBlocks bs.length := by
  have hblock (final : Bool) (block : List Byte) : (storedBlock final block).length = block.length + 5 := by
    simp [storedBlock, bytes16LE]
  induction fuel generalizing bs with
  | zero => exact absurd (hpos.trans_le hfuel) (Nat.lt_irrefl 0)
  | succ fuel ih =>
    have hmax : storedMax = 65535 := rfl
    rcases Nat.lt_or_ge storedMax bs.length with hmore | hlast
    · have hdrop : (bs.drop storedMax).length = bs.length - storedMax := List.length_drop
      rw [storedBytes_of_more more fuel hmore, List.length_append, hblock, List.length_take_of_le hmore.le,
        ih (by omega) (by omega), hdrop]
      unfold storedBlocks
      omega
    · rw [storedBytes_of_one more fuel hlast, hblock]
      unfold storedBlocks
      omega

/-- The data phase at level 0 sends five bytes for every stored block of the chunk besides its data (R115). -/
theorem dataPhase_levelZero_count {hdr : List Byte} {d : State} (hlevel : s.ctx.level = 0#1) (h : Boundary .eob hdr s)
    (hrun : dataPhase inp s = .run d) :
    d.work.cursor.toNat = hdr.length + inp.length + 5 * storedBlocks inp.length := by
  unfold dataPhase at hrun
  rw [if_pos hlevel] at hrun
  split at hrun
  · rename_i hpos
    have hbytes := storedLoop_boundary s.work.more (Nat.zero_add _).le (Nat.lt_succ_self _) hpos (Nat.le_refl _) h
    rw [List.drop_zero, List.take_length] at hbytes
    rw [(leaves_of_run hbytes hrun).wrote.cursor, List.length_append, length_storedBytes hpos (Nat.le_refl _),
      Nat.add_assoc]
  · rename_i hempty
    obtain rfl := Flow.run.inj hrun
    rw [h.wrote.cursor, Nat.eq_zero_of_not_pos hempty]
    rfl

theorem encodeBody_levelZero_count (hc : ContextOk s.ctx) (hlevel : s.ctx.level = 0#1)
    (hp : s.ctx.phase = .init ∨ s.ctx.phase = .eob ∨ s.ctx.phase = .fixed) (hrun : encodeBody more s = .run m) :
    m.work.cursor.toNat = (headerSent s.ctx).length + s.operands.ilen.toNat + 5 * storedBlocks s.operands.ilen.toNat := by
  obtain ⟨a, d, ha, hd, rfl⟩ := encodeBody_eq_run.1 hrun
  obtain ⟨hwrote, hsettled⟩ := headerPhase_of_run (s := beginEncode more s) (sent_nil rfl rfl) hc ha
  rw [beginEncode_ctx, startedPhase_of_closed hp (hc.levelZeroPhase hlevel)] at hsettled
  have hstart : Boundary .eob (headerSent s.ctx) (checksumPhase (chunkOf s.operands) a) :=
    ⟨(hsettled.withCrc _).aligned rfl, hwrote.frame rfl rfl rfl⟩
  have hcount := dataPhase_levelZero_count (s := checksumPhase (chunkOf s.operands) a)
    ((headerPhase_emits _ a (.inl ha)).level.trans hlevel) hstart hd
  rwa [length_chunkOf] at hcount

/-! ### ENCODE at level 1 (R156) -/

/-- What a header leaves in use: its bytes, and at most 7 bits, pending in an open block or reserved to open one. -/
theorem reserves_of_wrote {p : Phase} {bs : List Byte} (hw : Wrote bs s) (hs : SettledIn p s) :
    Reserves s.work.ocap.toNat (8 * bs.length + 7) s := by
  refine ⟨_, ⟨rfl, Nat.le_refl _⟩, ?_⟩
  rw [hw.cursor, hs.phase]
  by_cases hp : p = .eob
  · subst hp
    rw [hs.noPending rfl]
    exact Nat.add_le_add_left (by decide : 0 + openBits .eob ≤ 7) _
  · have hshort := hs.queueShort
    rw [openBits, if_neg hp]
    omega

/-- At level 1 an ENCODE writes at most its header, and nine bits for each byte of the chunk and twenty more: a larger count
would lie in a window that has room for what a scan takes at most, and the scan would have taken no more. -/
theorem encodeBody_levelOne_count (hc : ContextOk s.ctx) (hlevel : s.ctx.level ≠ 0#1)
    (hp : s.ctx.phase = .init ∨ s.ctx.phase = .eob ∨ s.ctx.phase = .fixed)
    (hcap : m.work.cursor.toNat ≤ s.operands.ocap.toNat) (hrun : encodeBody more s = .run m) :
    m.work.cursor.toNat ≤ (headerSent s.ctx).length + (9 * s.operands.ilen.toNat + 20) / 8 := by
  obtain ⟨a, d, ha, hd, rfl⟩ := encodeBody_eq_run.1 hrun
  obtain ⟨hwrote, hsettled⟩ := headerPhase_of_run (s := beginEncode more s) (sent_nil rfl rfl) hc ha
  have hemit := headerPhase_emits _ a (.inl ha)
  have hchunk := length_chunkOf s.operands
  have hprobing := leaves_of_run (headerPhase_probing hc hp (chunkOf s.operands)) ha
  have hocap : a.work.ocap = s.operands.ocap := hemit.ocap
  have hreserves := reserves_of_wrote (s := checksumPhase (chunkOf s.operands) a) (hwrote.frame rfl rfl rfl)
    (hsettled.withCrc _)
  rw [checksumPhase_work, hocap] at hreserves
  have hstart : RunReserves s.operands.ocap.toNat (8 * (headerSent s.ctx).length + 7) (chunkOf s.operands)
      (checksumPhase (chunkOf s.operands) a) :=
    ⟨hprobing.inChunk, hprobing.flushed, (congrArg BitVec.toNat (hemit.bit9.trans hemit.plit.symm)).le,
      hreserves.mono (Nat.le_add_right _ _)⟩
  have hscan : scan (chunkOf s.operands) (checksumPhase (chunkOf s.operands) a) = .run d :=
    (if_neg fun h0 => hlevel (hemit.level.symm.trans h0)).symm.trans hd
  by_contra hover
  rw [withInputLen_work] at hover hcap
  have hfits := scan_uses (hchunk ▸ s.operands.ilen.isLt) (by omega) hstart
  rw [hscan, hchunk] at hfits
  have hused := hfits.used
  omega

/-- Settles O15: the count is the cursor that the body leaves. -/
theorem encodeByteCount : Obligations.EncodeByteCount := by
  intro more s t n hf hc hkept ht hok
  obtain ⟨hp, -⟩ := encode_accepted_of_ok hf ht hok
  obtain ⟨-, -, -, -, hcap, -⟩ := encodeFrame more s t n hf ht hok
  obtain ⟨m, hrun, rfl⟩ := encodeBody_of_ok hf hkept ht hok
  obtain rfl : m.work.cursor = n := congrArg Response.bytesWritten (Option.some.inj hok)
  exact ⟨fun hlevel => encodeBody_levelZero_count hc hlevel hp hrun,
    fun hlevel => encodeBody_levelOne_count hc (by rw [hlevel]; decide) hp hcap hrun⟩
end

end Sys2Proof.Machine.CommandProofs

end
